-- ==== Sys2Proof/Word.lean ====
section
/-! DEFINITION. The data formats of spec/30_encoding.md: BYTE (R70), SYMBOL VALUE (R71), CHARACTER
(R72, `CHAR_W` = 8), the command word (R74), the STATUS code (R75), the five phases (R21, R24), and
the words that select an operation (R81 to R84). -/

namespace Sys2Proof

/-- BYTE format (R70), 8 bits, bit 7 first in the bitstream; also the CHARACTER format (R72). -/
abbrev Byte := BitVec 8

/-- SYMBOL VALUE format (R71), 5 bits, the index into the alphabet. -/
abbrev Symbol := BitVec 5

/-- The width of `E_CARRY` and `D_CARRY` (R21, R24). -/
abbrev Nibble := BitVec 4

/-- COMMAND WORD format (R74): bit 0 is `OP`, bit 1 is `ABSENT`. -/
abbrev Command := BitVec 2

/-- The two units (R20). -/
inductive UnitId where
  | enc
  | dec
deriving DecidableEq, Repr

/-- The 5 values of `E_PH` and `D_PH` (R21, R24; enumerations by R82). -/
inductive Phase where
  | p0
  | p1
  | p2
  | p3
  | p4
deriving DecidableEq, Repr, Inhabited

/-- Phase advance by 1 modulo 5 (R28). -/
def Phase.next : Phase → Phase
  | .p0 => .p1
  | .p1 => .p2
  | .p2 => .p3
  | .p3 => .p4
  | .p4 => .p0

/-- The phase as the number the rules give it. -/
def Phase.toNat : Phase → Nat
  | .p0 => 0
  | .p1 => 1
  | .p2 => 2
  | .p3 => 3
  | .p4 => 4

/-- STATUS (R32): the result of a unit's last operation. -/
inductive Status where
  | ok
  | errAbsent
  | errLength
  | errChar
deriving DecidableEq, Repr, Inhabited

/-- The 2-bit code of a STATUS (R32, R75). -/
def Status.code : Status → BitVec 2
  | .ok => 0
  | .errAbsent => 1
  | .errLength => 2
  | .errChar => 3

/-- Which unit(s) take a micro-step: at most one micro-step of each in a step (R232). -/
inductive Pick where
  | enc
  | dec
  | both
deriving DecidableEq, Repr, Inhabited

/-- A call of one of the five combinational functions, which have no encoding (R83). -/
inductive Func where
  | romFwd (v : Symbol)
  | romInv (c : Byte)
  | lenEnc (n : Nat)
  | lenDec (l : Nat)
  | lenChk (l : Nat)
deriving DecidableEq, Repr

/-- What the host can present to the block. -/
inductive HostWord where
  /-- The host's action ENC or DEC of R90: the command with `len`, and the wait for `done`. -/
  | call (cmd : Command) (len : Nat)
  /-- The command port asserted for one step: `start` = 1, `cmd`, `len` (R30). -/
  | port (cmd : Command) (len : Nat)
  /-- A combinational function (R83), evaluated by the host: the length functions by R53 and R120. That the host may also ask
  for ROM.FWD and ROM.INV, which R101 and R103 name for the micro-steps only, is a DESIGN CHOICE (notes/assumptions/20.md). -/
  | func (f : Func)
  /-- A character code (R72), looked up in the symbol map (R80, R84). -/
  | code (c : Byte)
deriving DecidableEq, Repr

/-- What selects one operation of the table: a word of the host, or a unit's control state (R27, R82).
`more` is the comparison of the index with the length: `E_IDX < E_LEN`, or `D_OIDX < D_TGT`. -/
inductive OpWord where
  | host (w : HostWord)
  | encRun (more : Bool) (ph : Phase)
  | decRun (more : Bool) (ph : Phase)
deriving DecidableEq, Repr

end Sys2Proof
end

