-- ==== Sys2Proof/Syntax.lean ====
section
/-! DEFINITION. The operations of the block, one constructor per row of spec/opcode_table.json (57 rows):
the host commands (R81), the micro-steps (R82), the combinational functions (R83) and the character codes
(R80, R84). Lengths are natural numbers: `LEN_W` is taken unbounded (R8, R126). -/

namespace Sys2Proof

inductive Instr where
  /-- ENCODE (R140): the whole operation on `IN_E[0 .. len-1]`. -/
  | encode (len : Nat)
  /-- DECODE (R170): the whole operation on `IN_D[0 .. len-1]`. -/
  | decode (len : Nat)
  /-- ENCODE with `ABSENT` = 1 (R81, R142); `len` is presented and ignored. -/
  | encodeAbsent (len : Nat)
  /-- DECODE with `ABSENT` = 1 (R81, R172); `len` is presented and ignored. -/
  | decodeAbsent (len : Nat)
  /-- ENC.START (R142): `cmd.ABSENT` and `len`. -/
  | encStart (absent : Bool) (len : Nat)
  /-- ENC.P0 (R143). -/
  | encP0
  /-- ENC.P1 (R144). -/
  | encP1
  /-- ENC.P2 (R145). -/
  | encP2
  /-- ENC.P3 (R146). -/
  | encP3
  /-- ENC.P4 (R147). -/
  | encP4
  /-- ENC.FLUSH (R148). -/
  | encFlush
  /-- ENC.FINISH (R149). -/
  | encFinish
  /-- DEC.START (R172): `cmd.ABSENT` and `len`. -/
  | decStart (absent : Bool) (len : Nat)
  /-- DEC.P0 (R173). -/
  | decP0
  /-- DEC.P1 (R174). -/
  | decP1
  /-- DEC.P2 (R175). -/
  | decP2
  /-- DEC.P3 (R176). -/
  | decP3
  /-- DEC.P4 (R177). -/
  | decP4
  /-- DEC.FINISH (R178). -/
  | decFinish
  /-- ROM.FWD (R101). -/
  | romFwd (v : Symbol)
  /-- ROM.INV (R103). -/
  | romInv (c : Byte)
  /-- LEN.ENC (R121). -/
  | lenEnc (n : Nat)
  /-- LEN.DEC (R123). -/
  | lenDec (l : Nat)
  /-- LEN.CHK (R124). -/
  | lenChk (l : Nat)
  /-- The character code of `A` (R80, R100). -/
  | symA
  /-- The character code of `B` (R80, R100). -/
  | symB
  /-- The character code of `C` (R80, R100). -/
  | symC
  /-- The character code of `D` (R80, R100). -/
  | symD
  /-- The character code of `E` (R80, R100). -/
  | symE
  /-- The character code of `F` (R80, R100). -/
  | symF
  /-- The character code of `G` (R80, R100). -/
  | symG
  /-- The character code of `H` (R80, R100). -/
  | symH
  /-- The character code of `I` (R80, R100). -/
  | symI
  /-- The character code of `J` (R80, R100). -/
  | symJ
  /-- The character code of `K` (R80, R100). -/
  | symK
  /-- The character code of `L` (R80, R100). -/
  | symL
  /-- The character code of `M` (R80, R100). -/
  | symM
  /-- The character code of `N` (R80, R100). -/
  | symN
  /-- The character code of `O` (R80, R100). -/
  | symO
  /-- The character code of `P` (R80, R100). -/
  | symP
  /-- The character code of `Q` (R80, R100). -/
  | symQ
  /-- The character code of `R` (R80, R100). -/
  | symR
  /-- The character code of `S` (R80, R100). -/
  | symS
  /-- The character code of `T` (R80, R100). -/
  | symT
  /-- The character code of `U` (R80, R100). -/
  | symU
  /-- The character code of `V` (R80, R100). -/
  | symV
  /-- The character code of `W` (R80, R100). -/
  | symW
  /-- The character code of `X` (R80, R100). -/
  | symX
  /-- The character code of `Y` (R80, R100). -/
  | symY
  /-- The character code of `Z` (R80, R100). -/
  | symZ
  /-- The character code of `2` (R80, R100). -/
  | sym2
  /-- The character code of `3` (R80, R100). -/
  | sym3
  /-- The character code of `4` (R80, R100). -/
  | sym4
  /-- The character code of `5` (R80, R100). -/
  | sym5
  /-- The character code of `6` (R80, R100). -/
  | sym6
  /-- The character code of `7` (R80, R100). -/
  | sym7
  /-- A character code that is none of the 32 (R84). -/
  | symInvalid (c : Byte)
deriving DecidableEq, Repr

end Sys2Proof
end

