-- ==== Sys2Proof/WellFormed.lean ====
section
/-! DEFINITION. Which terms of Instr are operations of the block. One check: SYM.INVALID carries one of the 224 codes
that are no character of the alphabet (R84). Every other operand is legal at every value (R30, R86, R121, R123). -/

namespace Sys2Proof

/-- The 32 codes are the two ASCII ranges `A` to `Z` and `2` to `7` (R105). -/
def isAlphabetCode (c : Byte) : Bool :=
  (0x32 ≤ c.toNat && c.toNat ≤ 0x37) || (0x41 ≤ c.toNat && c.toNat ≤ 0x5A)

def Instr.wellFormed : Instr → Bool
  | .symInvalid c => !isAlphabetCode c
  | _ => true

end Sys2Proof
end

