-- ==== Sys2Proof/Decode.lean ====
section
/-! DEFINITION. Decoding: from the word that selects an operation to the operation (R81, R82, R83, R84), total, with
the width a table word must have checked by name; and, after it, the encoder, written from the same tables. -/

namespace Sys2Proof

/-- Codes of the SYM rows, symbol values 0 to 7 (R100). -/
def symRows0 : List (Byte × Instr) :=
  [(0x41, .symA), (0x42, .symB), (0x43, .symC), (0x44, .symD), (0x45, .symE), (0x46, .symF), (0x47, .symG), (0x48, .symH)]

/-- Codes of the SYM rows, symbol values 8 to 15 (R100). -/
def symRows1 : List (Byte × Instr) :=
  [(0x49, .symI), (0x4A, .symJ), (0x4B, .symK), (0x4C, .symL), (0x4D, .symM), (0x4E, .symN), (0x4F, .symO), (0x50, .symP)]

/-- Codes of the SYM rows, symbol values 16 to 23 (R100). -/
def symRows2 : List (Byte × Instr) :=
  [(0x51, .symQ), (0x52, .symR), (0x53, .symS), (0x54, .symT), (0x55, .symU), (0x56, .symV), (0x57, .symW), (0x58, .symX)]

/-- Codes of the SYM rows, symbol values 24 to 31 (R100). -/
def symRows3 : List (Byte × Instr) :=
  [(0x59, .symY), (0x5A, .symZ), (0x32, .sym2), (0x33, .sym3), (0x34, .sym4), (0x35, .sym5), (0x36, .sym6), (0x37, .sym7)]

/-- The 32 SYM rows of the table: character code and operation, in the order of the symbol values (R80, R100). -/
def symRows : List (Byte × Instr) := symRows0 ++ symRows1 ++ symRows2 ++ symRows3

/-- The row of a character code: one of the 32, or SYM.INVALID for each of the other 224 (R80, R84). -/
def decodeCode (c : Byte) : Instr :=
  match symRows.find? (fun r => r.1 == c) with
  | some r => r.2
  | none => .symInvalid c

/-- `cmd[0]`, the field `OP` (R74): true selects DECODE. -/
def cmdOp (cmd : Command) : Bool := cmd.getLsbD 0

/-- `cmd[1]`, the field `ABSENT` (R74). -/
def cmdAbsent (cmd : Command) : Bool := cmd.getLsbD 1

/-- The four command words as whole operations (R81). -/
def decodeCall (cmd : Command) (len : Nat) : Instr :=
  match cmdOp cmd, cmdAbsent cmd with
  | false, false => .encode len
  | true, false => .decode len
  | false, true => .encodeAbsent len
  | true, true => .decodeAbsent len

/-- The micro-step a presented command enables in the unit that `OP` selects (R82, R141, R171). -/
def decodePort (cmd : Command) (len : Nat) : Instr :=
  match cmdOp cmd with
  | false => .encStart (cmdAbsent cmd) len
  | true => .decStart (cmdAbsent cmd) len

/-- The combinational functions are selected by name (R83). -/
def decodeFunc : Func → Instr
  | .romFwd v => .romFwd v
  | .romInv c => .romInv c
  | .lenEnc n => .lenEnc n
  | .lenDec l => .lenDec l
  | .lenChk l => .lenChk l

/-- The operation a host word selects. -/
def decodeHost : HostWord → Instr
  | .call cmd len => decodeCall cmd len
  | .port cmd len => decodePort cmd len
  | .func f => decodeFunc f
  | .code c => decodeCode c

/-- The micro-step ENC's control state selects while `E_ST` = RUN (R82, R141): `more` is `E_IDX < E_LEN`. -/
def decodeEnc : Bool → Phase → Instr
  | true, .p0 => .encP0
  | true, .p1 => .encP1
  | true, .p2 => .encP2
  | true, .p3 => .encP3
  | true, .p4 => .encP4
  | false, .p0 => .encFinish
  | false, .p1 => .encFlush
  | false, .p2 => .encFlush
  | false, .p3 => .encFlush
  | false, .p4 => .encFlush

/-- The micro-step DEC's control state selects while `D_ST` = RUN (R82, R171): `more` is `D_OIDX < D_TGT`. -/
def decodeDec : Bool → Phase → Instr
  | true, .p0 => .decP0
  | true, .p1 => .decP1
  | true, .p2 => .decP2
  | true, .p3 => .decP3
  | true, .p4 => .decP4
  | false, _ => .decFinish

/-- The operation a word selects; every word selects one (R84, R86). -/
def decode : OpWord → Instr
  | .host w => decodeHost w
  | .encRun more ph => decodeEnc more ph
  | .decRun more ph => decodeDec more ph

/-- Why a table word is none of the block's. -/
inductive DecodeError where
  /-- The block has words of 2 bits (the command word, R74) and of 8 bits (a character code, R72) only. -/
  | noSuchWidth
  /-- The number has bits above the word's width. -/
  | tooWide
deriving DecidableEq, Repr

/-- A word of the opcode table as the host presents it: 2 bits are a command word (with `len` = 0, its port having no
bits in the table), 8 bits a character code; every other word is rejected by name. -/
def tableWord (nbits w : Nat) : Except DecodeError HostWord :=
  if nbits = 2 then
    if w < 4 then .ok (.call (BitVec.ofNat 2 w) 0) else .error .tooWide
  else if nbits = 8 then
    if w < 256 then .ok (.code (BitVec.ofNat 8 w)) else .error .tooWide
  else .error .noSuchWidth

/-- The operation the decoder reads from a table word. -/
def decodeTableWord (nbits w : Nat) : Option Instr :=
  match tableWord nbits w with
  | .ok hw => some (decodeHost hw)
  | .error _ => none

/-- A command word from its two fields (R74): `ABSENT` is bit 1, `OP` bit 0. -/
def cmdWord (absent op : Bool) : Command := BitVec.ofBool absent ++ BitVec.ofBool op

/-- The word that selects an operation, from the tables of R80 to R84. ENC.FLUSH and DEC.FINISH are selected in several
phases; the encoder gives the least. -/
def encode : Instr → OpWord
  | .encode len => .host (.call 0b00 len)
  | .decode len => .host (.call 0b01 len)
  | .encodeAbsent len => .host (.call 0b10 len)
  | .decodeAbsent len => .host (.call 0b11 len)
  | .encStart absent len => .host (.port (cmdWord absent false) len)
  | .encP0 => .encRun true .p0
  | .encP1 => .encRun true .p1
  | .encP2 => .encRun true .p2
  | .encP3 => .encRun true .p3
  | .encP4 => .encRun true .p4
  | .encFlush => .encRun false .p1
  | .encFinish => .encRun false .p0
  | .decStart absent len => .host (.port (cmdWord absent true) len)
  | .decP0 => .decRun true .p0
  | .decP1 => .decRun true .p1
  | .decP2 => .decRun true .p2
  | .decP3 => .decRun true .p3
  | .decP4 => .decRun true .p4
  | .decFinish => .decRun false .p0
  | .romFwd v => .host (.func (.romFwd v))
  | .romInv c => .host (.func (.romInv c))
  | .lenEnc n => .host (.func (.lenEnc n))
  | .lenDec l => .host (.func (.lenDec l))
  | .lenChk l => .host (.func (.lenChk l))
  | .symA => .host (.code 0x41)
  | .symB => .host (.code 0x42)
  | .symC => .host (.code 0x43)
  | .symD => .host (.code 0x44)
  | .symE => .host (.code 0x45)
  | .symF => .host (.code 0x46)
  | .symG => .host (.code 0x47)
  | .symH => .host (.code 0x48)
  | .symI => .host (.code 0x49)
  | .symJ => .host (.code 0x4A)
  | .symK => .host (.code 0x4B)
  | .symL => .host (.code 0x4C)
  | .symM => .host (.code 0x4D)
  | .symN => .host (.code 0x4E)
  | .symO => .host (.code 0x4F)
  | .symP => .host (.code 0x50)
  | .symQ => .host (.code 0x51)
  | .symR => .host (.code 0x52)
  | .symS => .host (.code 0x53)
  | .symT => .host (.code 0x54)
  | .symU => .host (.code 0x55)
  | .symV => .host (.code 0x56)
  | .symW => .host (.code 0x57)
  | .symX => .host (.code 0x58)
  | .symY => .host (.code 0x59)
  | .symZ => .host (.code 0x5A)
  | .sym2 => .host (.code 0x32)
  | .sym3 => .host (.code 0x33)
  | .sym4 => .host (.code 0x34)
  | .sym5 => .host (.code 0x35)
  | .sym6 => .host (.code 0x36)
  | .sym7 => .host (.code 0x37)
  | .symInvalid c => .host (.code c)

end Sys2Proof
end

