-- ==== Sys2Proof/Config.lean ====
section
/-! DEFINITION. The free values of the model: what the spec leaves unspecified after an event the machine
goes on from, and the schedule of the two units. Each is an opaque constant: nothing can be proved of it. -/

namespace Sys2Proof

/-- The value a length register holds after `rst`, and the value of `D_LEN` after `ERR_ABSENT`
(R230, R39, R172; 93_implementation_defined.md U4, U6). First argument: the register's number in this model,
second argument: the draw. Notes: notes/assumptions/4.md. -/
opaque Config.freeLen : Nat → Nat → Nat

/-- The value of a phase register after `rst` (R230, R39). -/
opaque Config.freePhase : Nat → Nat → Phase

/-- The value of a carry register after `rst` (R230, R39). -/
opaque Config.freeCarry : Nat → Nat → Nibble

/-- The value of a status register after `rst` (R230, R39). -/
opaque Config.freeStatus : Nat → Nat → Status

/-- The value of `D_ERRCHAR` after `rst` (R230, R39). -/
opaque Config.freeChar : Nat → Nat → Byte

/-- The value of an element of a unit's output buffer after an error or a cut operation
(93_implementation_defined.md U3): the unit, the draw of the event, the index. Notes: notes/assumptions/13.md. -/
opaque Config.freeElement : UnitId → Nat → Nat → Byte

/-- Which unit(s) the next step runs when the host asks for nothing (R216, R232). -/
opaque Config.schedule : Nat → Pick

end Sys2Proof
end

