-- ==== Sys2Proof/Machine/Operands.lean ====
section
/-! DEFINITION. The combinational parts: the alphabet ROM and its inverse (spec/40), the length arithmetic (spec/41), and
the cutting of symbols from bytes and of bytes from symbols (R76 to R79), phase by phase. `v.extractLsb hi lo` is the
spec's slice `v[hi:lo]`, and `++` its `||` (R9). -/

namespace Sys2Proof.Machine

/-- The letters of the ROM, symbol values 0 to 25 (R100). -/
def romLetters : List Byte :=
  [0x41, 0x42, 0x43, 0x44, 0x45, 0x46, 0x47, 0x48, 0x49, 0x4A, 0x4B, 0x4C, 0x4D,
   0x4E, 0x4F, 0x50, 0x51, 0x52, 0x53, 0x54, 0x55, 0x56, 0x57, 0x58, 0x59, 0x5A]

/-- The digits of the ROM, symbol values 26 to 31 (R100). -/
def romDigits : List Byte := [0x32, 0x33, 0x34, 0x35, 0x36, 0x37]

/-- The contents of the ROM, 32 entries in index order (R36, R100). -/
def rom : List Byte := romLetters ++ romDigits

/-- ROM.FWD (R101): `ROM[v]`. Every 5-bit value has an entry. -/
def romFwd (v : Symbol) : Byte := rom.getD v.toNat 0

/-- ROM.INV (R103): the `v` with `ROM[v] = c`, which R102 makes unique, or `invalid`. -/
def romInv (c : Byte) : Option Symbol :=
  (rom.findIdx? (fun e => e == c)).map (BitVec.ofNat 5)

/-- LEN.ENC (R121): `ceil(8*N/5)`. -/
def lenEnc (n : Nat) : Nat := (8 * n + (5 - 1)) / 5

/-- LEN.DEC (R123): `floor(5*L/8)`. -/
def lenDec (l : Nat) : Nat := 5 * l / 8

/-- LEN.CHK (R124), true for `valid`; `L = 0` is a case of its own that never evaluates `L - 1` (R125). -/
def lenChk : Nat → Bool
  | 0 => true
  | l + 1 => lenDec (l + 1) != lenDec l

/-- The symbols a P-step of ENC writes, in order, from the carry and the byte read (R143 to R147). -/
def encSymbols (p : Phase) (carry : Nibble) (b : Byte) : List Symbol :=
  match p with
  | .p0 => [b.extractLsb 7 3]
  | .p1 => [carry.extractLsb 2 0 ++ b.extractLsb 7 6, b.extractLsb 5 1]
  | .p2 => [carry.extractLsb 0 0 ++ b.extractLsb 7 4]
  | .p3 => [carry.extractLsb 3 0 ++ b.extractLsb 7 7, b.extractLsb 6 2]
  | .p4 => [carry.extractLsb 1 0 ++ b.extractLsb 7 5, b.extractLsb 4 0]

/-- The carry a P-step of ENC leaves (R143 to R147). -/
def encCarry (p : Phase) (b : Byte) : Nibble :=
  match p with
  | .p0 => (0#1) ++ b.extractLsb 2 0
  | .p1 => (0#3) ++ b.extractLsb 0 0
  | .p2 => b.extractLsb 3 0
  | .p3 => (0#2) ++ b.extractLsb 1 0
  | .p4 => 0#4

/-- The symbol ENC.FLUSH writes: the `W[E_PH]` bits of the carry, zero-padded in the low bits (R148, R77). In phase 0 the
carry is empty and ENC.FLUSH is not enabled. -/
def flushSymbol (p : Phase) (carry : Nibble) : Symbol :=
  match p with
  | .p0 => 0#5
  | .p1 => carry.extractLsb 2 0 ++ (0#2)
  | .p2 => carry.extractLsb 0 0 ++ (0#4)
  | .p3 => carry.extractLsb 3 0 ++ (0#1)
  | .p4 => carry.extractLsb 1 0 ++ (0#3)

/-- How many characters a P-step of DEC consumes (R181). -/
def decTake : Phase → Nat
  | .p0 => 2
  | .p1 => 2
  | .p2 => 1
  | .p3 => 2
  | .p4 => 1

/-- The byte a P-step of DEC writes, from the carry and the one or two values read, `v` then `w` (R173 to R177); in phases
2 and 4 only `v` is read. -/
def decByte (p : Phase) (carry : Nibble) (v w : Symbol) : Byte :=
  match p with
  | .p0 => v.extractLsb 4 0 ++ w.extractLsb 4 2
  | .p1 => carry.extractLsb 1 0 ++ v.extractLsb 4 0 ++ w.extractLsb 4 4
  | .p2 => carry.extractLsb 3 0 ++ v.extractLsb 4 1
  | .p3 => carry.extractLsb 0 0 ++ v.extractLsb 4 0 ++ w.extractLsb 4 3
  | .p4 => carry.extractLsb 2 0 ++ v.extractLsb 4 0

/-- The carry a P-step of DEC leaves (R173 to R177). -/
def decCarry (p : Phase) (v w : Symbol) : Nibble :=
  match p with
  | .p0 => (0#2) ++ w.extractLsb 1 0
  | .p1 => w.extractLsb 3 0
  | .p2 => (0#3) ++ v.extractLsb 0 0
  | .p3 => (0#1) ++ w.extractLsb 2 0
  | .p4 => 0#4

end Sys2Proof.Machine
end

