-- ==== Sys2Proof/Machine/State.lean ====
section
/-! DEFINITION. The state of the block: the registers of ENC (R21) and DEC (R24), the four buffers (R50), what the host
has asked for and not yet got, and the model's own fields. Plain data throughout. -/

namespace Sys2Proof.Machine

/-- The control states `IDLE`, `RUN`, `DONE` of a unit (R21, R24). -/
inductive Ctl where
  | idle
  | run
  | done
deriving DecidableEq, Repr

/-- The eight registers of the encoder unit (R21). -/
structure EncRegs where
  /-- `E_ST` -/
  st : Ctl
  /-- `E_LEN` -/
  len : Nat
  /-- `E_OLEN` -/
  olen : Nat
  /-- `E_IDX` -/
  idx : Nat
  /-- `E_OIDX` -/
  oidx : Nat
  /-- `E_PH` -/
  ph : Phase
  /-- `E_CARRY` -/
  carry : Nibble
  /-- `E_STATUS` -/
  status : Status
deriving DecidableEq, Repr

/-- The eleven registers of the decoder unit (R24). -/
structure DecRegs where
  /-- `D_ST` -/
  st : Ctl
  /-- `D_LEN` -/
  len : Nat
  /-- `D_TGT` -/
  tgt : Nat
  /-- `D_OLEN` -/
  olen : Nat
  /-- `D_IDX` -/
  idx : Nat
  /-- `D_OIDX` -/
  oidx : Nat
  /-- `D_PH` -/
  ph : Phase
  /-- `D_CARRY` -/
  carry : Nibble
  /-- `D_STATUS` -/
  status : Status
  /-- `D_ERRCHAR` -/
  errChar : Byte
  /-- `D_ERRPOS` -/
  errPos : Nat
deriving DecidableEq, Repr

/-- The contents of one buffer (R50): index and element, indices strictly rising (`Memory.wf`). -/
abbrev Memory := List Host.Cell

/-- What an index reads as that nothing has written: no value, so that the reading micro-step faults
(93_implementation_defined.md U5; notes/assumptions/3.md). -/
def Memory.unlisted : Option Byte := none

/-- The four writable spaces of R50. -/
inductive Space where
  | inE
  | outE
  | inD
  | outD
deriving DecidableEq, Repr

/-- The status ports (R31). -/
inductive StatusPort where
  | eBusy
  | eDone
  | eStatus
  | eOutlen
  | dBusy
  | dDone
  | dStatus
  | dOutlen
  | dLen
  | dErrchar
  | dErrpos
deriving DecidableEq, Repr

/-- What the host does to the block in one step (R30, R31, R53, R58, R90, R230), and the host's choice of the unit
that steps next (R40, R216). -/
inductive HostEvent where
  /-- `rst` asserted (R230). -/
  | rst
  /-- A command, a function call or a character code. -/
  | word (w : HostWord)
  /-- The schedule: this unit, or both, takes its enabled micro-step now. -/
  | tick (p : Pick)
  /-- The host waits for a unit's `done` (R90, R234 step 5): the units step until the unit is not busy. -/
  | await (u : UnitId)
  /-- The host provides an output buffer of `size` elements for a unit (R53). -/
  | provide (u : UnitId) (size : Nat)
  /-- The host stores one element of a buffer it owns (R53, R58). -/
  | write (sp : Space) (i : Nat) (b : Byte)
  /-- The host reads one element of a buffer it owns (R53, R58), or of an input buffer it has lent (notes/assumptions/21.md). -/
  | read (sp : Space) (i : Nat)
  /-- The host reads a status port (R31). -/
  | port (p : StatusPort)
deriving DecidableEq, Repr

/-- The answer on the block's combinational outputs or its read ports. -/
inductive Response where
  /-- Nothing has been asked yet. -/
  | none
  /-- A character code: ROM.FWD (R101), `d_errchar` (R31). -/
  | code (c : Byte)
  /-- A symbol value or `invalid`: ROM.INV (R103), a SYM row (R80, R84). -/
  | value (v : Option Symbol)
  /-- A length or an index: LEN.ENC (R121), LEN.DEC (R123), `outlen`, `d_len`, `d_errpos` (R31). -/
  | length (n : Nat)
  /-- One bit: LEN.CHK, true for `valid` (R124), `busy`, `done` (R29). -/
  | flag (b : Bool)
  /-- A STATUS code (R32). -/
  | status (x : BitVec 2)
  /-- One element of a buffer (R58). -/
  | element (b : Byte)
deriving DecidableEq, Repr

/-- Which elements of an output buffer are unspecified (R59, R231; 93_implementation_defined.md U3): every one, since the
error or the cut drawn as `draw`, but those a unit or the host has stored since. -/
structure Unspecified where
  /-- The draw of the event. -/
  draw : Nat
  /-- The indices stored since, strictly rising. -/
  stored : List Nat
deriving DecidableEq, Repr

/-- What `raise` records (R200): the three errors with their report values. -/
inductive RaisedError where
  | absent
  | length (l : Nat)
  | char (c : Byte) (pos : Nat)
deriving DecidableEq, Repr

/-- The state of the block. -/
structure State where
  /-- The encoder unit's registers (R21). -/
  enc : EncRegs
  /-- The decoder unit's registers (R24). -/
  dec : DecRegs
  /-- `IN_E` (R50). -/
  inE : Memory
  /-- `OUT_E` (R50). -/
  outE : Memory
  /-- `IN_D` (R50). -/
  inD : Memory
  /-- `OUT_D` (R50). -/
  outD : Memory
  /-- The number of elements of the output buffer the host has provided to ENC (R53); none: the whole index space. -/
  eCap : Option Nat
  /-- The same for DEC. -/
  dCap : Option Nat
  /-- The elements of `OUT_E` that are unspecified after an error or a cut operation (R59, R231); none: no element is. -/
  eOpen : Option Unspecified
  /-- The same for `OUT_D`. -/
  dOpen : Option Unspecified
  /-- The model's own: what the last combinational function or host read answered. -/
  resp : Response
  /-- The host's requests, next one first (R40's schedule, as data). -/
  pending : List HostEvent
  /-- The model's own: the draw of the next free value. -/
  draw : Nat
deriving DecidableEq, Repr

/-- Why a step stops with no effect. -/
inductive Fault where
  /-- A micro-step in a state that does not enable it (R82, R141, R171): no such step exists. Raised by the STEP rows'
  meanings; never by `step`, which selects the enabled one. Safe. -/
  | notEnabled
  /-- A MemRead at or above the operation's length (R51, R55). Raised by the P-steps. Safe. -/
  | readOutOfRange
  /-- A MemWrite at or above the precomputed output length (R51, R55). Raised by the P-steps and ENC.FLUSH. Safe. -/
  | writeOutOfRange
  /-- A MemWrite beyond the output buffer the host provided (R240, U5: stuck). Raised by the P-steps and ENC.FLUSH. Safe. -/
  | bufferTooSmall
  /-- A read of an element nothing has written (R240, U5). Raised by the P-steps and by a host read. Safe. -/
  | unwritten
  /-- A host read of a status port while the unit's `done` is 0 (R35, R241, U4: "a read is a `fault`"). Raised by a host read.
  Safe. -/
  | portNotValid
deriving DecidableEq, Repr

/-- Why the model gives a request no step. -/
inductive Refusal where
  /-- An instruction with no meaning yet. Raised by a refused arm of `exec`; none is left. Safe. -/
  | notModelled (mnemonic : String)
  /-- A command that selects a busy unit (R238, U1: refuse). Raised by the CMD rows' meanings and START. Safe. -/
  | unitBusy
  /-- A host access R239 forbids to a buffer lent to a busy unit (U2: refuse). Raised by host reads and writes, and by
  providing a buffer. Safe. -/
  | bufferBusy
deriving DecidableEq, Repr

/-- The three outcomes of a step of this machine. -/
abbrev Out := Host.Outcome State Fault Refusal

/-- ENC after reset: `IDLE` (R39); every other register is unspecified there, and 0 here (notes/assumptions/2.md). -/
def EncRegs.reset : EncRegs :=
  { st := .idle, len := 0, olen := 0, idx := 0, oidx := 0, ph := .p0, carry := 0, status := .ok }

/-- DEC after reset: `IDLE` (R39); every other register is unspecified there, and 0 here (notes/assumptions/2.md). -/
def DecRegs.reset : DecRegs :=
  { st := .idle, len := 0, tgt := 0, olen := 0, idx := 0, oidx := 0, ph := .p0, carry := 0, status := .ok,
    errChar := 0, errPos := 0 }

/-- The machine right after reset (R39): both units idle, nothing written to any buffer, nothing asked for. -/
def State.reset : State :=
  { enc := EncRegs.reset, dec := DecRegs.reset, inE := [], outE := [], inD := [], outD := [],
    eCap := none, dCap := none, eOpen := none, dOpen := none, resp := .none, pending := [], draw := 0 }

end Sys2Proof.Machine
end

