-- ==== Sys2Proof/Machine/Ops.lean ====
section
/-! DEFINITION. The named operations: one element of a buffer, one update per field of the state, MemRead and MemWrite
with the ranges of R51, raising an error (R205), and the reset input (R230). -/

namespace Sys2Proof.Machine

/-- The element at an index (R58). -/
def Memory.read : Memory → Nat → Option Byte
  | [], _ => Memory.unlisted
  | (a, b) :: m, i => if i = a then some b else Memory.read m i

/-- The buffer with one element stored (R58), kept in the canonical form. -/
def Memory.write : Memory → Nat → Byte → Memory
  | [], i, b => [(i, b)]
  | (a, c) :: m, i, b =>
    if i < a then (i, b) :: (a, c) :: m
    else if i = a then (i, b) :: m
    else (a, c) :: Memory.write m i b

/-- The canonical form: indices strictly rising. An unlisted index has no value, so no entry is redundant. -/
def Memory.wf : Memory → Bool
  | [] => true
  | [_] => true
  | (a, _) :: (b, c) :: m => decide (a < b) && Memory.wf ((b, c) :: m)

def State.withEnc (s : State) (r : EncRegs) : State := { s with enc := r }
def State.withDec (s : State) (r : DecRegs) : State := { s with dec := r }
def State.withInE (s : State) (m : Memory) : State := { s with inE := m }
def State.withOutE (s : State) (m : Memory) : State := { s with outE := m }
def State.withInD (s : State) (m : Memory) : State := { s with inD := m }
def State.withOutD (s : State) (m : Memory) : State := { s with outD := m }
def State.withECap (s : State) (n : Option Nat) : State := { s with eCap := n }
def State.withDCap (s : State) (n : Option Nat) : State := { s with dCap := n }
def State.withEOpen (s : State) (o : Option Unspecified) : State := { s with eOpen := o }
def State.withDOpen (s : State) (o : Option Unspecified) : State := { s with dOpen := o }
def State.withResp (s : State) (r : Response) : State := { s with resp := r }
def State.withPending (s : State) (es : List HostEvent) : State := { s with pending := es }
def State.withDraw (s : State) (n : Nat) : State := { s with draw := n }

/-- An index added to a strictly rising list. -/
def insertIndex : List Nat → Nat → List Nat
  | [], i => [i]
  | a :: l, i => if i < a then i :: a :: l else if i = a then a :: l else a :: insertIndex l i

/-- Every element of an output buffer becomes unspecified, at this state's draw (R59, R231). -/
def unspecifiedFrom (s : State) : Option Unspecified := some { draw := s.draw, stored := [] }

/-- An element that has been stored is specified again. -/
def settle (o : Option Unspecified) (k : Nat) : Option Unspecified :=
  match o with
  | none => none
  | some m => some { m with stored := insertIndex m.stored k }

/-- The draw an element is unspecified since; none where it is what `MemWrite` or the host stored. -/
def openAt (o : Option Unspecified) (k : Nat) : Option Nat :=
  match o with
  | none => none
  | some m => if k ∈ m.stored then none else some m.draw

/-- The stored indices are strictly rising. -/
def openWf (o : Option Unspecified) : Bool :=
  match o with
  | none => true
  | some m => decide (m.stored.Pairwise (· < ·))

/-- Element `k` of `OUT_E` equals `b` from here on (R58), whatever it was. -/
def State.storeOutE (s : State) (k : Nat) (b : Byte) : State :=
  (s.withOutE (Memory.write s.outE k b)).withEOpen (settle s.eOpen k)

/-- Element `k` of `OUT_D` equals `b` from here on (R58), whatever it was. -/
def State.storeOutD (s : State) (k : Nat) (b : Byte) : State :=
  (s.withOutD (Memory.write s.outD k b)).withDOpen (settle s.dOpen k)

/-- One step after another: the second runs only from a next state. -/
def andThen (o : Out) (f : State → Out) : Out :=
  match o with
  | .next s => f s
  | .fault r => .fault r
  | .refused r => .refused r

/-- An access of an element that must have been written (R240, U5). -/
def readElement (m : Memory) (i : Nat) : Except Fault Byte :=
  match Memory.read m i with
  | some b => .ok b
  | none => .error .unwritten

/-- `MemRead(IN_E, i)`: the valid indices are `0 .. E_LEN-1` (R51, R55). -/
def memReadInE (s : State) (i : Nat) : Except Fault Byte :=
  if i < s.enc.len then readElement s.inE i else .error .readOutOfRange

/-- `MemRead(IN_D, j)`: the valid indices are `0 .. D_LEN-1` (R51, R55). -/
def memReadInD (s : State) (j : Nat) : Except Fault Byte :=
  if j < s.dec.len then readElement s.inD j else .error .readOutOfRange

/-- The output buffer the host provided has an element at this index (R53). -/
def fits (cap : Option Nat) (k : Nat) : Bool :=
  match cap with
  | none => true
  | some n => decide (k < n)

/-- `MemWrite(OUT_E, k, c)` for each character in turn, at rising indices: the valid indices are `0 .. E_OLEN-1`
(R51, R55), and the buffer must have been provided (R53, U5). -/
def memWriteOutE (s : State) (k : Nat) : List Byte → Except Fault State
  | [] => .ok s
  | c :: cs =>
    if k < s.enc.olen then
      if fits s.eCap k then memWriteOutE (s.storeOutE k c) (k + 1) cs
      else .error .bufferTooSmall
    else .error .writeOutOfRange

/-- `MemWrite(OUT_D, k, b)`: the valid indices are `0 .. D_TGT-1` (R51, R55), and the buffer must have been provided
(R53, U5). -/
def memWriteOutD (s : State) (k : Nat) (b : Byte) : Except Fault State :=
  if k < s.dec.tgt then
    if fits s.dCap k then .ok (s.storeOutD k b) else .error .bufferTooSmall
  else .error .writeOutOfRange

/-- The STATUS an error is reported with (R200). -/
def RaisedError.status : RaisedError → Status
  | .absent => .errAbsent
  | .length _ => .errLength
  | .char _ _ => .errChar

/-- The report registers take the error's value (R200, R205): the length in `D_LEN`, the character in `D_ERRCHAR`, its
index in `D_ERRPOS`; an absent input leaves `D_LEN` unspecified (R172, U6), a free value of draw `n`. -/
def RaisedError.report (e : RaisedError) (n : Nat) (r : DecRegs) : DecRegs :=
  match e with
  | .absent => { r with len := Config.freeLen 10 n }
  | .length l => { r with len := l }
  | .char c pos => { r with errChar := c, errPos := pos }

/-- `raise ERR_x(info)` in unit `u` (R205): the status, the report registers, `OLEN` = 0, `DONE`, no MemWrite; the whole
output buffer is unspecified from here on (R59; notes/assumptions/13.md). ENC has no report register. -/
def raise (u : UnitId) (e : RaisedError) (s : State) : State :=
  match u with
  | .enc => (s.withEnc { s.enc with status := e.status, olen := 0, st := .done }).withEOpen (unspecifiedFrom s)
  | .dec => (s.withDec { e.report s.draw s.dec with status := e.status, olen := 0, st := .done }).withDOpen (unspecifiedFrom s)

/-- ENC after `rst`: `IDLE`, every other register unspecified (R230). -/
def encAfterRst (n : Nat) : EncRegs :=
  { st := .idle, len := Config.freeLen 0 n, olen := Config.freeLen 1 n, idx := Config.freeLen 2 n,
    oidx := Config.freeLen 3 n, ph := Config.freePhase 0 n, carry := Config.freeCarry 0 n,
    status := Config.freeStatus 0 n }

/-- DEC after `rst`: `IDLE`, every other register unspecified (R230). -/
def decAfterRst (n : Nat) : DecRegs :=
  { st := .idle, len := Config.freeLen 4 n, tgt := Config.freeLen 5 n, olen := Config.freeLen 6 n,
    idx := Config.freeLen 7 n, oidx := Config.freeLen 8 n, ph := Config.freePhase 1 n, carry := Config.freeCarry 1 n,
    status := Config.freeStatus 1 n, errChar := Config.freeChar 0 n, errPos := Config.freeLen 9 n }

/-- The reset input (R230): both units idle, the buffers untouched; only the output buffer of a unit that was running
becomes unspecified (R231). -/
def rstInput (s : State) : State :=
  { s with
    enc := encAfterRst s.draw
    dec := decAfterRst s.draw
    eOpen := if s.enc.st = .run then unspecifiedFrom s else s.eOpen
    dOpen := if s.dec.st = .run then unspecifiedFrom s else s.dOpen }

end Sys2Proof.Machine
end

