-- ==== Sys2Proof/Machine/Flags.lean ====
section
/-! DEFINITION. The flags `busy` and `done` (R29) and the status ports (R31), with their validity (R35). -/

namespace Sys2Proof.Machine

/-- `e_busy` (R29). -/
def eBusy (s : State) : Bool := decide (s.enc.st = .run)

/-- `e_done` (R29). -/
def eDone (s : State) : Bool := decide (s.enc.st = .done)

/-- `d_busy` (R29). -/
def dBusy (s : State) : Bool := decide (s.dec.st = .run)

/-- `d_done` (R29). -/
def dDone (s : State) : Bool := decide (s.dec.st = .done)

/-- The control state of a unit. -/
def ctl (u : UnitId) (s : State) : Ctl :=
  match u with
  | .enc => s.enc.st
  | .dec => s.dec.st

/-- A unit is busy (R29). -/
def busy (u : UnitId) (s : State) : Bool := decide (ctl u s = .run)

/-- The unit whose buffer a space is (R50). -/
def Space.owner : Space → UnitId
  | .inE => .enc
  | .outE => .enc
  | .inD => .dec
  | .outD => .dec

/-- The spaces the units write (R50). -/
def Space.isOutput : Space → Bool
  | .inE => false
  | .outE => true
  | .inD => false
  | .outD => true

/-- A port that carries a value only while the unit's `done` is 1 (R35); a read before it "is a `fault`" (U4). -/
def whileDone (u : UnitId) (s : State) (r : Response) : Except Fault Response :=
  if ctl u s = .done then .ok r else .error .portNotValid

/-- What a status port carries (R31): its register; `d_len` after `ERR_ABSENT` is the free value `raise` left (U6). `busy` and
`done` are functions of the control state and always valid (R29, R39; notes/assumptions/16.md). -/
def portValue (p : StatusPort) (s : State) : Except Fault Response :=
  match p with
  | .eBusy => .ok (.flag (eBusy s))
  | .eDone => .ok (.flag (eDone s))
  | .eStatus => whileDone .enc s (.status s.enc.status.code)
  | .eOutlen => whileDone .enc s (.length s.enc.olen)
  | .dBusy => .ok (.flag (dBusy s))
  | .dDone => .ok (.flag (dDone s))
  | .dStatus => whileDone .dec s (.status s.dec.status.code)
  | .dOutlen => whileDone .dec s (.length s.dec.olen)
  | .dLen => whileDone .dec s (.length s.dec.len)
  | .dErrchar => whileDone .dec s (.code s.dec.errChar)
  | .dErrpos => whileDone .dec s (.length s.dec.errPos)

end Sys2Proof.Machine
end

