-- ==== Sys2Proof/Machine/Decoder.lean ====
section
/-! DEFINITION. The decoder unit (spec/43_decoder.md): DEC.START, the P-steps with the character check, DEC.FINISH. -/

namespace Sys2Proof.Machine

/-- DEC.START (R172) on a command, the checks in the order of R207; a busy unit refuses it (R238, U1). -/
def decStart (absent : Bool) (len : Nat) (s : State) : Out :=
  if s.dec.st = .run then .refused .unitBusy
  else
    let s0 := s.withDec { s.dec with errChar := 0, errPos := 0 }
    if absent then .next (raise .dec .absent s0)
    else if lenChk len then
      .next (s0.withDec { st := .run, len := len, tgt := lenDec len, olen := 0, idx := 0, oidx := 0, ph := .p0,
                          carry := 0, status := .ok, errChar := 0, errPos := 0 })
    else .next (raise .dec (.length len) s0)

/-- `check(c, i)` (R179): the value of the character, or the end of the operation with `ERR_CHAR`. -/
def check (s : State) (c : Byte) (i : Nat) : Except Out Symbol :=
  match romInv c with
  | some v => .ok v
  | none => .error (.next (raise .dec (.char c i) s))

/-- `check(MemRead(IN_D, i), i)` (R173 to R177). -/
def readChecked (s : State) (i : Nat) : Except Out Symbol :=
  match memReadInD s i with
  | .error f => .error (.fault f)
  | .ok c => check s c i

/-- The one or two values a P-step consumes, in ascending index order (R179); a phase that consumes one has 0 for the
second, which it does not use. -/
def decSymbols (p : Phase) (s : State) : Except Out (Symbol × Symbol) :=
  match readChecked s s.dec.idx with
  | .error o => .error o
  | .ok v =>
    if decTake p = 2 then
      match readChecked s (s.dec.idx + 1) with
      | .error o => .error o
      | .ok w => .ok (v, w)
    else .ok (v, 0)

/-- The enable condition of DEC.P`p` (R171). -/
abbrev decEnabledAt (p : Phase) (s : State) : Prop :=
  s.dec.st = .run ∧ s.dec.oidx < s.dec.tgt ∧ s.dec.ph = p

/-- DEC.P`p` (R173 to R177): the phase's characters in, one byte out, the carry, the indices and the phase advanced; or
`ERR_CHAR` at the first character that is none of the alphabet's. -/
def decPhaseStep (p : Phase) (s : State) : Out :=
  if decEnabledAt p s then
    match decSymbols p s with
    | .error o => o
    | .ok (v, w) =>
      match memWriteOutD s s.dec.oidx (decByte p s.dec.carry v w) with
      | .error f => .fault f
      | .ok t => .next (t.withDec
          { s.dec with
            carry := decCarry p v w
            idx := s.dec.idx + decTake p
            oidx := s.dec.oidx + 1
            ph := p.next })
  else .fault .notEnabled

/-- DEC.FINISH (R178). -/
def decFinish (s : State) : Out :=
  if s.dec.st = .run ∧ s.dec.oidx = s.dec.tgt then
    .next (s.withDec { s.dec with olen := s.dec.tgt, st := .done })
  else .fault .notEnabled

/-- The micro-step of DEC that is enabled in `RUN` (R171); with no enabled one the unit holds its state. -/
def decMicro (s : State) : Out :=
  if s.dec.st = .run then
    if s.dec.oidx < s.dec.tgt then decPhaseStep s.dec.ph s
    else if s.dec.oidx = s.dec.tgt then decFinish s
    else .next s
  else .next s

/-- `n` micro-steps of DEC, in the order its control state selects them. -/
def decRun : Nat → State → Out
  | 0, s => .next s
  | n + 1, s => andThen (decMicro s) (decRun n)

/-- Meaning of DEC.START. -/
def execDecStart (absent : Bool) (len : Nat) (s : State) : Out := decStart absent len s

/-- Meaning of DEC.P0. -/
def execDecP0 (s : State) : Out := decPhaseStep .p0 s

/-- Meaning of DEC.P1. -/
def execDecP1 (s : State) : Out := decPhaseStep .p1 s

/-- Meaning of DEC.P2. -/
def execDecP2 (s : State) : Out := decPhaseStep .p2 s

/-- Meaning of DEC.P3. -/
def execDecP3 (s : State) : Out := decPhaseStep .p3 s

/-- Meaning of DEC.P4. -/
def execDecP4 (s : State) : Out := decPhaseStep .p4 s

/-- Meaning of DEC.FINISH. -/
def execDecFinish (s : State) : Out := decFinish s

end Sys2Proof.Machine
end

