-- ==== Sys2Proof/Machine/Encoder.lean ====
section
/-! DEFINITION. The encoder unit (spec/42_encoder.md): ENC.START, the P-steps, ENC.FLUSH, ENC.FINISH. -/

namespace Sys2Proof.Machine

/-- ENC.START (R142) on a command; a busy unit refuses it (R238, U1). -/
def encStart (absent : Bool) (len : Nat) (s : State) : Out :=
  if s.enc.st = .run then .refused .unitBusy
  else if absent then .next (raise .enc .absent s)
  else .next (s.withEnc { st := .run, len := len, olen := lenEnc len, idx := 0, oidx := 0, ph := .p0, carry := 0,
                          status := .ok })

/-- The enable condition of ENC.P`p` (R141). -/
abbrev encEnabledAt (p : Phase) (s : State) : Prop :=
  s.enc.st = .run ∧ s.enc.idx < s.enc.len ∧ s.enc.ph = p

/-- ENC.P`p` (R143 to R147): one byte in, the phase's characters out, the carry, the indices and the phase advanced. -/
def encPhaseStep (p : Phase) (s : State) : Out :=
  if encEnabledAt p s then
    match memReadInE s s.enc.idx with
    | .error f => .fault f
    | .ok b =>
      match memWriteOutE s s.enc.oidx ((encSymbols p s.enc.carry b).map romFwd) with
      | .error f => .fault f
      | .ok t => .next (t.withEnc
          { s.enc with
            carry := encCarry p b
            idx := s.enc.idx + 1
            oidx := s.enc.oidx + (encSymbols p s.enc.carry b).length
            ph := p.next })
  else .fault .notEnabled

/-- ENC.FLUSH (R148). -/
def encFlush (s : State) : Out :=
  if s.enc.st = .run ∧ s.enc.idx = s.enc.len ∧ s.enc.ph ≠ .p0 then
    match memWriteOutE s s.enc.oidx [romFwd (flushSymbol s.enc.ph s.enc.carry)] with
    | .error f => .fault f
    | .ok t => .next (t.withEnc { s.enc with oidx := s.enc.oidx + 1, st := .done })
  else .fault .notEnabled

/-- ENC.FINISH (R149). -/
def encFinish (s : State) : Out :=
  if s.enc.st = .run ∧ s.enc.idx = s.enc.len ∧ s.enc.ph = .p0 then
    .next (s.withEnc { s.enc with st := .done })
  else .fault .notEnabled

/-- The micro-step of ENC that is enabled in `RUN` (R141); with no enabled one the unit holds its state. -/
def encMicro (s : State) : Out :=
  if s.enc.st = .run then
    if s.enc.idx < s.enc.len then encPhaseStep s.enc.ph s
    else if s.enc.idx = s.enc.len then
      if s.enc.ph = .p0 then encFinish s else encFlush s
    else .next s
  else .next s

/-- `n` micro-steps of ENC, in the order its control state selects them. -/
def encRun : Nat → State → Out
  | 0, s => .next s
  | n + 1, s => andThen (encMicro s) (encRun n)

/-- Meaning of ENC.START. -/
def execEncStart (absent : Bool) (len : Nat) (s : State) : Out := encStart absent len s

/-- Meaning of ENC.P0. -/
def execEncP0 (s : State) : Out := encPhaseStep .p0 s

/-- Meaning of ENC.P1. -/
def execEncP1 (s : State) : Out := encPhaseStep .p1 s

/-- Meaning of ENC.P2. -/
def execEncP2 (s : State) : Out := encPhaseStep .p2 s

/-- Meaning of ENC.P3. -/
def execEncP3 (s : State) : Out := encPhaseStep .p3 s

/-- Meaning of ENC.P4. -/
def execEncP4 (s : State) : Out := encPhaseStep .p4 s

/-- Meaning of ENC.FLUSH. -/
def execEncFlush (s : State) : Out := encFlush s

/-- Meaning of ENC.FINISH. -/
def execEncFinish (s : State) : Out := encFinish s

end Sys2Proof.Machine
end

