-- ==== Sys2Proof/Machine/Commands.lean ====
section
/-! DEFINITION. The host commands as whole operations (R81): the command is accepted and the unit's micro-steps run until
`DONE` (R140, R151; R170, R182), which the trace syntax calls one host action (R90). These are the operations' meanings as
wholes; `step` reaches the same result one micro-step at a time (R232; Machine/Agents.lean, `hostWord`, `hostAwait`;
notes/assumptions/7.md). -/

namespace Sys2Proof.Machine

/-- ENCODE of `len` bytes: ENC.START, then `N + 1` micro-steps (R150). -/
def execEncode (len : Nat) (s : State) : Out := andThen (encStart false len s) (encRun (len + 1))

/-- DECODE of `len` characters: DEC.START, then at most `D_TGT + 1` micro-steps (R171, R181); after an error the unit
holds `DONE`. -/
def execDecode (len : Nat) (s : State) : Out := andThen (decStart false len s) (decRun (lenDec len + 1))

/-- ENCODE with `ABSENT` = 1 completes at once with `ERR_ABSENT`, `len` ignored (R81, R142). -/
def execEncodeAbsent (len : Nat) (s : State) : Out := encStart true len s

/-- DECODE with `ABSENT` = 1 completes at once with `ERR_ABSENT`, `len` ignored (R81, R172). -/
def execDecodeAbsent (len : Nat) (s : State) : Out := decStart true len s

end Sys2Proof.Machine
end

