-- ==== Sys2Proof/Machine/Functions.lean ====
section
/-! DEFINITION. The combinational functions (R83) as operations: each answers its result and changes nothing else. That an
alphabet lookup is an operation of its own is the model's choice (notes/assumptions/20.md). -/

namespace Sys2Proof.Machine

/-- A combinational function's result stands on its output. -/
def answer (r : Response) (s : State) : Out := .next (s.withResp r)

/-- ROM.FWD (R101), outside the micro-steps R101 names: DESIGN CHOICE (notes/assumptions/20.md). -/
def execRomFwd (v : Symbol) (s : State) : Out := answer (.code (romFwd v)) s

/-- ROM.INV (R103), outside the micro-steps R103 names: DESIGN CHOICE (notes/assumptions/20.md). -/
def execRomInv (c : Byte) (s : State) : Out := answer (.value (romInv c)) s

/-- LEN.ENC (R121). -/
def execLenEnc (n : Nat) (s : State) : Out := answer (.length (lenEnc n)) s

/-- LEN.DEC (R123). -/
def execLenDec (l : Nat) (s : State) : Out := answer (.length (lenDec l)) s

/-- LEN.CHK (R124). -/
def execLenChk (l : Nat) (s : State) : Out := answer (.flag (lenChk l)) s

end Sys2Proof.Machine
end

