-- ==== Sys2Proof/Machine/Symbols.lean ====
section
/-! DEFINITION. The character codes as operations (R80, R84, R100): a code looked up in the symbol map. -/

namespace Sys2Proof.Machine

/-- A code of the alphabet stands for its symbol value (R80, R100). -/
def symbolIs (v : Symbol) (s : State) : Out := .next (s.withResp (.value (some v)))

/-- DEC is about to consume this code: it stands at `IN_D[D_IDX]` and a P-step is enabled (R171, R179). -/
def decConsumes (c : Byte) (s : State) : Bool :=
  decide (s.dec.st = .run) && decide (s.dec.oidx < s.dec.tgt) && decide (memReadInD s s.dec.idx = .ok c)

/-- Meaning of SYM.INVALID (R84): the lookup answers `invalid`, and where DEC is about to consume the code, DECODE fails
with `ERR_CHAR` at its index (R179, R203). A code of the alphabet raises nothing. -/
def execSymInvalid (c : Byte) (s : State) : Out :=
  let t := s.withResp (.value (romInv c))
  if romInv c = none ∧ decConsumes c s = true then .next (raise .dec (.char c s.dec.idx) t) else .next t

/-- Meaning of SYM.A: symbol value 0 (R100). -/
def execSymA (s : State) : Out := symbolIs 0 s

/-- Meaning of SYM.B: symbol value 1 (R100). -/
def execSymB (s : State) : Out := symbolIs 1 s

/-- Meaning of SYM.C: symbol value 2 (R100). -/
def execSymC (s : State) : Out := symbolIs 2 s

/-- Meaning of SYM.D: symbol value 3 (R100). -/
def execSymD (s : State) : Out := symbolIs 3 s

/-- Meaning of SYM.E: symbol value 4 (R100). -/
def execSymE (s : State) : Out := symbolIs 4 s

/-- Meaning of SYM.F: symbol value 5 (R100). -/
def execSymF (s : State) : Out := symbolIs 5 s

/-- Meaning of SYM.G: symbol value 6 (R100). -/
def execSymG (s : State) : Out := symbolIs 6 s

/-- Meaning of SYM.H: symbol value 7 (R100). -/
def execSymH (s : State) : Out := symbolIs 7 s

/-- Meaning of SYM.I: symbol value 8 (R100). -/
def execSymI (s : State) : Out := symbolIs 8 s

/-- Meaning of SYM.J: symbol value 9 (R100). -/
def execSymJ (s : State) : Out := symbolIs 9 s

/-- Meaning of SYM.K: symbol value 10 (R100). -/
def execSymK (s : State) : Out := symbolIs 10 s

/-- Meaning of SYM.L: symbol value 11 (R100). -/
def execSymL (s : State) : Out := symbolIs 11 s

/-- Meaning of SYM.M: symbol value 12 (R100). -/
def execSymM (s : State) : Out := symbolIs 12 s

/-- Meaning of SYM.N: symbol value 13 (R100). -/
def execSymN (s : State) : Out := symbolIs 13 s

/-- Meaning of SYM.O: symbol value 14 (R100). -/
def execSymO (s : State) : Out := symbolIs 14 s

/-- Meaning of SYM.P: symbol value 15 (R100). -/
def execSymP (s : State) : Out := symbolIs 15 s

/-- Meaning of SYM.Q: symbol value 16 (R100). -/
def execSymQ (s : State) : Out := symbolIs 16 s

/-- Meaning of SYM.R: symbol value 17 (R100). -/
def execSymR (s : State) : Out := symbolIs 17 s

/-- Meaning of SYM.S: symbol value 18 (R100). -/
def execSymS (s : State) : Out := symbolIs 18 s

/-- Meaning of SYM.T: symbol value 19 (R100). -/
def execSymT (s : State) : Out := symbolIs 19 s

/-- Meaning of SYM.U: symbol value 20 (R100). -/
def execSymU (s : State) : Out := symbolIs 20 s

/-- Meaning of SYM.V: symbol value 21 (R100). -/
def execSymV (s : State) : Out := symbolIs 21 s

/-- Meaning of SYM.W: symbol value 22 (R100). -/
def execSymW (s : State) : Out := symbolIs 22 s

/-- Meaning of SYM.X: symbol value 23 (R100). -/
def execSymX (s : State) : Out := symbolIs 23 s

/-- Meaning of SYM.Y: symbol value 24 (R100). -/
def execSymY (s : State) : Out := symbolIs 24 s

/-- Meaning of SYM.Z: symbol value 25 (R100). -/
def execSymZ (s : State) : Out := symbolIs 25 s

/-- Meaning of SYM.2: symbol value 26 (R100). -/
def execSym2 (s : State) : Out := symbolIs 26 s

/-- Meaning of SYM.3: symbol value 27 (R100). -/
def execSym3 (s : State) : Out := symbolIs 27 s

/-- Meaning of SYM.4: symbol value 28 (R100). -/
def execSym4 (s : State) : Out := symbolIs 28 s

/-- Meaning of SYM.5: symbol value 29 (R100). -/
def execSym5 (s : State) : Out := symbolIs 29 s

/-- Meaning of SYM.6: symbol value 30 (R100). -/
def execSym6 (s : State) : Out := symbolIs 30 s

/-- Meaning of SYM.7: symbol value 31 (R100). -/
def execSym7 (s : State) : Out := symbolIs 31 s

end Sys2Proof.Machine
end

