-- ==== Sys2Proof/Machine/Dispatch.lean ====
section
/-! DEFINITION. One arm per operation of the table: each a call of that operation's meaning. -/

namespace Sys2Proof.Machine

def exec (i : Instr) (s : State) : Host.Outcome State Fault Refusal :=
  match i with
  | .encode len => Sys2Proof.Machine.execEncode len s
  | .decode len => Sys2Proof.Machine.execDecode len s
  | .encodeAbsent len => Sys2Proof.Machine.execEncodeAbsent len s
  | .decodeAbsent len => Sys2Proof.Machine.execDecodeAbsent len s
  | .encStart absent len => Sys2Proof.Machine.execEncStart absent len s
  | .encP0 => Sys2Proof.Machine.execEncP0 s
  | .encP1 => Sys2Proof.Machine.execEncP1 s
  | .encP2 => Sys2Proof.Machine.execEncP2 s
  | .encP3 => Sys2Proof.Machine.execEncP3 s
  | .encP4 => Sys2Proof.Machine.execEncP4 s
  | .encFlush => Sys2Proof.Machine.execEncFlush s
  | .encFinish => Sys2Proof.Machine.execEncFinish s
  | .decStart absent len => Sys2Proof.Machine.execDecStart absent len s
  | .decP0 => Sys2Proof.Machine.execDecP0 s
  | .decP1 => Sys2Proof.Machine.execDecP1 s
  | .decP2 => Sys2Proof.Machine.execDecP2 s
  | .decP3 => Sys2Proof.Machine.execDecP3 s
  | .decP4 => Sys2Proof.Machine.execDecP4 s
  | .decFinish => Sys2Proof.Machine.execDecFinish s
  | .romFwd v => Sys2Proof.Machine.execRomFwd v s
  | .romInv c => Sys2Proof.Machine.execRomInv c s
  | .lenEnc n => Sys2Proof.Machine.execLenEnc n s
  | .lenDec l => Sys2Proof.Machine.execLenDec l s
  | .lenChk l => Sys2Proof.Machine.execLenChk l s
  | .symA => Sys2Proof.Machine.execSymA s
  | .symB => Sys2Proof.Machine.execSymB s
  | .symC => Sys2Proof.Machine.execSymC s
  | .symD => Sys2Proof.Machine.execSymD s
  | .symE => Sys2Proof.Machine.execSymE s
  | .symF => Sys2Proof.Machine.execSymF s
  | .symG => Sys2Proof.Machine.execSymG s
  | .symH => Sys2Proof.Machine.execSymH s
  | .symI => Sys2Proof.Machine.execSymI s
  | .symJ => Sys2Proof.Machine.execSymJ s
  | .symK => Sys2Proof.Machine.execSymK s
  | .symL => Sys2Proof.Machine.execSymL s
  | .symM => Sys2Proof.Machine.execSymM s
  | .symN => Sys2Proof.Machine.execSymN s
  | .symO => Sys2Proof.Machine.execSymO s
  | .symP => Sys2Proof.Machine.execSymP s
  | .symQ => Sys2Proof.Machine.execSymQ s
  | .symR => Sys2Proof.Machine.execSymR s
  | .symS => Sys2Proof.Machine.execSymS s
  | .symT => Sys2Proof.Machine.execSymT s
  | .symU => Sys2Proof.Machine.execSymU s
  | .symV => Sys2Proof.Machine.execSymV s
  | .symW => Sys2Proof.Machine.execSymW s
  | .symX => Sys2Proof.Machine.execSymX s
  | .symY => Sys2Proof.Machine.execSymY s
  | .symZ => Sys2Proof.Machine.execSymZ s
  | .sym2 => Sys2Proof.Machine.execSym2 s
  | .sym3 => Sys2Proof.Machine.execSym3 s
  | .sym4 => Sys2Proof.Machine.execSym4 s
  | .sym5 => Sys2Proof.Machine.execSym5 s
  | .sym6 => Sys2Proof.Machine.execSym6 s
  | .sym7 => Sys2Proof.Machine.execSym7 s
  | .symInvalid c => Sys2Proof.Machine.execSymInvalid c s

end Sys2Proof.Machine
end

