-- ==== Sys2Proof/Machine/Agents.lean ====
section
/-! DEFINITION. The three agents (R20): what each unit's control state selects (R141, R171), what the host's requests do
(R30, R31, R53, R58, R230), and which of them moves next (R216, R232). -/

namespace Sys2Proof.Machine

/-- The word ENC's control state selects by (R27, R82, R141): none outside `RUN`. -/
def encKey (r : EncRegs) : Option OpWord :=
  if r.st = .run then
    if r.idx < r.len then some (.encRun true r.ph)
    else if r.idx = r.len then some (.encRun false r.ph)
    else none
  else none

/-- The word DEC's control state selects by (R27, R82, R171): none outside `RUN`. -/
def decKey (r : DecRegs) : Option OpWord :=
  if r.st = .run then
    if r.oidx < r.tgt then some (.decRun true r.ph)
    else if r.oidx = r.tgt then some (.decRun false r.ph)
    else none
  else none

/-- The enabled micro-step of a unit with no command presented: at most one (R141, R171). -/
def selected (u : UnitId) (s : State) : Option Instr :=
  match u with
  | .enc => (encKey s.enc).map decode
  | .dec => (decKey s.dec).map decode

/-- A unit takes its enabled micro-step, or holds its state (R141, R171). -/
def unitStep (u : UnitId) (s : State) : Out :=
  match selected u s with
  | some i => exec i s
  | none => .next s

/-- One step of the schedule: at most one micro-step of ENC and at most one of DEC (R232). -/
def tick (p : Pick) (s : State) : Out :=
  match p with
  | .enc => unitStep .enc s
  | .dec => unitStep .dec s
  | .both => andThen (unitStep .enc s) (unitStep .dec)

/-- A pick that falls on a unit at rest goes to the other one, so that a running unit is never passed over for a unit with
nothing to do (weak fairness, R216). -/
def fairPick (p : Pick) (s : State) : Pick :=
  match p with
  | .enc => if eBusy s then .enc else .dec
  | .dec => if dBusy s then .dec else .enc
  | .both => .both

/-- One element of a space stored. The model does not hold the index against the size of the buffer the host provided
(notes/assumptions/19.md). -/
def storeElement (sp : Space) (i : Nat) (b : Byte) (s : State) : State :=
  match sp with
  | .inE => s.withInE (Memory.write s.inE i b)
  | .outE => s.storeOutE i b
  | .inD => s.withInD (Memory.write s.inD i b)
  | .outD => s.storeOutD i b

/-- The contents of a space. -/
def spaceOf (sp : Space) (s : State) : Memory :=
  match sp with
  | .inE => s.inE
  | .outE => s.outE
  | .inD => s.inD
  | .outD => s.outD

/-- The elements of a space that are unspecified; an input space has none. -/
def openOf (sp : Space) (s : State) : Option Unspecified :=
  match sp with
  | .inE => none
  | .outE => s.eOpen
  | .inD => none
  | .outD => s.dOpen

/-- What an element of a space reads as for the host: what was stored last (R58), or, where it has been unspecified since
(R59, R231, U3), the free value of that event, the same at every read (R56). -/
def elementOf (sp : Space) (i : Nat) (s : State) : Except Fault Byte :=
  match openAt (openOf sp s) i with
  | some d => .ok (Config.freeElement sp.owner d i)
  | none => readElement (spaceOf sp s) i

/-- A host write (R53, R58), refused while the unit is busy (R239, U2: "`refuse`"). At or beyond the size of the output
buffer the host provided, the element is stored as below it: the model's choice (notes/assumptions/19.md). -/
def hostWrite (sp : Space) (i : Nat) (b : Byte) (s : State) : Out :=
  if busy sp.owner s then .refused .bufferBusy else .next (storeElement sp i b s)

/-- A host read (R53, R58); an output space is refused while the unit is busy (R239, U2: "`refuse`"). An input space is read
at any time, also while its unit is busy: DESIGN CHOICE (notes/assumptions/21.md), since R53 and R239 forbid only the write,
while R234 step 5 leaves the host nothing of that unit's buffers. The index is not held against the size of the buffer
(notes/assumptions/19.md). -/
def hostRead (sp : Space) (i : Nat) (s : State) : Out :=
  if sp.isOutput && busy sp.owner s then .refused .bufferBusy
  else
    match elementOf sp i s with
    | .ok b => .next (s.withResp (.element b))
    | .error f => .fault f

/-- The host provides a new output buffer (R53): nothing has been written to it yet. Refused while the unit is busy: the
unit owns its output buffer then (R53; R239, U2; notes/assumptions/12.md). -/
def provideBuffer (u : UnitId) (size : Nat) (s : State) : Out :=
  if busy u s then .refused .bufferBusy
  else
    match u with
    | .enc => .next (((s.withOutE []).withECap (some size)).withEOpen none)
    | .dec => .next (((s.withOutD []).withDCap (some size)).withDOpen none)

/-- A host read of a status port (R31, R35). -/
def hostPort (p : StatusPort) (s : State) : Out :=
  match portValue p s with
  | .ok r => .next (s.withResp r)
  | .error f => .fault f

/-- The unit a command's `OP` selects (R30). -/
def cmdUnit (cmd : Command) : UnitId := if cmdOp cmd then .dec else .enc

/-- The units step with no request of the host, in an order the spec leaves open (R216; notes/assumptions/5.md). -/
def freeTick (s : State) : Out := tick (fairPick (Config.schedule s.draw) s) s

/-- While a unit is busy, the host's wait for it stays its next request (R90, R234 step 5). -/
def keepWaiting (u : UnitId) (s : State) : State :=
  if busy u s then s.withPending (.await u :: s.pending) else s

/-- A word of the host. A whole operation is the host action of R90: START is its one micro-step in this step (R232), and
the wait for `done` is the host's next request, during which the units step. Every other word is one operation. -/
def hostWord (w : HostWord) (s : State) : Out :=
  match w with
  | .call cmd len =>
    andThen (exec (decode (.host (.port cmd len))) s) (fun t => .next (keepWaiting (cmdUnit cmd) t))
  | .port cmd len => exec (decode (.host (.port cmd len))) s
  | .func f => exec (decode (.host (.func f))) s
  | .code c => exec (decode (.host (.code c))) s

/-- The host waits for a unit: the units step, and the wait is over when that unit is not busy. -/
def hostAwait (u : UnitId) (s : State) : Out :=
  if busy u s then andThen (freeTick s) (fun t => .next (keepWaiting u t)) else .next s

/-- What one request of the host does: at most one micro-step of each unit (R232). -/
def hostEvent (e : HostEvent) (s : State) : Out :=
  match e with
  | .rst => .next (rstInput s)
  | .word w => hostWord w s
  | .tick p => tick p s
  | .await u => hostAwait u s
  | .provide u size => provideBuffer u size s
  | .write sp i b => hostWrite sp i b s
  | .read sp i => hostRead sp i s
  | .port p => hostPort p s

/-- The next free values are drawn afresh. -/
def nextDraw (s : State) : State := s.withDraw (s.draw + 1)

/-- The host's next request, if there is one; else the units. -/
def nextMove (s : State) : Out :=
  match s.pending with
  | e :: rest => hostEvent e ((nextDraw s).withPending rest)
  | [] => freeTick (nextDraw s)

/-- A host word put in front of the host's requests. -/
def present (w : HostWord) (s : State) : State := s.withPending (.word w :: s.pending)

end Sys2Proof.Machine
end

