-- ==== Sys2Proof/Machine/Step.lean ====
section
/-! DEFINITION. One step of the block, and a table word placed where the next step takes it. -/

namespace Sys2Proof.Machine

/-- One step: the host's next request, or a micro-step of the units. -/
def step (s : State) : Host.Outcome State Fault Refusal := nextMove s

/-- The state with a table word presented by the host as its next request (notes/assumptions/6.md); a word of a width the
block does not have changes nothing. -/
def State.withFetchWord (s : State) (nbits w : Nat) : State :=
  match tableWord nbits w with
  | .ok hw => present hw s
  | .error _ => s

end Sys2Proof.Machine
end

