-- ==== Sys2Proof/Safety.lean ====
section
/-! DEFINITION. What the claims speak of: the closed forms of ENCODE (R140) and DECODE (R170), the host's part of an
operation (R234), and the invariants of the spec (R23, R26, R33, R34, and the canonical form of the buffers). -/

namespace Sys2Proof.Machine

/-- `n` consecutive bits of a bitstream from bit `start`, the earliest most significant (R54), as a number. -/
def bitsFrom (f : Nat → Bool) (start : Nat) : Nat → Nat
  | 0 => 0
  | n + 1 => 2 * bitsFrom f start n + (f (start + n)).toNat

/-- Bit `m` of the encoder's bitstream of `n` bytes (R54, R140): bit `7 - (m mod 8)` of byte `m div 8`, zero from
`8*n` on. -/
def inBit (m : Memory) (n k : Nat) : Bool :=
  if k < 8 * n then ((Memory.read m (k / 8)).getD 0).getLsbD (7 - k % 8) else false

/-- `val(k)`: the 5 bits from `5*k` of the encoder's bitstream (R140). -/
def encVal (m : Memory) (n k : Nat) : Symbol := BitVec.ofNat 5 (bitsFrom (inBit m n) (5 * k) 5)

/-- `v(j)`: the value of character `j` of a text, where it has one (R170). -/
def charValue (m : Memory) (j : Nat) : Option Symbol := (Memory.read m j).bind romInv

/-- Bit `m` of the decoded bitstream (R54, R170): bit `4 - (m mod 5)` of the value of character `m div 5`. -/
def outBit (m : Memory) (k : Nat) : Bool := ((charValue m (k / 5)).getD 0).getLsbD (4 - k % 5)

/-- Byte `k` of the decoded bitstream (R170). -/
def decVal (m : Memory) (k : Nat) : Byte := BitVec.ofNat 8 (bitsFrom (outBit m) (8 * k) 8)

/-- The host has written the elements below `n` (R234 step 2). -/
def Written (m : Memory) (n : Nat) : Prop := ∀ i, i < n → ∃ b, Memory.read m i = some b

/-- The output buffer has room for `n` elements (R53, R234 step 3). -/
def HasRoom (cap : Option Nat) (n : Nat) : Prop := ∀ c, cap = some c → n ≤ c

/-- Every character below `n` is one of the alphabet's. -/
def AllValid (m : Memory) (n : Nat) : Prop := ∀ j, j < n → ∃ v, charValue m j = some v

/-- `c` at index `j` is the invalid character of least index (R170, R207). -/
def FirstBad (m : Memory) (n j : Nat) (c : Byte) : Prop :=
  j < n ∧ Memory.read m j = some c ∧ romInv c = none ∧ AllValid m j

/-- The two buffers hold the same elements below `n`. -/
def SameBelow (m m' : Memory) (n : Nat) : Prop := ∀ i, i < n → Memory.read m i = Memory.read m' i

/-- The buffer `m'` has the elements of `m` outside `lo .. hi-1`. -/
def SameOutside (m m' : Memory) (lo hi : Nat) : Prop :=
  ∀ k, k < lo ∨ hi ≤ k → Memory.read m' k = Memory.read m k

/-- The elements outside `lo .. hi-1` are unspecified exactly where they were (R59). -/
def SameOpenOutside (o o' : Option Unspecified) (lo hi : Nat) : Prop :=
  ∀ k, k < lo ∨ hi ≤ k → openAt o' k = openAt o k

/-- `OUT_E` has room, below the precomputed length and in the buffer the host provided, for `n` more characters
(R51, R53). -/
def OutRoomE (s : State) (n : Nat) : Prop :=
  s.enc.oidx + n ≤ s.enc.olen ∧ HasRoom s.eCap (s.enc.oidx + n)

/-- Everything but ENC's registers, `OUT_E`'s elements and which of them are unspecified is as before: the frame of a
micro-step of ENC (R20, R216). -/
def OnlyEncoderMoved (s t : State) : Prop :=
  t.dec = s.dec ∧ t.inE = s.inE ∧ t.inD = s.inD ∧ t.outD = s.outD ∧ t.eCap = s.eCap ∧ t.dCap = s.dCap ∧
  t.dOpen = s.dOpen ∧ t.resp = s.resp ∧ t.pending = s.pending ∧ t.draw = s.draw

/-- Everything but DEC's registers, `OUT_D`'s elements and which of them are unspecified is as before: the frame of a
micro-step of DEC. -/
def OnlyDecoderMoved (s t : State) : Prop :=
  t.enc = s.enc ∧ t.inE = s.inE ∧ t.outE = s.outE ∧ t.inD = s.inD ∧ t.eCap = s.eCap ∧ t.dCap = s.dCap ∧
  t.eOpen = s.eOpen ∧ t.resp = s.resp ∧ t.pending = s.pending ∧ t.draw = s.draw

/-- ENC's invariant (R22, R23). -/
def EncInv (s : State) : Prop :=
  (s.enc.st = .run →
    s.enc.ph.toNat = s.enc.idx % 5 ∧ s.enc.oidx = 8 * s.enc.idx / 5 ∧ s.enc.idx ≤ s.enc.len ∧
    s.enc.olen = lenEnc s.enc.len ∧ s.enc.status = .ok ∧
    s.enc.carry.toNat = bitsFrom (inBit s.inE s.enc.idx) (8 * s.enc.idx - 8 * s.enc.idx % 5) (8 * s.enc.idx % 5)) ∧
  (s.enc.st = .done → s.enc.status = .ok → s.enc.oidx = s.enc.olen)

/-- DEC's invariant (R25, R26). -/
def DecInv (s : State) : Prop :=
  s.dec.st = .run →
    s.dec.ph.toNat = s.dec.oidx % 5 ∧ s.dec.idx = lenEnc s.dec.oidx ∧ s.dec.oidx ≤ s.dec.tgt ∧
    s.dec.idx ≤ s.dec.len ∧ lenChk s.dec.len = true ∧ s.dec.tgt = lenDec s.dec.len ∧ AllValid s.inD s.dec.idx ∧
    (s.dec.oidx = s.dec.tgt → s.dec.idx = s.dec.len) ∧ s.dec.status = .ok ∧ s.dec.olen = 0 ∧
    s.dec.errChar = 0 ∧ s.dec.errPos = 0 ∧
    s.dec.carry.toNat = bitsFrom (outBit s.inD) (8 * s.dec.oidx) (5 * s.dec.idx - 8 * s.dec.oidx)

/-- What the status registers hold at `done` (R31, R33, R34). -/
def ReportInv (s : State) : Prop :=
  (s.enc.st = .done →
    (s.enc.status = .ok ∧ s.enc.olen = lenEnc s.enc.len) ∨ (s.enc.status = .errAbsent ∧ s.enc.olen = 0)) ∧
  (s.dec.st = .done →
    (s.dec.status = .ok → s.dec.olen = lenDec s.dec.len) ∧ (s.dec.status ≠ .ok → s.dec.olen = 0) ∧
    (s.dec.status ≠ .errChar → s.dec.errChar = 0 ∧ s.dec.errPos = 0))

/-- Every buffer is in the canonical form, and so is the list of what has been stored since an error. -/
def MemInv (s : State) : Prop :=
  Memory.wf s.inE = true ∧ Memory.wf s.outE = true ∧ Memory.wf s.inD = true ∧ Memory.wf s.outD = true ∧
  openWf s.eOpen = true ∧ openWf s.dOpen = true

/-- The registers of a running or finished operation fit a length port of `w` bits: `LEN_W` bits each, and `LEN_W + 1`
for `E_OLEN` and `E_OIDX` (R8, R21, R24). `d_len` after `ERR_ABSENT` and what a unit holds before its first START carry no
value of the operation. -/
def FitsWidth (w : Nat) (s : State) : Prop :=
  (s.enc.st = .run → s.enc.len < 2 ^ w ∧ s.enc.olen < 2 ^ (w + 1) ∧ s.enc.idx < 2 ^ w ∧ s.enc.oidx < 2 ^ (w + 1)) ∧
  (s.enc.st = .done → s.enc.olen < 2 ^ (w + 1)) ∧
  (s.dec.st = .run → s.dec.len < 2 ^ w ∧ s.dec.tgt < 2 ^ w ∧ s.dec.idx < 2 ^ w ∧ s.dec.oidx < 2 ^ w ∧
    s.dec.errPos < 2 ^ w) ∧
  (s.dec.st = .done → s.dec.olen < 2 ^ w ∧ s.dec.errPos < 2 ^ w ∧ (s.dec.status ≠ .errAbsent → s.dec.len < 2 ^ w))

/-- `n` enabled micro-steps of one unit, in the order its control state selects them. -/
def unitRun (u : UnitId) : Nat → State → Out
  | 0, s => .next s
  | n + 1, s => andThen (unitStep u s) (unitRun u n)

/-- `n` steps of the block. -/
def stepRun : Nat → State → Out
  | 0, s => .next s
  | n + 1, s => andThen (step s) (stepRun n)

/-- How many micro-steps a unit's operation still takes at most (R150, R181). -/
def stepsLeft (s : State) : Nat :=
  (if s.enc.st = .run then s.enc.len - s.enc.idx + 1 else 0) +
  (if s.dec.st = .run then s.dec.tgt - s.dec.oidx + 1 else 0)

/-- The host has done its part for the operations that run (R234): inputs written, room for the outputs. -/
def HostReady (s : State) : Prop :=
  (s.enc.st = .run → Written s.inE s.enc.len ∧ HasRoom s.eCap s.enc.olen) ∧
  (s.dec.st = .run → Written s.inD s.dec.len ∧ HasRoom s.dCap s.dec.tgt)

/-- The length a request of the host presents on the `len` port, where it presents one. -/
def presentedLen : HostEvent → Option Nat
  | .word (.call _ len) => some len
  | .word (.port _ len) => some len
  | .word (.func _) => none
  | .word (.code _) => none
  | .rst => none
  | .tick _ => none
  | .await _ => none
  | .provide _ _ => none
  | .write _ _ _ => none
  | .read _ _ => none
  | .port _ => none

/-- A request that leaves unit `u`'s operation alone: not `rst`, and no command whose `OP` selects `u` (R235). -/
def sparesUnit (u : UnitId) : HostEvent → Bool
  | .rst => false
  | .word (.call cmd _) => decide (cmdOp cmd = true ↔ u = .enc)
  | .word (.port cmd _) => decide (cmdOp cmd = true ↔ u = .enc)
  | .word (.func _) => true
  | .word (.code _) => true
  | .tick _ => true
  | .await _ => true
  | .provide _ _ => true
  | .write _ _ _ => true
  | .read _ _ => true
  | .port _ => true

/-- The 32 SYM rows, by symbol value (R80, R100). -/
def alphabetRows : List Instr :=
  [.symA, .symB, .symC, .symD, .symE, .symF, .symG, .symH] ++
  [.symI, .symJ, .symK, .symL, .symM, .symN, .symO, .symP] ++
  [.symQ, .symR, .symS, .symT, .symU, .symV, .symW, .symX] ++
  [.symY, .symZ, .sym2, .sym3, .sym4, .sym5, .sym6, .sym7]

end Sys2Proof.Machine
end

