-- ==== Sys2Proof/Certificates/Slice0/Obligations.lean ====
section
/-! DEFINITION. The statements for the provers, from the numbered rules of spec/. -/

open Sys2Proof Sys2Proof.Machine

/-- R230, R39: `rst` leaves both units idle, the four flags 0, the buffers untouched (the output buffer of a unit that was
running apart, R231), so that the host reads of them what it read before, and the block accepts a command at once;
State.reset is idle with the same flags. -/
def Obligations.RstIdlesBothUnits : Prop :=
  (State.reset.enc.st = .idle ∧ State.reset.dec.st = .idle) ∧
  ∀ (s : State) (rest : List HostEvent), s.pending = .rst :: rest →
    ∃ t, step s = .next t ∧ t.enc.st = .idle ∧ t.dec.st = .idle ∧
      portValue .eBusy t = .ok (.flag false) ∧ portValue .eDone t = .ok (.flag false) ∧
      portValue .dBusy t = .ok (.flag false) ∧ portValue .dDone t = .ok (.flag false) ∧
      t.inE = s.inE ∧ t.outE = s.outE ∧ t.inD = s.inD ∧ t.outD = s.outD ∧ t.pending = rest ∧
      (∀ i, elementOf .inE i t = elementOf .inE i s ∧ elementOf .inD i t = elementOf .inD i s) ∧
      (s.enc.st ≠ .run → ∀ i, elementOf .outE i t = elementOf .outE i s) ∧
      (s.dec.st ≠ .run → ∀ i, elementOf .outD i t = elementOf .outD i s) ∧
      ∀ cmd len, ∃ u, exec (decodePort cmd len) t = .next u

/-- R231: an operation cut by `rst` reports no status, its unit stays at rest whatever the schedule, and a host read of its
output buffer gives any value. -/
def Obligations.RstCutsTheOperation : Prop :=
  ∀ s : State, ∃ t, hostEvent .rst s = .next t ∧
    portValue .eStatus t = .error .portNotValid ∧ portValue .dStatus t = .error .portNotValid ∧
    (∀ p, tick p t = .next t) ∧
    (s.enc.st = .run → ∀ i, hostRead .outE i t = .next (t.withResp (.element (Config.freeElement .enc s.draw i)))) ∧
    (s.dec.st = .run → ∀ i, hostRead .outD i t = .next (t.withResp (.element (Config.freeElement .dec s.draw i))))

/-- R101, R100: ROM.FWD answers the alphabet's character, in the closed form of R100, and changes nothing else. -/
def Obligations.RomFwdAnswersTheAlphabet : Prop :=
  ∀ (v : Symbol) (s : State),
    exec (.romFwd v) s = .next (s.withResp (.code
      (if v.toNat ≤ 25 then BitVec.ofNat 8 (0x41 + v.toNat) else BitVec.ofNat 8 (0x18 + v.toNat))))

/-- R103: ROM.INV answers the one value whose character this is, or `invalid` where there is none. -/
def Obligations.RomInvAnswersTheInverse : Prop :=
  ∀ (c : Byte) (s : State), ∃ r : Option Symbol,
    exec (.romInv c) s = .next (s.withResp (.value r)) ∧ (∀ v, r = some v ↔ romFwd v = c) ∧
    (r = none ↔ ∀ v, romFwd v ≠ c)

/-- ROM.INV by code range: the spec's own inference, "The whole inverse map for `CHAR_W = 8`, by code range"
(40_alphabet_rom.md section 3). -/
def Obligations.RomInvByCodeRange : Prop :=
  ∀ (c : Byte) (s : State),
    exec (.romInv c) s = .next (s.withResp (.value
      (if 0x32 ≤ c.toNat ∧ c.toNat ≤ 0x37 then some (BitVec.ofNat 5 (26 + (c.toNat - 0x32)))
       else if 0x41 ≤ c.toNat ∧ c.toNat ≤ 0x5A then some (BitVec.ofNat 5 (c.toNat - 0x41))
       else none)))

/-- R121: LEN.ENC answers `ceil(8*N/5)`, exactly. -/
def Obligations.LenEncAnswersTheCeiling : Prop :=
  ∀ (n : Nat) (s : State), ∃ m,
    exec (.lenEnc n) s = .next (s.withResp (.length m)) ∧ 8 * n ≤ 5 * m ∧ ∀ k, 8 * n ≤ 5 * k → m ≤ k

/-- LEN.DEC answers `floor(5*L/8)`, exactly (R123), and never more than `L`; its shifted and tabulated forms, which R123 marks
as the spec's own inference. -/
def Obligations.LenDecAnswersTheFloor : Prop :=
  ∀ (l : Nat) (s : State), ∃ m,
    exec (.lenDec l) s = .next (s.withResp (.length m)) ∧ 8 * m ≤ 5 * l ∧ (∀ k, 8 * k ≤ 5 * l → k ≤ m) ∧ m ≤ l ∧
    m = (5 * l) >>> 3 ∧ m = 5 * (l / 8) + [0, 0, 1, 1, 2, 3, 3, 4].getD (l % 8) 0

/-- R124, R125: LEN.CHK answers `valid` for 0, and for `L` from 1 on exactly where `L - 1` has another byte count. -/
def Obligations.LenChkAnswersMinimality : Prop :=
  ∀ (l : Nat) (s : State), ∃ b,
    exec (.lenChk l) s = .next (s.withResp (.flag b)) ∧ (l = 0 → b = true) ∧
    (1 ≤ l → (b = true ↔ 5 * l / 8 ≠ 5 * (l - 1) / 8))

/-- The laws between the three length functions, the other forms of LEN.ENC with the pad bits, and the residues LEN.CHK
accepts: the spec's own inferences (41_length_arithmetic.md sections 2 and 4, "Equivalent forms of LEN.ENC", "Residue form
of LEN.CHK", "Laws connecting the three functions"). -/
def Obligations.LengthLaws : Prop :=
  (∀ n, lenDec (lenEnc n) = n) ∧ (∀ n, lenChk (lenEnc n) = true) ∧
  (∀ l, lenChk l = true ↔ lenEnc (lenDec l) = l) ∧
  (∀ n, lenEnc n = 8 * (n / 5) + [0, 2, 4, 5, 7].getD (n % 5) 0 ∧
    5 * lenEnc n - 8 * n = [0, 2, 4, 1, 3].getD (n % 5) 0) ∧
  (∀ l, (lenChk l = true ↔ l % 8 ∈ [0, 2, 4, 5, 7]) ∧ (lenChk l = false ↔ l % 8 ∈ [1, 3, 6]))

/-- R142: ENC.START on a unit at rest, both branches. -/
def Obligations.EncStartAcceptsACommand : Prop :=
  ∀ (s : State) (len : Nat), s.enc.st ≠ .run →
    exec (.encStart true len) s =
      .next ((s.withEnc { s.enc with status := .errAbsent, olen := 0, st := .done }).withEOpen (unspecifiedFrom s)) ∧
    exec (.encStart false len) s =
      .next (s.withEnc { st := .run, len := len, olen := lenEnc len, idx := 0, oidx := 0, ph := .p0, carry := 0,
                         status := .ok })

/-- R172: DEC.START on a unit at rest, its three branches in order; an absent input leaves `D_LEN` at some value, whatever
it is. -/
def Obligations.DecStartAcceptsACommand : Prop :=
  ∀ (s : State) (len : Nat), s.dec.st ≠ .run →
    (∃ n, exec (.decStart true len) s =
      .next ((s.withDec { s.dec with len := n, status := .errAbsent, olen := 0, st := .done, errChar := 0,
                                     errPos := 0 }).withDOpen (unspecifiedFrom s))) ∧
    (lenChk len = false → exec (.decStart false len) s =
      .next ((s.withDec { s.dec with len := len, status := .errLength, olen := 0, st := .done, errChar := 0,
                                     errPos := 0 }).withDOpen (unspecifiedFrom s))) ∧
    (lenChk len = true → exec (.decStart false len) s =
      .next (s.withDec { st := .run, len := len, tgt := lenDec len, olen := 0, idx := 0, oidx := 0, ph := .p0, carry := 0,
                         status := .ok, errChar := 0, errPos := 0 }))

/-- R201: both operations with an absent input complete at once with the absent-input error and `OLEN` = 0, whatever
`len`; no buffer is accessed, and DEC's report registers read 0 (R34). `D_LEN` holds some value, whatever it is, the same for
every `len` (R172, U6). -/
def Obligations.AbsentInputCompletesAtOnce : Prop :=
  (∀ (s : State) (len : Nat), s.enc.st ≠ .run → exec (.encodeAbsent len) s =
    .next ((s.withEnc { s.enc with status := .errAbsent, olen := 0, st := .done }).withEOpen (unspecifiedFrom s))) ∧
  (∀ s : State, s.dec.st ≠ .run → ∃ n, ∀ len : Nat, exec (.decodeAbsent len) s =
    .next ((s.withDec { s.dec with len := n, status := .errAbsent, olen := 0, st := .done, errChar := 0,
                                   errPos := 0 }).withDOpen (unspecifiedFrom s)))

/-- R238, U1: a command that selects a busy unit has no step. -/
def Obligations.CommandToABusyUnitIsRefused : Prop :=
  (∀ (s : State) (len : Nat) (a : Bool), s.enc.st = .run →
    exec (.encode len) s = .refused .unitBusy ∧ exec (.encodeAbsent len) s = .refused .unitBusy ∧
    exec (.encStart a len) s = .refused .unitBusy) ∧
  (∀ (s : State) (len : Nat) (a : Bool), s.dec.st = .run →
    exec (.decode len) s = .refused .unitBusy ∧ exec (.decodeAbsent len) s = .refused .unitBusy ∧
    exec (.decStart a len) s = .refused .unitBusy)

/-- R143: ENC.P0. -/
def Obligations.EncP0WritesOneCharacter : Prop :=
  ∀ (s : State) (b : Byte), encEnabledAt .p0 s → Memory.read s.inE s.enc.idx = some b → OutRoomE s 1 →
    exec .encP0 s = .next ((s.storeOutE s.enc.oidx (romFwd (b.extractLsb 7 3))).withEnc
      { s.enc with carry := 0#1 ++ b.extractLsb 2 0, idx := s.enc.idx + 1, oidx := s.enc.oidx + 1, ph := .p1 })

/-- R144: ENC.P1. -/
def Obligations.EncP1WritesTwoCharacters : Prop :=
  ∀ (s : State) (b : Byte), encEnabledAt .p1 s → Memory.read s.inE s.enc.idx = some b → OutRoomE s 2 →
    exec .encP1 s = .next (((s.storeOutE s.enc.oidx (romFwd (s.enc.carry.extractLsb 2 0 ++ b.extractLsb 7 6))).storeOutE
        (s.enc.oidx + 1) (romFwd (b.extractLsb 5 1))).withEnc
      { s.enc with carry := 0#3 ++ b.extractLsb 0 0, idx := s.enc.idx + 1, oidx := s.enc.oidx + 2, ph := .p2 })

/-- R145: ENC.P2. -/
def Obligations.EncP2WritesOneCharacter : Prop :=
  ∀ (s : State) (b : Byte), encEnabledAt .p2 s → Memory.read s.inE s.enc.idx = some b → OutRoomE s 1 →
    exec .encP2 s = .next ((s.storeOutE s.enc.oidx
        (romFwd (s.enc.carry.extractLsb 0 0 ++ b.extractLsb 7 4))).withEnc
      { s.enc with carry := b.extractLsb 3 0, idx := s.enc.idx + 1, oidx := s.enc.oidx + 1, ph := .p3 })

/-- R146: ENC.P3. -/
def Obligations.EncP3WritesTwoCharacters : Prop :=
  ∀ (s : State) (b : Byte), encEnabledAt .p3 s → Memory.read s.inE s.enc.idx = some b → OutRoomE s 2 →
    exec .encP3 s = .next (((s.storeOutE s.enc.oidx (romFwd (s.enc.carry.extractLsb 3 0 ++ b.extractLsb 7 7))).storeOutE
        (s.enc.oidx + 1) (romFwd (b.extractLsb 6 2))).withEnc
      { s.enc with carry := 0#2 ++ b.extractLsb 1 0, idx := s.enc.idx + 1, oidx := s.enc.oidx + 2, ph := .p4 })

/-- R147: ENC.P4. -/
def Obligations.EncP4WritesTwoCharacters : Prop :=
  ∀ (s : State) (b : Byte), encEnabledAt .p4 s → Memory.read s.inE s.enc.idx = some b → OutRoomE s 2 →
    exec .encP4 s = .next (((s.storeOutE s.enc.oidx (romFwd (s.enc.carry.extractLsb 1 0 ++ b.extractLsb 7 5))).storeOutE
        (s.enc.oidx + 1) (romFwd (b.extractLsb 4 0))).withEnc
      { s.enc with carry := 0#4, idx := s.enc.idx + 1, oidx := s.enc.oidx + 2, ph := .p0 })

/-- R148: ENC.FLUSH, phase by phase. -/
def Obligations.EncFlushWritesTheLastCharacter : Prop :=
  ∀ s : State, s.enc.st = .run → s.enc.idx = s.enc.len → s.enc.ph ≠ .p0 → OutRoomE s 1 →
    exec .encFlush s = .next ((s.storeOutE s.enc.oidx (romFwd
        (if s.enc.ph = .p1 then s.enc.carry.extractLsb 2 0 ++ 0#2
         else if s.enc.ph = .p2 then s.enc.carry.extractLsb 0 0 ++ 0#4
         else if s.enc.ph = .p3 then s.enc.carry.extractLsb 3 0 ++ 0#1
         else s.enc.carry.extractLsb 1 0 ++ 0#3))).withEnc
      { s.enc with oidx := s.enc.oidx + 1, st := .done })

/-- R149: ENC.FINISH; in every state of ENC's invariant the carry is empty then and every character has been emitted. -/
def Obligations.EncFinishEndsOnAGroupBoundary : Prop :=
  ∀ s : State, s.enc.st = .run → s.enc.idx = s.enc.len → s.enc.ph = .p0 →
    exec .encFinish s = .next (s.withEnc { s.enc with st := .done }) ∧
    (EncInv s → s.enc.carry = 0 ∧ s.enc.oidx = s.enc.olen)

/-- R173: DEC.P0. -/
def Obligations.DecP0WritesOneByte : Prop :=
  ∀ (s : State) (v w : Symbol), decEnabledAt .p0 s → s.dec.idx + 1 < s.dec.len →
    charValue s.inD s.dec.idx = some v → charValue s.inD (s.dec.idx + 1) = some w → HasRoom s.dCap (s.dec.oidx + 1) →
    exec .decP0 s = .next ((s.storeOutD s.dec.oidx (v.extractLsb 4 0 ++ w.extractLsb 4 2)).withDec
      { s.dec with carry := 0#2 ++ w.extractLsb 1 0, idx := s.dec.idx + 2, oidx := s.dec.oidx + 1, ph := .p1 })

/-- R174: DEC.P1. -/
def Obligations.DecP1WritesOneByte : Prop :=
  ∀ (s : State) (v w : Symbol), decEnabledAt .p1 s → s.dec.idx + 1 < s.dec.len →
    charValue s.inD s.dec.idx = some v → charValue s.inD (s.dec.idx + 1) = some w → HasRoom s.dCap (s.dec.oidx + 1) →
    exec .decP1 s = .next ((s.storeOutD s.dec.oidx
        (s.dec.carry.extractLsb 1 0 ++ v.extractLsb 4 0 ++ w.extractLsb 4 4)).withDec
      { s.dec with carry := w.extractLsb 3 0, idx := s.dec.idx + 2, oidx := s.dec.oidx + 1, ph := .p2 })

/-- R175: DEC.P2. -/
def Obligations.DecP2WritesOneByte : Prop :=
  ∀ (s : State) (v : Symbol), decEnabledAt .p2 s → s.dec.idx < s.dec.len →
    charValue s.inD s.dec.idx = some v → HasRoom s.dCap (s.dec.oidx + 1) →
    exec .decP2 s = .next ((s.storeOutD s.dec.oidx
        (s.dec.carry.extractLsb 3 0 ++ v.extractLsb 4 1)).withDec
      { s.dec with carry := 0#3 ++ v.extractLsb 0 0, idx := s.dec.idx + 1, oidx := s.dec.oidx + 1, ph := .p3 })

/-- R176: DEC.P3. -/
def Obligations.DecP3WritesOneByte : Prop :=
  ∀ (s : State) (v w : Symbol), decEnabledAt .p3 s → s.dec.idx + 1 < s.dec.len →
    charValue s.inD s.dec.idx = some v → charValue s.inD (s.dec.idx + 1) = some w → HasRoom s.dCap (s.dec.oidx + 1) →
    exec .decP3 s = .next ((s.storeOutD s.dec.oidx
        (s.dec.carry.extractLsb 0 0 ++ v.extractLsb 4 0 ++ w.extractLsb 4 3)).withDec
      { s.dec with carry := 0#1 ++ w.extractLsb 2 0, idx := s.dec.idx + 2, oidx := s.dec.oidx + 1, ph := .p4 })

/-- R177: DEC.P4. -/
def Obligations.DecP4WritesOneByte : Prop :=
  ∀ (s : State) (v : Symbol), decEnabledAt .p4 s → s.dec.idx < s.dec.len →
    charValue s.inD s.dec.idx = some v → HasRoom s.dCap (s.dec.oidx + 1) →
    exec .decP4 s = .next ((s.storeOutD s.dec.oidx
        (s.dec.carry.extractLsb 2 0 ++ v.extractLsb 4 0)).withDec
      { s.dec with carry := 0#4, idx := s.dec.idx + 1, oidx := s.dec.oidx + 1, ph := .p0 })

/-- R178: DEC.FINISH; in every state of DEC's invariant every character has been read and validated then. -/
def Obligations.DecFinishSetsTheLength : Prop :=
  ∀ s : State, s.dec.st = .run → s.dec.oidx = s.dec.tgt →
    exec .decFinish s = .next (s.withDec { s.dec with olen := s.dec.tgt, st := .done }) ∧
    (DecInv s → s.dec.idx = s.dec.len ∧ AllValid s.inD s.dec.len)

/-- R179: a P-step of DEC that meets a character outside the alphabet, first or second, ends the operation with
`ERR_CHAR` and changes nothing but the report, `D_OLEN`, `D_ST` (and `OUT_D` is unspecified from here on, R59). -/
def Obligations.BadCharacterEndsTheOperation : Prop :=
  (∀ (p : Phase) (s : State) (c : Byte), decEnabledAt p s → s.dec.idx < s.dec.len →
    Memory.read s.inD s.dec.idx = some c → romInv c = none →
    exec (decodeDec true p) s = .next ((s.withDec { s.dec with
      status := .errChar, errChar := c, errPos := s.dec.idx, olen := 0, st := .done }).withDOpen (unspecifiedFrom s))) ∧
  (∀ (p : Phase) (s : State) (v : Symbol) (c : Byte), decEnabledAt p s → p = .p0 ∨ p = .p1 ∨ p = .p3 →
    s.dec.idx + 1 < s.dec.len → charValue s.inD s.dec.idx = some v →
    Memory.read s.inD (s.dec.idx + 1) = some c → romInv c = none →
    exec (decodeDec true p) s = .next ((s.withDec { s.dec with
      status := .errChar, errChar := c, errPos := s.dec.idx + 1, olen := 0, st := .done }).withDOpen (unspecifiedFrom s)))

/-- R82: a micro-step happens only where it is enabled. -/
def Obligations.MicroStepsOnlyWhereEnabled : Prop :=
  ∀ s : State,
    (∀ p, ¬ encEnabledAt p s → exec (decodeEnc true p) s = .fault .notEnabled) ∧
    (¬ (s.enc.st = .run ∧ s.enc.idx = s.enc.len ∧ s.enc.ph ≠ .p0) → exec .encFlush s = .fault .notEnabled) ∧
    (¬ (s.enc.st = .run ∧ s.enc.idx = s.enc.len ∧ s.enc.ph = .p0) → exec .encFinish s = .fault .notEnabled) ∧
    (∀ p, ¬ decEnabledAt p s → exec (decodeDec true p) s = .fault .notEnabled) ∧
    (¬ (s.dec.st = .run ∧ s.dec.oidx = s.dec.tgt) → exec .decFinish s = .fault .notEnabled)

/-- R141: what ENC's control state selects; outside `RUN` only a command with `OP` = 0 starts it; in `RUN` something is always
selected, and `DONE` is reached within the bytes left and one more micro-step. -/
def Obligations.EncoderSelectsByItsControlState : Prop :=
  ∀ s : State,
    (selected .enc s = some .encP0 ↔ s.enc.st = .run ∧ s.enc.idx < s.enc.len ∧ s.enc.ph = .p0) ∧
    (selected .enc s = some .encP1 ↔ s.enc.st = .run ∧ s.enc.idx < s.enc.len ∧ s.enc.ph = .p1) ∧
    (selected .enc s = some .encP2 ↔ s.enc.st = .run ∧ s.enc.idx < s.enc.len ∧ s.enc.ph = .p2) ∧
    (selected .enc s = some .encP3 ↔ s.enc.st = .run ∧ s.enc.idx < s.enc.len ∧ s.enc.ph = .p3) ∧
    (selected .enc s = some .encP4 ↔ s.enc.st = .run ∧ s.enc.idx < s.enc.len ∧ s.enc.ph = .p4) ∧
    (selected .enc s = some .encFlush ↔ s.enc.st = .run ∧ s.enc.idx = s.enc.len ∧ s.enc.ph ≠ .p0) ∧
    (selected .enc s = some .encFinish ↔ s.enc.st = .run ∧ s.enc.idx = s.enc.len ∧ s.enc.ph = .p0) ∧
    (s.enc.st ≠ .run → unitStep .enc s = .next s) ∧
    (∀ cmd len, cmdOp cmd = false → decode (.host (.port cmd len)) = .encStart (cmdAbsent cmd) len) ∧
    (EncInv s → s.enc.st = .run → (selected .enc s).isSome = true ∧
      (Written s.inE s.enc.len → HasRoom s.eCap s.enc.olen →
        ∃ n t, n ≤ s.enc.len - s.enc.idx + 1 ∧ unitRun .enc n s = .next t ∧ t.enc.st = .done))

/-- R171: what DEC's control state selects; outside `RUN` only a command with `OP` = 1 starts it; in `RUN` something is always
selected, and `DONE` is reached within the bytes left and one more micro-step. -/
def Obligations.DecoderSelectsByItsControlState : Prop :=
  ∀ s : State,
    (selected .dec s = some .decP0 ↔ s.dec.st = .run ∧ s.dec.oidx < s.dec.tgt ∧ s.dec.ph = .p0) ∧
    (selected .dec s = some .decP1 ↔ s.dec.st = .run ∧ s.dec.oidx < s.dec.tgt ∧ s.dec.ph = .p1) ∧
    (selected .dec s = some .decP2 ↔ s.dec.st = .run ∧ s.dec.oidx < s.dec.tgt ∧ s.dec.ph = .p2) ∧
    (selected .dec s = some .decP3 ↔ s.dec.st = .run ∧ s.dec.oidx < s.dec.tgt ∧ s.dec.ph = .p3) ∧
    (selected .dec s = some .decP4 ↔ s.dec.st = .run ∧ s.dec.oidx < s.dec.tgt ∧ s.dec.ph = .p4) ∧
    (selected .dec s = some .decFinish ↔ s.dec.st = .run ∧ s.dec.oidx = s.dec.tgt) ∧
    (s.dec.st ≠ .run → unitStep .dec s = .next s) ∧
    (∀ cmd len, cmdOp cmd = true → decode (.host (.port cmd len)) = .decStart (cmdAbsent cmd) len) ∧
    (DecInv s → s.dec.st = .run → (selected .dec s).isSome = true ∧
      (Written s.inD s.dec.len → HasRoom s.dCap s.dec.tgt →
        ∃ n t, n ≤ s.dec.tgt - s.dec.oidx + 1 ∧ unitRun .dec n s = .next t ∧ t.dec.st = .done))

/-- The frame of ENC's P-steps, ENC.FLUSH and ENC.FINISH: DEC, the inputs and `OUT_D` are untouched, `E_LEN`, `E_OLEN` and
`E_STATUS` keep their values, and `OUT_E` changes at most at the characters the step emits (R150), from `E_OIDX` on. -/
def Obligations.EncoderStepFrame : Prop :=
  ∀ (i : Instr) (n : Nat) (s t : State),
    (i, n) ∈ [(Instr.encP0, 1), (.encP1, 2), (.encP2, 1), (.encP3, 2), (.encP4, 2), (.encFlush, 1), (.encFinish, 0)] →
    exec i s = .next t →
    OnlyEncoderMoved s t ∧ t.enc.len = s.enc.len ∧ t.enc.olen = s.enc.olen ∧ t.enc.status = s.enc.status ∧
    t.enc.oidx = s.enc.oidx + n ∧ SameOutside s.outE t.outE s.enc.oidx (s.enc.oidx + n) ∧
    SameOpenOutside s.eOpen t.eOpen s.enc.oidx (s.enc.oidx + n)

/-- The frame of DEC's P-steps and DEC.FINISH: ENC, the inputs and `OUT_E` are untouched, `D_LEN` and `D_TGT` keep their
values, and `OUT_D` changes at most at the byte at `D_OIDX`, and not at all where the step ends the operation. -/
def Obligations.DecoderStepFrame : Prop :=
  ∀ (i : Instr) (s t : State),
    i ∈ [Instr.decP0, .decP1, .decP2, .decP3, .decP4, .decFinish] →
    exec i s = .next t →
    OnlyDecoderMoved s t ∧ t.dec.len = s.dec.len ∧ t.dec.tgt = s.dec.tgt ∧
    SameOutside s.outD t.outD s.dec.oidx (s.dec.oidx + 1) ∧
    (t.dec.st = .done → t.outD = s.outD ∧ t.dec.idx = s.dec.idx ∧ t.dec.oidx = s.dec.oidx ∧ t.dec.ph = s.dec.ph ∧
      t.dec.carry = s.dec.carry) ∧
    (t.dec.st = .run → t.dec.status = s.dec.status ∧ t.dec.olen = s.dec.olen ∧ t.dec.errChar = s.dec.errChar ∧
      t.dec.errPos = s.dec.errPos ∧ SameOpenOutside s.dOpen t.dOpen s.dec.oidx (s.dec.oidx + 1)) ∧
    (i = .decFinish → t.dec.status = s.dec.status ∧ t.dec.errChar = s.dec.errChar ∧ t.dec.errPos = s.dec.errPos ∧
      t.dOpen = s.dOpen)

/-- R80, R100: each of the 32 SYM rows stands for its symbol value, changes nothing else, and has the code ROM.FWD gives. -/
def Obligations.AlphabetRowsGiveTheirValue : Prop :=
  ∀ (v : Symbol) (i : Instr) (s : State), alphabetRows[v.toNat]? = some i →
    exec i s = .next (s.withResp (.value (some v))) ∧ encode i = .host (.code (romFwd v)) ∧ decodeCode (romFwd v) = i

/-- R84: a code outside the alphabet decodes to SYM.INVALID; at the decoder's read index, with a P-step enabled, it fails
the DECODE with `ERR_CHAR`, exactly as that P-step does but for the lookup's answer; elsewhere it is only looked up. -/
def Obligations.InvalidCodeFailsTheDecode : Prop :=
  ∀ (c : Byte) (s : State), romInv c = none →
    decodeCode c = .symInvalid c ∧
    (∀ p, decEnabledAt p s → s.dec.idx < s.dec.len → Memory.read s.inD s.dec.idx = some c →
      ∃ t, exec (.symInvalid c) s = .next t ∧
        t = (((s.withDec { s.dec with
          status := .errChar, errChar := c, errPos := s.dec.idx, olen := 0, st := .done }).withDOpen (unspecifiedFrom s)).withResp
            (.value none)) ∧
        exec (decodeDec true p) s = .next (t.withResp s.resp)) ∧
    (¬ (s.dec.st = .run ∧ s.dec.oidx < s.dec.tgt ∧ s.dec.idx < s.dec.len ∧ Memory.read s.inD s.dec.idx = some c) →
      exec (.symInvalid c) s = .next (s.withResp (.value none)))

/-- R140, R151: ENCODE leaves the closed form: the status, the length, every character (and none of them is unspecified any
more), everything else unchanged (R59). -/
def Obligations.EncodeMeetsTheClosedForm : Prop :=
  ∀ (s : State) (len : Nat), s.enc.st ≠ .run → Written s.inE len → HasRoom s.eCap (lenEnc len) →
    ∃ t, exec (.encode len) s = .next t ∧ t.enc.st = .done ∧ t.enc.status = .ok ∧
      t.enc.olen = lenEnc len ∧
      (∀ k, k < lenEnc len → Memory.read t.outE k = some (romFwd (encVal s.inE len k)) ∧ openAt t.eOpen k = none) ∧
      (∀ k, lenEnc len ≤ k → Memory.read t.outE k = Memory.read s.outE k ∧ openAt t.eOpen k = openAt s.eOpen k) ∧
      OnlyEncoderMoved s t

/-- R170, R207: DECODE leaves the closed form. The checks in order: absent, length, then the invalid character of least
index; the bytes decoded before it stay in `OUT_D` (R179), which is unspecified for the host after each of the three (R59; the
bytes in the state are the model's choice, notes/assumptions/13.md). On a text of valid length and characters, the bytes. In
each case everything else is unchanged. -/
def Obligations.DecodeMeetsTheClosedForm : Prop :=
  ∀ (s : State) (len : Nat), s.dec.st ≠ .run →
    (∃ t, exec (.decodeAbsent len) s = .next t ∧ t.dec.st = .done ∧ t.dec.status = .errAbsent ∧ t.dec.olen = 0 ∧
      t.outD = s.outD ∧ OnlyDecoderMoved s t) ∧
    (lenChk len = false → ∃ t, exec (.decode len) s = .next t ∧ t.dec.st = .done ∧ t.dec.status = .errLength ∧
      t.dec.len = len ∧ t.dec.olen = 0 ∧ t.dec.errChar = 0 ∧ t.dec.errPos = 0 ∧ t.outD = s.outD ∧
      OnlyDecoderMoved s t) ∧
    (∀ j c, lenChk len = true → FirstBad s.inD len j c → HasRoom s.dCap (lenDec len) →
      ∃ t, exec (.decode len) s = .next t ∧ t.dec.st = .done ∧ t.dec.status = .errChar ∧ t.dec.len = len ∧
        t.dec.olen = 0 ∧ t.dec.errChar = c ∧ t.dec.errPos = j ∧
        (∀ k, k < lenDec j → Memory.read t.outD k = some (decVal s.inD k)) ∧
        (∀ k, lenDec j ≤ k → Memory.read t.outD k = Memory.read s.outD k) ∧ OnlyDecoderMoved s t) ∧
    (lenChk len = true → AllValid s.inD len → HasRoom s.dCap (lenDec len) →
      ∃ t, exec (.decode len) s = .next t ∧ t.dec.st = .done ∧ t.dec.status = .ok ∧ t.dec.len = len ∧
        t.dec.olen = lenDec len ∧ t.dec.errChar = 0 ∧ t.dec.errPos = 0 ∧
        (∀ k, k < lenDec len → Memory.read t.outD k = some (decVal s.inD k) ∧ openAt t.dOpen k = none) ∧
        (∀ k, lenDec len ≤ k → Memory.read t.outD k = Memory.read s.outD k ∧ openAt t.dOpen k = openAt s.dOpen k) ∧
        OnlyDecoderMoved s t)

/-- A whole operation is its START and then the unit's enabled micro-steps, one by one (R151, R182). -/
def Obligations.OperationIsStartThenMicroSteps : Prop :=
  ∀ (s : State) (len : Nat),
    exec (.encode len) s = andThen (exec (.encStart false len) s) (unitRun .enc (len + 1)) ∧
    exec (.decode len) s = andThen (exec (.decStart false len) s) (unitRun .dec (lenDec len + 1))

/-- R245, R150, R181, R208: after START, ENCODE of `N` bytes runs for `N` micro-steps and is done after one more; DECODE of a
text with no invalid character runs for `floor(5L/8)` and is done after one more; with an invalid character first at `j`
it runs for `floor(5j/8)` and has failed after one more. -/
def Obligations.OperationsTakeTheirMicroSteps : Prop :=
  (∀ (s : State) (len : Nat), s.enc.st ≠ .run → Written s.inE len → HasRoom s.eCap (lenEnc len) →
    (∀ n, n ≤ len → ∃ t, andThen (exec (.encStart false len) s) (unitRun .enc n) = .next t ∧ t.enc.st = .run ∧
      t.enc.idx = n ∧ t.enc.oidx = 8 * n / 5) ∧
    ∃ t, andThen (exec (.encStart false len) s) (unitRun .enc (len + 1)) = .next t ∧ t.enc.st = .done ∧
      t.enc.oidx = lenEnc len) ∧
  (∀ (s : State) (len : Nat), s.dec.st ≠ .run → lenChk len = true → AllValid s.inD len →
    HasRoom s.dCap (lenDec len) →
    (∀ n, n ≤ lenDec len → ∃ t, andThen (exec (.decStart false len) s) (unitRun .dec n) = .next t ∧
      t.dec.st = .run ∧ t.dec.oidx = n ∧ t.dec.idx = lenEnc n) ∧
    ∃ t, andThen (exec (.decStart false len) s) (unitRun .dec (lenDec len + 1)) = .next t ∧ t.dec.st = .done) ∧
  (∀ (s : State) (len j : Nat) (c : Byte), s.dec.st ≠ .run → lenChk len = true → FirstBad s.inD len j c →
    HasRoom s.dCap (lenDec len) →
    (∀ n, n ≤ 5 * j / 8 → ∃ t, andThen (exec (.decStart false len) s) (unitRun .dec n) = .next t ∧
      t.dec.st = .run) ∧
    ∃ t, andThen (exec (.decStart false len) s) (unitRun .dec (5 * j / 8 + 1)) = .next t ∧ t.dec.st = .done ∧
      t.dec.status = .errChar)

/-- R183: what ENCODE writes, DECODE turns back into the bytes encoded. -/
def Obligations.DecodeOfEncodeIsTheIdentity : Prop :=
  ∀ (s : State) (len : Nat), s.enc.st ≠ .run → Written s.inE len → HasRoom s.eCap (lenEnc len) →
    ∃ t, exec (.encode len) s = .next t ∧ t.enc.status = .ok ∧
      ∀ d : State, d.dec.st ≠ .run → SameBelow t.outE d.inD t.enc.olen → HasRoom d.dCap len →
        ∃ u, exec (.decode t.enc.olen) d = .next u ∧ u.dec.status = .ok ∧ u.dec.olen = len ∧
          SameBelow s.inE u.outD len

/-- R183, R180, the converse: encoding what DECODE wrote gives the text back exactly where its discarded bits are zero. -/
def Obligations.EncodeOfDecodeNeedsZeroDiscardedBits : Prop :=
  ∀ (s : State) (len : Nat), s.dec.st ≠ .run → lenChk len = true → AllValid s.inD len →
    HasRoom s.dCap (lenDec len) →
    ∃ t, exec (.decode len) s = .next t ∧ t.dec.status = .ok ∧
      ∀ e : State, e.enc.st ≠ .run → SameBelow t.outD e.inE (lenDec len) → HasRoom e.eCap len →
        ∃ u, exec (.encode (lenDec len)) e = .next u ∧ u.enc.status = .ok ∧ u.enc.olen = len ∧
          (SameBelow s.inD u.outE len ↔ ∀ m, 8 * lenDec len ≤ m → m < 5 * len → outBit s.inD m = false)

/-- R180: two texts whose bitstreams differ in the discarded bits only decode to the same bytes, both with `OK`. -/
def Obligations.DiscardedBitsDoNotMatter : Prop :=
  ∀ (s s' : State) (len : Nat), s.dec.st ≠ .run → s'.dec.st ≠ .run → lenChk len = true →
    AllValid s.inD len → AllValid s'.inD len → HasRoom s.dCap (lenDec len) → HasRoom s'.dCap (lenDec len) →
    (∀ m, m < 8 * lenDec len → outBit s.inD m = outBit s'.inD m) →
    ∃ t t', exec (.decode len) s = .next t ∧ exec (.decode len) s' = .next t' ∧
      t.dec.status = .ok ∧ t'.dec.status = .ok ∧ t.dec.olen = t'.dec.olen ∧ SameBelow t.outD t'.outD t.dec.olen

/-- R38, R186: the result of an operation is a function of the command and of the input below `len`, of nothing else in
the state. -/
def Obligations.ResultsDependOnTheInputOnly : Prop :=
  (∀ (s s' t : State) (len : Nat), s'.dec.st ≠ .run → SameBelow s.inD s'.inD len → HasRoom s'.dCap (lenDec len) →
    exec (.decode len) s = .next t →
    ∃ t', exec (.decode len) s' = .next t' ∧ t'.dec.st = t.dec.st ∧ t'.dec.status = t.dec.status ∧
      t'.dec.olen = t.dec.olen ∧ t'.dec.len = t.dec.len ∧ t'.dec.errChar = t.dec.errChar ∧
      t'.dec.errPos = t.dec.errPos ∧ SameBelow t.outD t'.outD t.dec.olen) ∧
  (∀ (s s' t : State) (len : Nat), s'.enc.st ≠ .run → SameBelow s.inE s'.inE len → HasRoom s'.eCap (lenEnc len) →
    exec (.encode len) s = .next t →
    ∃ t', exec (.encode len) s' = .next t' ∧ t'.enc.st = t.enc.st ∧ t'.enc.status = t.enc.status ∧
      t'.enc.olen = t.enc.olen ∧ SameBelow t.outE t'.outE t.enc.olen)

/-- R216, R20: a micro-step of ENC and one of DEC give one state in either order. -/
def Obligations.UnitsCommute : Prop :=
  ∀ s a b : State, unitStep .enc s = .next a → unitStep .dec s = .next b →
    ∃ t, unitStep .dec a = .next t ∧ unitStep .enc b = .next t

/-- R216, R232: with no request pending and the host's part done, both units come to rest within the micro-steps they have
left, whatever the schedule. -/
def Obligations.QuietBlockComesToRest : Prop :=
  ∀ s : State, s.pending = [] → EncInv s → DecInv s → HostReady s →
    ∃ n t, n ≤ stepsLeft s ∧ stepRun n s = .next t ∧ t.enc.st ≠ .run ∧ t.dec.st ≠ .run

/-- R55, R184: no enabled micro-step accesses a buffer out of range, and none that is selected is not enabled. -/
def Obligations.MicroStepsStayInRange : Prop :=
  ∀ (u : UnitId) (s : State), EncInv s → DecInv s →
    unitStep u s ≠ .fault .readOutOfRange ∧ unitStep u s ≠ .fault .writeOutOfRange ∧ unitStep u s ≠ .fault .notEnabled

/-- The invariants hold at reset. -/
def Obligations.InvariantsHoldAtReset : Prop :=
  EncInv State.reset ∧ DecInv State.reset ∧ ReportInv State.reset ∧ MemInv State.reset ∧ ∀ w, FitsWidth w State.reset

/-- R23: every step keeps ENC's invariant. -/
def Obligations.StepKeepsEncoderInvariant : Prop :=
  ∀ s t : State, EncInv s → step s = .next t → EncInv t

/-- R26: every step keeps DEC's invariant. -/
def Obligations.StepKeepsDecoderInvariant : Prop :=
  ∀ s t : State, DecInv s → step s = .next t → DecInv t

/-- R33, R34: every step keeps what the report registers hold at `done`. -/
def Obligations.StepKeepsReports : Prop :=
  ∀ s t : State, EncInv s → DecInv s → ReportInv s → step s = .next t → ReportInv t

/-- Every step keeps the four buffers, and the lists of what has been stored since an error, in the canonical form. -/
def Obligations.StepKeepsMemoryCanonical : Prop :=
  ∀ s t : State, MemInv s → step s = .next t → MemInv t

/-- R126, R8: for every width of the `len` port, every step keeps the registers within their widths: nothing wraps. -/
def Obligations.StepKeepsRegistersInWidth : Prop :=
  ∀ (w : Nat) (s t : State), FitsWidth w s →
    (∀ e rest len, s.pending = e :: rest → presentedLen e = some len → len < 2 ^ w) →
    step s = .next t → FitsWidth w t

/-- A unit in `DONE` keeps its status registers until a command selects it or `rst` (R235), and every other register too, since
"the unit holds its state" (R141, R171; the hidden registers after `DONE`: notes/assumptions/15.md). -/
def Obligations.DoneHoldsUntilTheNextStart : Prop :=
  ∀ s t : State, step s = .next t → (∀ e rest, s.pending = e :: rest →
    (s.enc.st = .done → sparesUnit .enc e = true → t.enc = s.enc) ∧
    (s.dec.st = .done → sparesUnit .dec e = true → t.dec = s.dec)) ∧
    (s.pending = [] → (s.enc.st = .done → t.enc = s.enc) ∧ (s.dec.st = .done → t.dec = s.dec))

/-- A status port carries its register while the unit's `done` is 1 (R31, R35), and a read before it faults (U4); `busy` and
`done` read in every state, which the model infers (notes/assumptions/16.md). After `ERR_ABSENT` the register `D_LEN` holds a
free value (U6; notes/assumptions/4.md). -/
def Obligations.StatusPortsCarryTheirRegisters : Prop :=
  ∀ s : State,
    (s.enc.st = .done → hostPort .eStatus s = .next (s.withResp (.status s.enc.status.code)) ∧
      hostPort .eOutlen s = .next (s.withResp (.length s.enc.olen))) ∧
    (s.dec.st = .done → hostPort .dStatus s = .next (s.withResp (.status s.dec.status.code)) ∧
      hostPort .dOutlen s = .next (s.withResp (.length s.dec.olen)) ∧
      hostPort .dErrchar s = .next (s.withResp (.code s.dec.errChar)) ∧
      hostPort .dErrpos s = .next (s.withResp (.length s.dec.errPos)) ∧
      hostPort .dLen s = .next (s.withResp (.length s.dec.len))) ∧
    (s.enc.st ≠ .done → ∀ p ∈ [StatusPort.eStatus, .eOutlen], hostPort p s = .fault .portNotValid) ∧
    (s.dec.st ≠ .done → ∀ p ∈ [StatusPort.dStatus, .dOutlen, .dLen, .dErrchar, .dErrpos],
      hostPort p s = .fault .portNotValid) ∧
    hostPort .eBusy s = .next (s.withResp (.flag (decide (s.enc.st = .run)))) ∧
    hostPort .eDone s = .next (s.withResp (.flag (decide (s.enc.st = .done)))) ∧
    hostPort .dBusy s = .next (s.withResp (.flag (decide (s.dec.st = .run)))) ∧
    hostPort .dDone s = .next (s.withResp (.flag (decide (s.dec.st = .done))))

/-- R239, U2: while a unit is busy the host may not write its input buffer, nor read or write its output buffer; nor may it
replace the output buffer, which the unit owns then (R53; the request is the model's own, notes/assumptions/12.md). -/
def Obligations.BuffersAreFrozenWhileBusy : Prop :=
  ∀ (s : State) (i n : Nat) (b : Byte),
    (s.enc.st = .run → hostWrite .inE i b s = .refused .bufferBusy ∧ hostWrite .outE i b s = .refused .bufferBusy ∧
      hostRead .outE i s = .refused .bufferBusy ∧ provideBuffer .enc n s = .refused .bufferBusy) ∧
    (s.dec.st = .run → hostWrite .inD i b s = .refused .bufferBusy ∧ hostWrite .outD i b s = .refused .bufferBusy ∧
      hostRead .outD i s = .refused .bufferBusy ∧ provideBuffer .dec n s = .refused .bufferBusy)

/-- R56, R58, R59: what the host stores in a buffer of a unit at rest it reads back, every other element reads as before, and
nothing else changes, whatever the other unit is doing; a host read changes the answer only; after `OK` it reads the
characters and the bytes of the result; after an error any value; and a second read gives the same. The index
is not held against the size of the buffer (notes/assumptions/19.md), and that the host may read an input buffer is the
model's choice (notes/assumptions/21.md). -/
def Obligations.HostReadsWhatStands : Prop :=
  (∀ (s : State) (sp : Space) (i : Nat) (b : Byte), ctl sp.owner s ≠ .run → ∃ t, hostWrite sp i b s = .next t ∧
    hostRead sp i t = .next (t.withResp (.element b)) ∧ (∀ k, k ≠ i → elementOf sp k t = elementOf sp k s) ∧
    (∀ sp', sp' ≠ sp → spaceOf sp' t = spaceOf sp' s ∧ openOf sp' t = openOf sp' s ∧
      ∀ k, elementOf sp' k t = elementOf sp' k s) ∧
    t.enc = s.enc ∧ t.dec = s.dec ∧ t.eCap = s.eCap ∧ t.dCap = s.dCap ∧ t.resp = s.resp ∧ t.pending = s.pending ∧
    t.draw = s.draw) ∧
  (∀ (s t : State) (i len : Nat), exec (.encode len) s = .next t → t.enc.st = .done → i < t.enc.olen →
    hostRead .outE i t = .next (t.withResp (.element (romFwd (encVal s.inE len i))))) ∧
  (∀ (s t : State) (i len : Nat), exec (.decode len) s = .next t → t.dec.st = .done → i < t.dec.olen →
    hostRead .outD i t = .next (t.withResp (.element (decVal s.inD i)))) ∧
  (∀ (s t : State) (i len : Nat), exec (.encodeAbsent len) s = .next t →
    hostRead .outE i t = .next (t.withResp (.element (Config.freeElement .enc s.draw i)))) ∧
  (∀ (s t : State) (i len : Nat), exec (.decodeAbsent len) s = .next t →
    hostRead .outD i t = .next (t.withResp (.element (Config.freeElement .dec s.draw i)))) ∧
  (∀ (s t : State) (i len : Nat), exec (.decode len) s = .next t → t.dec.st = .done → t.dec.status ≠ .ok →
    hostRead .outD i t = .next (t.withResp (.element (Config.freeElement .dec s.draw i)))) ∧
  (∀ (s t : State) (sp : Space) (i : Nat), hostRead sp i s = .next t →
    (∃ r, t = s.withResp r) ∧ hostRead sp i t = .next t)

/-- A step does what the host's next request says, or, with none, lets the units step; a presented word is decoded and run,
a whole operation beginning with its START and the host's wait (R90). In each case at most one micro-step of ENC and at
most one of DEC happen (R232). The schedule and the counter of draws are the model's own (notes/assumptions/5.md, 6.md, 7.md). -/
def Obligations.StepRunsTheDecodedOperation : Prop :=
  ∀ s : State,
    (∀ cmd len rest, s.pending = .word (.port cmd len) :: rest →
      step s = exec (decode (.host (.port cmd len))) ((nextDraw s).withPending rest)) ∧
    (∀ f rest, s.pending = .word (.func f) :: rest →
      step s = exec (decode (.host (.func f))) ((nextDraw s).withPending rest)) ∧
    (∀ c rest, s.pending = .word (.code c) :: rest →
      step s = exec (decode (.host (.code c))) ((nextDraw s).withPending rest)) ∧
    (∀ cmd len rest, s.pending = .word (.call cmd len) :: rest →
      step s = andThen (exec (decode (.host (.port cmd len))) ((nextDraw s).withPending rest))
        (fun t => .next (if busy (cmdUnit cmd) t = true then t.withPending (.await (cmdUnit cmd) :: rest) else t))) ∧
    (∀ rest, s.pending = .tick .enc :: rest → step s = unitStep .enc ((nextDraw s).withPending rest)) ∧
    (∀ rest, s.pending = .tick .dec :: rest → step s = unitStep .dec ((nextDraw s).withPending rest)) ∧
    (∀ rest, s.pending = .tick .both :: rest →
      step s = andThen (unitStep .enc ((nextDraw s).withPending rest)) (unitStep .dec)) ∧
    (∀ rest, s.pending = .rst :: rest → step s = .next (rstInput ((nextDraw s).withPending rest))) ∧
    (∀ u size rest, s.pending = .provide u size :: rest →
      step s = provideBuffer u size ((nextDraw s).withPending rest)) ∧
    (∀ sp i b rest, s.pending = .write sp i b :: rest → step s = hostWrite sp i b ((nextDraw s).withPending rest)) ∧
    (∀ sp i rest, s.pending = .read sp i :: rest → step s = hostRead sp i ((nextDraw s).withPending rest)) ∧
    (∀ p rest, s.pending = .port p :: rest → step s = hostPort p ((nextDraw s).withPending rest)) ∧
    (∀ u rest, s.pending = .await u :: rest → busy u s = false → step s = .next ((nextDraw s).withPending rest)) ∧
    (∀ u rest, s.pending = .await u :: rest → busy u s = true → ∃ p,
      step s = andThen (tick p ((nextDraw s).withPending rest))
        (fun t => .next (if busy u t = true then t.withPending (.await u :: rest) else t))) ∧
    (s.pending = [] → s.enc.st = .run → s.dec.st ≠ .run → step s = unitStep .enc (nextDraw s)) ∧
    (s.pending = [] → s.enc.st ≠ .run → s.dec.st = .run → step s = unitStep .dec (nextDraw s)) ∧
    (s.pending = [] → s.enc.st = .run → s.dec.st = .run → step s = unitStep .enc (nextDraw s) ∨
      step s = unitStep .dec (nextDraw s) ∨ step s = andThen (unitStep .enc (nextDraw s)) (unitStep .dec)) ∧
    (s.pending = [] → s.enc.st ≠ .run → s.dec.st ≠ .run → step s = .next (nextDraw s)) ∧
    (∀ u i, selected u s = some i → unitStep u s = exec i s) ∧
    (∀ c : Byte, step (s.withFetchWord 8 c.toNat) = exec (decodeCode c) (nextDraw s)) ∧
    (∀ cmd : Command, step (s.withFetchWord 2 cmd.toNat) = andThen (exec (decodePort cmd 0) (nextDraw s))
      (fun t => .next (keepWaiting (cmdUnit cmd) t))) ∧
    (∀ cmd : Command, cmdAbsent cmd = true →
      step (s.withFetchWord 2 cmd.toNat) = exec (decodeCall cmd 0) (nextDraw s))

/-- The host action of a whole operation, step by step, does what the operation does as a whole (R90, R151, R182, R232):
where the operation completes, the steps from its presentation on lead to the end of the host's wait, within the micro-steps
there are, with the unit's registers and output buffer those the operation leaves, whatever the other unit does meanwhile. -/
def Obligations.CallRunsTheWholeOperation : Prop :=
  ∀ (s v : State) (cmd : Command) (len : Nat) (rest : List HostEvent), EncInv s → DecInv s → HostReady s →
    s.pending = .word (.call cmd len) :: rest →
    exec (decode (.host (.call cmd len))) ((nextDraw s).withPending rest) = .next v →
    ∃ n t, n ≤ len + 2 + stepsLeft s ∧ stepRun n s = .next t ∧ t.pending = rest ∧ ctl (cmdUnit cmd) t ≠ .run ∧
      (cmdUnit cmd = .enc → t.enc = v.enc ∧ t.outE = v.outE ∧
        (∀ k, openAt t.eOpen k = none ↔ openAt v.eOpen k = none) ∧ (s.dec.st ≠ .run → t.dec = s.dec ∧ t.outD = s.outD)) ∧
      (cmdUnit cmd = .dec → t.dec = v.dec ∧ t.outD = v.outD ∧
        (∀ k, openAt t.dOpen k = none ↔ openAt v.dOpen k = none) ∧ (s.enc.st ≠ .run → t.enc = s.enc ∧ t.outE = s.outE))

/-- The host's output buffer (R53; the request is the model's own, notes/assumptions/12.md): provided to a unit at rest, it has
the size asked for, no written and no unspecified element. A micro-step that is enabled and finds its input element
unwritten (notes/assumptions/3.md), or no room for what it emits, stops (R55, U5). -/
def Obligations.HostProvidesTheBuffers : Prop :=
  (∀ (s : State) (size : Nat), s.enc.st ≠ .run → ∃ t, provideBuffer .enc size s = .next t ∧
    t = ((s.withOutE []).withECap (some size)).withEOpen none ∧ (∀ m, HasRoom t.eCap m ↔ m ≤ size) ∧
    ∀ i, hostRead .outE i t = .fault .unwritten) ∧
  (∀ (s : State) (size : Nat), s.dec.st ≠ .run → ∃ t, provideBuffer .dec size s = .next t ∧
    t = ((s.withOutD []).withDCap (some size)).withDOpen none ∧ (∀ m, HasRoom t.dCap m ↔ m ≤ size) ∧
    ∀ i, hostRead .outD i t = .fault .unwritten) ∧
  (∀ (p : Phase) (s : State), encEnabledAt p s → Memory.read s.inE s.enc.idx = none →
    exec (decodeEnc true p) s = .fault .unwritten) ∧
  (∀ (p : Phase) (s : State) (b : Byte) (n : Nat),
    (p, n) ∈ [(Phase.p0, 1), (.p1, 2), (.p2, 1), (.p3, 2), (.p4, 2)] → encEnabledAt p s →
    Memory.read s.inE s.enc.idx = some b → s.enc.oidx + n ≤ s.enc.olen → ¬ HasRoom s.eCap (s.enc.oidx + n) →
    exec (decodeEnc true p) s = .fault .bufferTooSmall) ∧
  (∀ s : State, s.enc.st = .run → s.enc.idx = s.enc.len → s.enc.ph ≠ .p0 → s.enc.oidx + 1 ≤ s.enc.olen →
    ¬ HasRoom s.eCap (s.enc.oidx + 1) → exec .encFlush s = .fault .bufferTooSmall) ∧
  (∀ (p : Phase) (s : State), decEnabledAt p s → s.dec.idx < s.dec.len → Memory.read s.inD s.dec.idx = none →
    exec (decodeDec true p) s = .fault .unwritten) ∧
  (∀ (p : Phase) (s : State) (v : Symbol), p = .p0 ∨ p = .p1 ∨ p = .p3 → decEnabledAt p s →
    s.dec.idx + 1 < s.dec.len → charValue s.inD s.dec.idx = some v → Memory.read s.inD (s.dec.idx + 1) = none →
    exec (decodeDec true p) s = .fault .unwritten) ∧
  (∀ (p : Phase) (s : State) (n : Nat), (p, n) ∈ [(Phase.p0, 2), (.p1, 2), (.p2, 1), (.p3, 2), (.p4, 1)] →
    decEnabledAt p s → s.dec.idx + n ≤ s.dec.len →
    (∀ j, s.dec.idx ≤ j → j < s.dec.idx + n → ∃ v, charValue s.inD j = some v) →
    ¬ HasRoom s.dCap (s.dec.oidx + 1) → exec (decodeDec true p) s = .fault .bufferTooSmall)

/-- Words written out from the spec's tables (R81, R82, R100, R84) decode to the operations they stand for. -/
def Obligations.WordsOfTheTablesDecode : Prop :=
  decodeTableWord 8 0x41 = some .symA ∧ decodeTableWord 8 0x5A = some .symZ ∧ decodeTableWord 8 0x32 = some .sym2 ∧
  decodeTableWord 8 0x37 = some .sym7 ∧ decodeTableWord 8 0x3D = some (.symInvalid 0x3D) ∧
  decodeTableWord 2 0 = some (.encode 0) ∧ decodeTableWord 2 1 = some (.decode 0) ∧
  decodeTableWord 2 2 = some (.encodeAbsent 0) ∧ decodeTableWord 2 3 = some (.decodeAbsent 0) ∧
  decode (.host (.port 0b10 6)) = .encStart true 6 ∧ decode (.host (.port 0b01 6)) = .decStart false 6 ∧
  decode (.encRun true .p3) = .encP3 ∧ decode (.encRun false .p2) = .encFlush ∧ decode (.encRun false .p0) = .encFinish ∧
  decode (.decRun true .p4) = .decP4 ∧ decode (.decRun false .p1) = .decFinish

/-- R81 to R84, R86: decoding an encoded well-formed operation gives it back, every operand at every value; each word
the host presents has one meaning; and every decoded operation is well-formed. -/
def Obligations.DecodeAndEncodeAgree : Prop :=
  (∀ i : Instr, i.wellFormed = true → decode (encode i) = i) ∧
  (∀ w : HostWord, encode (decode (.host w)) = .host w) ∧ (∀ w : OpWord, (decode w).wellFormed = true)
end

