-- ==== Sys2Proof/Laws/Memory.lean ====
section
/-! SUPPORT. The laws of one buffer: what is read after a write, which elements are unspecified after one, and that a write
keeps the canonical forms. -/

namespace Sys2Proof.Machine

@[simp] theorem Memory.read_nil (i : Nat) : Memory.read [] i = none := rfl

@[simp] theorem Memory.read_write_same (m : Memory) (i : Nat) (b : Byte) :
    Memory.read (Memory.write m i b) i = some b := by
  induction m with
  | nil => simp [Memory.write, Memory.read]
  | cons p m ih =>
    obtain ⟨a, c⟩ := p
    unfold Memory.write
    split
    · simp [Memory.read]
    · split
      · simp [Memory.read]
      · simp_all [Memory.read]

theorem Memory.read_write_ne (m : Memory) {i j : Nat} (b : Byte) (h : j ≠ i) :
    Memory.read (Memory.write m i b) j = Memory.read m j := by
  induction m with
  | nil => simp [Memory.write, Memory.read, Memory.unlisted, h]
  | cons p m ih =>
    obtain ⟨a, c⟩ := p
    unfold Memory.write
    split
    · simp [Memory.read, h]
    · split
      · subst_vars; simp [Memory.read, h]
      · simp only [Memory.read, ih]

/-- One form for both: the written index, and every other one. -/
theorem Memory.read_write (m : Memory) (i j : Nat) (b : Byte) :
    Memory.read (Memory.write m i b) j = if j = i then some b else Memory.read m j := by
  split
  · subst_vars; simp
  · exact Memory.read_write_ne m b ‹_›

/-- The canonical form is pairwise order of the indices. -/
theorem Memory.wf_iff (m : Memory) : Memory.wf m = true ↔ (m.map Prod.fst).Pairwise (· < ·) := by
  induction m with
  | nil => simp [Memory.wf]
  | cons p m ih =>
    cases m with
    | nil => simp [Memory.wf]
    | cons q m =>
      simp only [Memory.wf, Bool.and_eq_true, decide_eq_true_eq, ih, List.map_cons, List.pairwise_cons]
      constructor
      · rintro ⟨h, h1, h2⟩
        refine ⟨?_, h1, h2⟩
        intro x hx
        rcases List.mem_cons.1 hx with rfl | hx
        · exact h
        · exact lt_trans h (h1 x hx)
      · rintro ⟨h, h1, h2⟩
        exact ⟨h _ (by simp), h1, h2⟩

theorem Memory.mem_write_fst {m : Memory} {i : Nat} {b : Byte} {x : Nat}
    (h : x ∈ (Memory.write m i b).map Prod.fst) : x = i ∨ x ∈ m.map Prod.fst := by
  induction m with
  | nil => simpa [Memory.write] using h
  | cons p m ih =>
    obtain ⟨a, c⟩ := p
    unfold Memory.write at h
    split at h
    · simpa using h
    · split at h
      · simp only [List.map_cons, List.mem_cons] at h ⊢; tauto
      · simp only [List.map_cons, List.mem_cons] at h ⊢
        rcases h with h | h
        · exact .inr (.inl h)
        · rcases ih h with h | h
          · exact .inl h
          · exact .inr (.inr h)

theorem Memory.write_wf {m : Memory} (h : Memory.wf m = true) (i : Nat) (b : Byte) :
    Memory.wf (Memory.write m i b) = true := by
  rw [Memory.wf_iff] at h ⊢
  induction m with
  | nil => simp [Memory.write]
  | cons p m ih =>
    obtain ⟨a, c⟩ := p
    simp only [List.map_cons, List.pairwise_cons] at h
    unfold Memory.write
    split
    · rename_i hi
      simp only [List.map_cons, List.pairwise_cons, List.mem_cons]
      refine ⟨?_, h.1, h.2⟩
      rintro x (rfl | hx)
      · exact hi
      · exact lt_trans hi (h.1 x hx)
    · split
      · subst_vars; simpa using h
      · simp only [List.map_cons, List.pairwise_cons]
        refine ⟨fun x hx => ?_, ih h.2⟩
        rcases Memory.mem_write_fst hx with rfl | hx
        · omega
        · exact h.1 x hx

theorem mem_insertIndex {l : List Nat} {i x : Nat} : x ∈ insertIndex l i ↔ x = i ∨ x ∈ l := by
  induction l with
  | nil => simp [insertIndex]
  | cons a l ih =>
    unfold insertIndex
    split
    · simp
    · split
      · subst_vars; simp
      · simp only [List.mem_cons, ih]; tauto

theorem insertIndex_pairwise {l : List Nat} (h : l.Pairwise (· < ·)) (i : Nat) :
    (insertIndex l i).Pairwise (· < ·) := by
  induction l with
  | nil => simp [insertIndex]
  | cons a l ih =>
    have ⟨h1, h2⟩ := List.pairwise_cons.1 h
    unfold insertIndex
    split
    · rename_i hi
      refine List.pairwise_cons.2 ⟨fun x hx => ?_, h⟩
      rcases List.mem_cons.1 hx with rfl | hx
      · exact hi
      · exact lt_trans hi (h1 x hx)
    · split
      · exact h
      · refine List.pairwise_cons.2 ⟨fun x hx => ?_, ih h2⟩
        rcases mem_insertIndex.1 hx with rfl | hx
        · omega
        · exact h1 x hx

@[simp] theorem openAt_none (k : Nat) : openAt none k = none := rfl
@[simp] theorem openAt_unspecifiedFrom (s : State) (k : Nat) : openAt (unspecifiedFrom s) k = some s.draw := rfl

/-- After a store: the stored element is specified, every other one as before. -/
theorem openAt_settle (o : Option Unspecified) (k j : Nat) :
    openAt (settle o k) j = if j = k then none else openAt o j := by
  cases o with
  | none => simp [settle, openAt]
  | some m =>
    simp only [settle, openAt, mem_insertIndex]
    by_cases h : j = k <;> simp [h]

theorem settle_wf {o : Option Unspecified} (h : openWf o = true) (k : Nat) : openWf (settle o k) = true := by
  cases o with
  | none => rfl
  | some m =>
    simp only [openWf, settle, decide_eq_true_eq] at h ⊢
    exact insertIndex_pairwise h k

end Sys2Proof.Machine
end

