-- ==== Sys2Proof/Laws/State.lean ====
section
/-! SUPPORT. One lemma per field per update of State, true by rfl, so that no later proof unfolds a record update. -/

namespace Sys2Proof.Machine

@[simp] theorem State.withEnc_enc (s : State) (x : EncRegs) : (s.withEnc x).enc = x := rfl
@[simp] theorem State.withEnc_dec (s : State) (x : EncRegs) : (s.withEnc x).dec = s.dec := rfl
@[simp] theorem State.withEnc_inE (s : State) (x : EncRegs) : (s.withEnc x).inE = s.inE := rfl
@[simp] theorem State.withEnc_outE (s : State) (x : EncRegs) : (s.withEnc x).outE = s.outE := rfl
@[simp] theorem State.withEnc_inD (s : State) (x : EncRegs) : (s.withEnc x).inD = s.inD := rfl
@[simp] theorem State.withEnc_outD (s : State) (x : EncRegs) : (s.withEnc x).outD = s.outD := rfl
@[simp] theorem State.withEnc_eCap (s : State) (x : EncRegs) : (s.withEnc x).eCap = s.eCap := rfl
@[simp] theorem State.withEnc_dCap (s : State) (x : EncRegs) : (s.withEnc x).dCap = s.dCap := rfl
@[simp] theorem State.withEnc_eOpen (s : State) (x : EncRegs) : (s.withEnc x).eOpen = s.eOpen := rfl
@[simp] theorem State.withEnc_dOpen (s : State) (x : EncRegs) : (s.withEnc x).dOpen = s.dOpen := rfl
@[simp] theorem State.withEnc_resp (s : State) (x : EncRegs) : (s.withEnc x).resp = s.resp := rfl
@[simp] theorem State.withEnc_pending (s : State) (x : EncRegs) : (s.withEnc x).pending = s.pending := rfl
@[simp] theorem State.withEnc_draw (s : State) (x : EncRegs) : (s.withEnc x).draw = s.draw := rfl

@[simp] theorem State.withDec_enc (s : State) (x : DecRegs) : (s.withDec x).enc = s.enc := rfl
@[simp] theorem State.withDec_dec (s : State) (x : DecRegs) : (s.withDec x).dec = x := rfl
@[simp] theorem State.withDec_inE (s : State) (x : DecRegs) : (s.withDec x).inE = s.inE := rfl
@[simp] theorem State.withDec_outE (s : State) (x : DecRegs) : (s.withDec x).outE = s.outE := rfl
@[simp] theorem State.withDec_inD (s : State) (x : DecRegs) : (s.withDec x).inD = s.inD := rfl
@[simp] theorem State.withDec_outD (s : State) (x : DecRegs) : (s.withDec x).outD = s.outD := rfl
@[simp] theorem State.withDec_eCap (s : State) (x : DecRegs) : (s.withDec x).eCap = s.eCap := rfl
@[simp] theorem State.withDec_dCap (s : State) (x : DecRegs) : (s.withDec x).dCap = s.dCap := rfl
@[simp] theorem State.withDec_eOpen (s : State) (x : DecRegs) : (s.withDec x).eOpen = s.eOpen := rfl
@[simp] theorem State.withDec_dOpen (s : State) (x : DecRegs) : (s.withDec x).dOpen = s.dOpen := rfl
@[simp] theorem State.withDec_resp (s : State) (x : DecRegs) : (s.withDec x).resp = s.resp := rfl
@[simp] theorem State.withDec_pending (s : State) (x : DecRegs) : (s.withDec x).pending = s.pending := rfl
@[simp] theorem State.withDec_draw (s : State) (x : DecRegs) : (s.withDec x).draw = s.draw := rfl

@[simp] theorem State.withInE_enc (s : State) (x : Memory) : (s.withInE x).enc = s.enc := rfl
@[simp] theorem State.withInE_dec (s : State) (x : Memory) : (s.withInE x).dec = s.dec := rfl
@[simp] theorem State.withInE_inE (s : State) (x : Memory) : (s.withInE x).inE = x := rfl
@[simp] theorem State.withInE_outE (s : State) (x : Memory) : (s.withInE x).outE = s.outE := rfl
@[simp] theorem State.withInE_inD (s : State) (x : Memory) : (s.withInE x).inD = s.inD := rfl
@[simp] theorem State.withInE_outD (s : State) (x : Memory) : (s.withInE x).outD = s.outD := rfl
@[simp] theorem State.withInE_eCap (s : State) (x : Memory) : (s.withInE x).eCap = s.eCap := rfl
@[simp] theorem State.withInE_dCap (s : State) (x : Memory) : (s.withInE x).dCap = s.dCap := rfl
@[simp] theorem State.withInE_eOpen (s : State) (x : Memory) : (s.withInE x).eOpen = s.eOpen := rfl
@[simp] theorem State.withInE_dOpen (s : State) (x : Memory) : (s.withInE x).dOpen = s.dOpen := rfl
@[simp] theorem State.withInE_resp (s : State) (x : Memory) : (s.withInE x).resp = s.resp := rfl
@[simp] theorem State.withInE_pending (s : State) (x : Memory) : (s.withInE x).pending = s.pending := rfl
@[simp] theorem State.withInE_draw (s : State) (x : Memory) : (s.withInE x).draw = s.draw := rfl

@[simp] theorem State.withOutE_enc (s : State) (x : Memory) : (s.withOutE x).enc = s.enc := rfl
@[simp] theorem State.withOutE_dec (s : State) (x : Memory) : (s.withOutE x).dec = s.dec := rfl
@[simp] theorem State.withOutE_inE (s : State) (x : Memory) : (s.withOutE x).inE = s.inE := rfl
@[simp] theorem State.withOutE_outE (s : State) (x : Memory) : (s.withOutE x).outE = x := rfl
@[simp] theorem State.withOutE_inD (s : State) (x : Memory) : (s.withOutE x).inD = s.inD := rfl
@[simp] theorem State.withOutE_outD (s : State) (x : Memory) : (s.withOutE x).outD = s.outD := rfl
@[simp] theorem State.withOutE_eCap (s : State) (x : Memory) : (s.withOutE x).eCap = s.eCap := rfl
@[simp] theorem State.withOutE_dCap (s : State) (x : Memory) : (s.withOutE x).dCap = s.dCap := rfl
@[simp] theorem State.withOutE_eOpen (s : State) (x : Memory) : (s.withOutE x).eOpen = s.eOpen := rfl
@[simp] theorem State.withOutE_dOpen (s : State) (x : Memory) : (s.withOutE x).dOpen = s.dOpen := rfl
@[simp] theorem State.withOutE_resp (s : State) (x : Memory) : (s.withOutE x).resp = s.resp := rfl
@[simp] theorem State.withOutE_pending (s : State) (x : Memory) : (s.withOutE x).pending = s.pending := rfl
@[simp] theorem State.withOutE_draw (s : State) (x : Memory) : (s.withOutE x).draw = s.draw := rfl

@[simp] theorem State.withInD_enc (s : State) (x : Memory) : (s.withInD x).enc = s.enc := rfl
@[simp] theorem State.withInD_dec (s : State) (x : Memory) : (s.withInD x).dec = s.dec := rfl
@[simp] theorem State.withInD_inE (s : State) (x : Memory) : (s.withInD x).inE = s.inE := rfl
@[simp] theorem State.withInD_outE (s : State) (x : Memory) : (s.withInD x).outE = s.outE := rfl
@[simp] theorem State.withInD_inD (s : State) (x : Memory) : (s.withInD x).inD = x := rfl
@[simp] theorem State.withInD_outD (s : State) (x : Memory) : (s.withInD x).outD = s.outD := rfl
@[simp] theorem State.withInD_eCap (s : State) (x : Memory) : (s.withInD x).eCap = s.eCap := rfl
@[simp] theorem State.withInD_dCap (s : State) (x : Memory) : (s.withInD x).dCap = s.dCap := rfl
@[simp] theorem State.withInD_eOpen (s : State) (x : Memory) : (s.withInD x).eOpen = s.eOpen := rfl
@[simp] theorem State.withInD_dOpen (s : State) (x : Memory) : (s.withInD x).dOpen = s.dOpen := rfl
@[simp] theorem State.withInD_resp (s : State) (x : Memory) : (s.withInD x).resp = s.resp := rfl
@[simp] theorem State.withInD_pending (s : State) (x : Memory) : (s.withInD x).pending = s.pending := rfl
@[simp] theorem State.withInD_draw (s : State) (x : Memory) : (s.withInD x).draw = s.draw := rfl

@[simp] theorem State.withOutD_enc (s : State) (x : Memory) : (s.withOutD x).enc = s.enc := rfl
@[simp] theorem State.withOutD_dec (s : State) (x : Memory) : (s.withOutD x).dec = s.dec := rfl
@[simp] theorem State.withOutD_inE (s : State) (x : Memory) : (s.withOutD x).inE = s.inE := rfl
@[simp] theorem State.withOutD_outE (s : State) (x : Memory) : (s.withOutD x).outE = s.outE := rfl
@[simp] theorem State.withOutD_inD (s : State) (x : Memory) : (s.withOutD x).inD = s.inD := rfl
@[simp] theorem State.withOutD_outD (s : State) (x : Memory) : (s.withOutD x).outD = x := rfl
@[simp] theorem State.withOutD_eCap (s : State) (x : Memory) : (s.withOutD x).eCap = s.eCap := rfl
@[simp] theorem State.withOutD_dCap (s : State) (x : Memory) : (s.withOutD x).dCap = s.dCap := rfl
@[simp] theorem State.withOutD_eOpen (s : State) (x : Memory) : (s.withOutD x).eOpen = s.eOpen := rfl
@[simp] theorem State.withOutD_dOpen (s : State) (x : Memory) : (s.withOutD x).dOpen = s.dOpen := rfl
@[simp] theorem State.withOutD_resp (s : State) (x : Memory) : (s.withOutD x).resp = s.resp := rfl
@[simp] theorem State.withOutD_pending (s : State) (x : Memory) : (s.withOutD x).pending = s.pending := rfl
@[simp] theorem State.withOutD_draw (s : State) (x : Memory) : (s.withOutD x).draw = s.draw := rfl

@[simp] theorem State.withECap_enc (s : State) (x : Option Nat) : (s.withECap x).enc = s.enc := rfl
@[simp] theorem State.withECap_dec (s : State) (x : Option Nat) : (s.withECap x).dec = s.dec := rfl
@[simp] theorem State.withECap_inE (s : State) (x : Option Nat) : (s.withECap x).inE = s.inE := rfl
@[simp] theorem State.withECap_outE (s : State) (x : Option Nat) : (s.withECap x).outE = s.outE := rfl
@[simp] theorem State.withECap_inD (s : State) (x : Option Nat) : (s.withECap x).inD = s.inD := rfl
@[simp] theorem State.withECap_outD (s : State) (x : Option Nat) : (s.withECap x).outD = s.outD := rfl
@[simp] theorem State.withECap_eCap (s : State) (x : Option Nat) : (s.withECap x).eCap = x := rfl
@[simp] theorem State.withECap_dCap (s : State) (x : Option Nat) : (s.withECap x).dCap = s.dCap := rfl
@[simp] theorem State.withECap_eOpen (s : State) (x : Option Nat) : (s.withECap x).eOpen = s.eOpen := rfl
@[simp] theorem State.withECap_dOpen (s : State) (x : Option Nat) : (s.withECap x).dOpen = s.dOpen := rfl
@[simp] theorem State.withECap_resp (s : State) (x : Option Nat) : (s.withECap x).resp = s.resp := rfl
@[simp] theorem State.withECap_pending (s : State) (x : Option Nat) : (s.withECap x).pending = s.pending := rfl
@[simp] theorem State.withECap_draw (s : State) (x : Option Nat) : (s.withECap x).draw = s.draw := rfl

@[simp] theorem State.withDCap_enc (s : State) (x : Option Nat) : (s.withDCap x).enc = s.enc := rfl
@[simp] theorem State.withDCap_dec (s : State) (x : Option Nat) : (s.withDCap x).dec = s.dec := rfl
@[simp] theorem State.withDCap_inE (s : State) (x : Option Nat) : (s.withDCap x).inE = s.inE := rfl
@[simp] theorem State.withDCap_outE (s : State) (x : Option Nat) : (s.withDCap x).outE = s.outE := rfl
@[simp] theorem State.withDCap_inD (s : State) (x : Option Nat) : (s.withDCap x).inD = s.inD := rfl
@[simp] theorem State.withDCap_outD (s : State) (x : Option Nat) : (s.withDCap x).outD = s.outD := rfl
@[simp] theorem State.withDCap_eCap (s : State) (x : Option Nat) : (s.withDCap x).eCap = s.eCap := rfl
@[simp] theorem State.withDCap_dCap (s : State) (x : Option Nat) : (s.withDCap x).dCap = x := rfl
@[simp] theorem State.withDCap_eOpen (s : State) (x : Option Nat) : (s.withDCap x).eOpen = s.eOpen := rfl
@[simp] theorem State.withDCap_dOpen (s : State) (x : Option Nat) : (s.withDCap x).dOpen = s.dOpen := rfl
@[simp] theorem State.withDCap_resp (s : State) (x : Option Nat) : (s.withDCap x).resp = s.resp := rfl
@[simp] theorem State.withDCap_pending (s : State) (x : Option Nat) : (s.withDCap x).pending = s.pending := rfl
@[simp] theorem State.withDCap_draw (s : State) (x : Option Nat) : (s.withDCap x).draw = s.draw := rfl

@[simp] theorem State.withEOpen_enc (s : State) (x : Option Unspecified) : (s.withEOpen x).enc = s.enc := rfl
@[simp] theorem State.withEOpen_dec (s : State) (x : Option Unspecified) : (s.withEOpen x).dec = s.dec := rfl
@[simp] theorem State.withEOpen_inE (s : State) (x : Option Unspecified) : (s.withEOpen x).inE = s.inE := rfl
@[simp] theorem State.withEOpen_outE (s : State) (x : Option Unspecified) : (s.withEOpen x).outE = s.outE := rfl
@[simp] theorem State.withEOpen_inD (s : State) (x : Option Unspecified) : (s.withEOpen x).inD = s.inD := rfl
@[simp] theorem State.withEOpen_outD (s : State) (x : Option Unspecified) : (s.withEOpen x).outD = s.outD := rfl
@[simp] theorem State.withEOpen_eCap (s : State) (x : Option Unspecified) : (s.withEOpen x).eCap = s.eCap := rfl
@[simp] theorem State.withEOpen_dCap (s : State) (x : Option Unspecified) : (s.withEOpen x).dCap = s.dCap := rfl
@[simp] theorem State.withEOpen_eOpen (s : State) (x : Option Unspecified) : (s.withEOpen x).eOpen = x := rfl
@[simp] theorem State.withEOpen_dOpen (s : State) (x : Option Unspecified) : (s.withEOpen x).dOpen = s.dOpen := rfl
@[simp] theorem State.withEOpen_resp (s : State) (x : Option Unspecified) : (s.withEOpen x).resp = s.resp := rfl
@[simp] theorem State.withEOpen_pending (s : State) (x : Option Unspecified) : (s.withEOpen x).pending = s.pending := rfl
@[simp] theorem State.withEOpen_draw (s : State) (x : Option Unspecified) : (s.withEOpen x).draw = s.draw := rfl

@[simp] theorem State.withDOpen_enc (s : State) (x : Option Unspecified) : (s.withDOpen x).enc = s.enc := rfl
@[simp] theorem State.withDOpen_dec (s : State) (x : Option Unspecified) : (s.withDOpen x).dec = s.dec := rfl
@[simp] theorem State.withDOpen_inE (s : State) (x : Option Unspecified) : (s.withDOpen x).inE = s.inE := rfl
@[simp] theorem State.withDOpen_outE (s : State) (x : Option Unspecified) : (s.withDOpen x).outE = s.outE := rfl
@[simp] theorem State.withDOpen_inD (s : State) (x : Option Unspecified) : (s.withDOpen x).inD = s.inD := rfl
@[simp] theorem State.withDOpen_outD (s : State) (x : Option Unspecified) : (s.withDOpen x).outD = s.outD := rfl
@[simp] theorem State.withDOpen_eCap (s : State) (x : Option Unspecified) : (s.withDOpen x).eCap = s.eCap := rfl
@[simp] theorem State.withDOpen_dCap (s : State) (x : Option Unspecified) : (s.withDOpen x).dCap = s.dCap := rfl
@[simp] theorem State.withDOpen_eOpen (s : State) (x : Option Unspecified) : (s.withDOpen x).eOpen = s.eOpen := rfl
@[simp] theorem State.withDOpen_dOpen (s : State) (x : Option Unspecified) : (s.withDOpen x).dOpen = x := rfl
@[simp] theorem State.withDOpen_resp (s : State) (x : Option Unspecified) : (s.withDOpen x).resp = s.resp := rfl
@[simp] theorem State.withDOpen_pending (s : State) (x : Option Unspecified) : (s.withDOpen x).pending = s.pending := rfl
@[simp] theorem State.withDOpen_draw (s : State) (x : Option Unspecified) : (s.withDOpen x).draw = s.draw := rfl

@[simp] theorem State.withResp_enc (s : State) (x : Response) : (s.withResp x).enc = s.enc := rfl
@[simp] theorem State.withResp_dec (s : State) (x : Response) : (s.withResp x).dec = s.dec := rfl
@[simp] theorem State.withResp_inE (s : State) (x : Response) : (s.withResp x).inE = s.inE := rfl
@[simp] theorem State.withResp_outE (s : State) (x : Response) : (s.withResp x).outE = s.outE := rfl
@[simp] theorem State.withResp_inD (s : State) (x : Response) : (s.withResp x).inD = s.inD := rfl
@[simp] theorem State.withResp_outD (s : State) (x : Response) : (s.withResp x).outD = s.outD := rfl
@[simp] theorem State.withResp_eCap (s : State) (x : Response) : (s.withResp x).eCap = s.eCap := rfl
@[simp] theorem State.withResp_dCap (s : State) (x : Response) : (s.withResp x).dCap = s.dCap := rfl
@[simp] theorem State.withResp_eOpen (s : State) (x : Response) : (s.withResp x).eOpen = s.eOpen := rfl
@[simp] theorem State.withResp_dOpen (s : State) (x : Response) : (s.withResp x).dOpen = s.dOpen := rfl
@[simp] theorem State.withResp_resp (s : State) (x : Response) : (s.withResp x).resp = x := rfl
@[simp] theorem State.withResp_pending (s : State) (x : Response) : (s.withResp x).pending = s.pending := rfl
@[simp] theorem State.withResp_draw (s : State) (x : Response) : (s.withResp x).draw = s.draw := rfl

@[simp] theorem State.withPending_enc (s : State) (x : List HostEvent) : (s.withPending x).enc = s.enc := rfl
@[simp] theorem State.withPending_dec (s : State) (x : List HostEvent) : (s.withPending x).dec = s.dec := rfl
@[simp] theorem State.withPending_inE (s : State) (x : List HostEvent) : (s.withPending x).inE = s.inE := rfl
@[simp] theorem State.withPending_outE (s : State) (x : List HostEvent) : (s.withPending x).outE = s.outE := rfl
@[simp] theorem State.withPending_inD (s : State) (x : List HostEvent) : (s.withPending x).inD = s.inD := rfl
@[simp] theorem State.withPending_outD (s : State) (x : List HostEvent) : (s.withPending x).outD = s.outD := rfl
@[simp] theorem State.withPending_eCap (s : State) (x : List HostEvent) : (s.withPending x).eCap = s.eCap := rfl
@[simp] theorem State.withPending_dCap (s : State) (x : List HostEvent) : (s.withPending x).dCap = s.dCap := rfl
@[simp] theorem State.withPending_eOpen (s : State) (x : List HostEvent) : (s.withPending x).eOpen = s.eOpen := rfl
@[simp] theorem State.withPending_dOpen (s : State) (x : List HostEvent) : (s.withPending x).dOpen = s.dOpen := rfl
@[simp] theorem State.withPending_resp (s : State) (x : List HostEvent) : (s.withPending x).resp = s.resp := rfl
@[simp] theorem State.withPending_pending (s : State) (x : List HostEvent) : (s.withPending x).pending = x := rfl
@[simp] theorem State.withPending_draw (s : State) (x : List HostEvent) : (s.withPending x).draw = s.draw := rfl

@[simp] theorem State.withDraw_enc (s : State) (x : Nat) : (s.withDraw x).enc = s.enc := rfl
@[simp] theorem State.withDraw_dec (s : State) (x : Nat) : (s.withDraw x).dec = s.dec := rfl
@[simp] theorem State.withDraw_inE (s : State) (x : Nat) : (s.withDraw x).inE = s.inE := rfl
@[simp] theorem State.withDraw_outE (s : State) (x : Nat) : (s.withDraw x).outE = s.outE := rfl
@[simp] theorem State.withDraw_inD (s : State) (x : Nat) : (s.withDraw x).inD = s.inD := rfl
@[simp] theorem State.withDraw_outD (s : State) (x : Nat) : (s.withDraw x).outD = s.outD := rfl
@[simp] theorem State.withDraw_eCap (s : State) (x : Nat) : (s.withDraw x).eCap = s.eCap := rfl
@[simp] theorem State.withDraw_dCap (s : State) (x : Nat) : (s.withDraw x).dCap = s.dCap := rfl
@[simp] theorem State.withDraw_eOpen (s : State) (x : Nat) : (s.withDraw x).eOpen = s.eOpen := rfl
@[simp] theorem State.withDraw_dOpen (s : State) (x : Nat) : (s.withDraw x).dOpen = s.dOpen := rfl
@[simp] theorem State.withDraw_resp (s : State) (x : Nat) : (s.withDraw x).resp = s.resp := rfl
@[simp] theorem State.withDraw_pending (s : State) (x : Nat) : (s.withDraw x).pending = s.pending := rfl
@[simp] theorem State.withDraw_draw (s : State) (x : Nat) : (s.withDraw x).draw = x := rfl

@[simp] theorem State.storeOutE_enc (s : State) (k : Nat) (b : Byte) : (s.storeOutE k b).enc = s.enc := rfl
@[simp] theorem State.storeOutE_dec (s : State) (k : Nat) (b : Byte) : (s.storeOutE k b).dec = s.dec := rfl
@[simp] theorem State.storeOutE_inE (s : State) (k : Nat) (b : Byte) : (s.storeOutE k b).inE = s.inE := rfl
@[simp] theorem State.storeOutE_outE (s : State) (k : Nat) (b : Byte) : (s.storeOutE k b).outE = Memory.write s.outE k b := rfl
@[simp] theorem State.storeOutE_inD (s : State) (k : Nat) (b : Byte) : (s.storeOutE k b).inD = s.inD := rfl
@[simp] theorem State.storeOutE_outD (s : State) (k : Nat) (b : Byte) : (s.storeOutE k b).outD = s.outD := rfl
@[simp] theorem State.storeOutE_eCap (s : State) (k : Nat) (b : Byte) : (s.storeOutE k b).eCap = s.eCap := rfl
@[simp] theorem State.storeOutE_dCap (s : State) (k : Nat) (b : Byte) : (s.storeOutE k b).dCap = s.dCap := rfl
@[simp] theorem State.storeOutE_eOpen (s : State) (k : Nat) (b : Byte) : (s.storeOutE k b).eOpen = settle s.eOpen k := rfl
@[simp] theorem State.storeOutE_dOpen (s : State) (k : Nat) (b : Byte) : (s.storeOutE k b).dOpen = s.dOpen := rfl
@[simp] theorem State.storeOutE_resp (s : State) (k : Nat) (b : Byte) : (s.storeOutE k b).resp = s.resp := rfl
@[simp] theorem State.storeOutE_pending (s : State) (k : Nat) (b : Byte) : (s.storeOutE k b).pending = s.pending := rfl
@[simp] theorem State.storeOutE_draw (s : State) (k : Nat) (b : Byte) : (s.storeOutE k b).draw = s.draw := rfl

@[simp] theorem State.storeOutD_enc (s : State) (k : Nat) (b : Byte) : (s.storeOutD k b).enc = s.enc := rfl
@[simp] theorem State.storeOutD_dec (s : State) (k : Nat) (b : Byte) : (s.storeOutD k b).dec = s.dec := rfl
@[simp] theorem State.storeOutD_inE (s : State) (k : Nat) (b : Byte) : (s.storeOutD k b).inE = s.inE := rfl
@[simp] theorem State.storeOutD_outE (s : State) (k : Nat) (b : Byte) : (s.storeOutD k b).outE = s.outE := rfl
@[simp] theorem State.storeOutD_inD (s : State) (k : Nat) (b : Byte) : (s.storeOutD k b).inD = s.inD := rfl
@[simp] theorem State.storeOutD_outD (s : State) (k : Nat) (b : Byte) : (s.storeOutD k b).outD = Memory.write s.outD k b := rfl
@[simp] theorem State.storeOutD_eCap (s : State) (k : Nat) (b : Byte) : (s.storeOutD k b).eCap = s.eCap := rfl
@[simp] theorem State.storeOutD_dCap (s : State) (k : Nat) (b : Byte) : (s.storeOutD k b).dCap = s.dCap := rfl
@[simp] theorem State.storeOutD_eOpen (s : State) (k : Nat) (b : Byte) : (s.storeOutD k b).eOpen = s.eOpen := rfl
@[simp] theorem State.storeOutD_dOpen (s : State) (k : Nat) (b : Byte) : (s.storeOutD k b).dOpen = settle s.dOpen k := rfl
@[simp] theorem State.storeOutD_resp (s : State) (k : Nat) (b : Byte) : (s.storeOutD k b).resp = s.resp := rfl
@[simp] theorem State.storeOutD_pending (s : State) (k : Nat) (b : Byte) : (s.storeOutD k b).pending = s.pending := rfl
@[simp] theorem State.storeOutD_draw (s : State) (k : Nat) (b : Byte) : (s.storeOutD k b).draw = s.draw := rfl

end Sys2Proof.Machine
end

