-- ==== Sys2Proof/Laws/Ops.lean ====
section
/-! SUPPORT. What each shared operation can do, said once. -/

namespace Sys2Proof.Machine

@[simp] theorem andThen_next (s : State) (f : State → Out) : andThen (.next s) f = f s := rfl
@[simp] theorem andThen_fault (r : Fault) (f : State → Out) : andThen (.fault r) f = .fault r := rfl
@[simp] theorem andThen_refused (r : Refusal) (f : State → Out) : andThen (.refused r) f = .refused r := rfl

/-- A chain answers a next state exactly where both parts do. -/
theorem andThen_eq_next {o : Out} {f : State → Out} {t : State} :
    andThen o f = .next t ↔ ∃ s, o = .next s ∧ f s = .next t := by
  cases o <;> simp [andThen]

theorem readElement_ok {m : Memory} {i : Nat} {b : Byte} : readElement m i = .ok b ↔ Memory.read m i = some b := by
  unfold readElement; split <;> simp_all

theorem memReadInE_ok {s : State} {i : Nat} {b : Byte} :
    memReadInE s i = .ok b ↔ i < s.enc.len ∧ Memory.read s.inE i = some b := by
  unfold memReadInE; split <;> simp_all [readElement_ok]

theorem memReadInD_ok {s : State} {i : Nat} {b : Byte} :
    memReadInD s i = .ok b ↔ i < s.dec.len ∧ Memory.read s.inD i = some b := by
  unfold memReadInD; split <;> simp_all [readElement_ok]

theorem fits_iff {cap : Option Nat} {k : Nat} : fits cap k = true ↔ HasRoom cap (k + 1) := by
  cases cap <;> simp [fits, HasRoom]

theorem HasRoom.mono {cap : Option Nat} {m n : Nat} (h : HasRoom cap n) (hmn : m ≤ n) : HasRoom cap m :=
  fun c hc => le_trans hmn (h c hc)

/-- The characters written one after another from an index on. -/
def writeAll (m : Memory) (k : Nat) : List Byte → Memory
  | [] => m
  | c :: cs => writeAll (Memory.write m k c) (k + 1) cs

/-- Reading after `writeAll`: the characters in their places, every other element as before. -/
theorem read_writeAll (m : Memory) (k i : Nat) (cs : List Byte) :
    Memory.read (writeAll m k cs) i = if h : k ≤ i ∧ i - k < cs.length then some cs[i - k] else Memory.read m i := by
  induction cs generalizing m k with
  | nil => simp [writeAll]
  | cons c cs ih =>
    rw [writeAll, ih, Memory.read_write]
    by_cases hk : i = k
    · subst hk
      rw [dif_neg (by omega), if_pos rfl, dif_pos (by simp)]
      simp
    · by_cases h : k + 1 ≤ i ∧ i - (k + 1) < cs.length
      · rw [dif_pos h, dif_pos (by simp only [List.length_cons]; omega)]
        have : i - k = (i - (k + 1)) + 1 := by omega
        simp [this]
      · rw [dif_neg h, if_neg hk, dif_neg (by simp only [List.length_cons]; omega)]

theorem writeAll_wf {m : Memory} (h : Memory.wf m = true) (k : Nat) (cs : List Byte) :
    Memory.wf (writeAll m k cs) = true := by
  induction cs generalizing m k with
  | nil => exact h
  | cons c cs ih => exact ih (Memory.write_wf h k c) (k + 1)

/-- `n` elements stored at rising indices are specified. -/
def settleAll (o : Option Unspecified) (k : Nat) : Nat → Option Unspecified
  | 0 => o
  | n + 1 => settleAll (settle o k) (k + 1) n

theorem openAt_settleAll (o : Option Unspecified) (k n j : Nat) :
    openAt (settleAll o k n) j = if k ≤ j ∧ j < k + n then none else openAt o j := by
  induction n generalizing o k with
  | zero => rw [settleAll, if_neg (by omega)]
  | succ n ih =>
    rw [settleAll, ih, openAt_settle]
    by_cases h : k + 1 ≤ j ∧ j < k + 1 + n
    · rw [if_pos h, if_pos (by omega)]
    · rw [if_neg h]
      by_cases hj : j = k
      · rw [if_pos hj, if_pos (by omega)]
      · rw [if_neg hj, if_neg (by omega)]

theorem settleAll_wf {o : Option Unspecified} (h : openWf o = true) (k n : Nat) : openWf (settleAll o k n) = true := by
  induction n generalizing o k with
  | zero => exact h
  | succ n ih => exact ih (settle_wf h k) (k + 1)

/-- The characters stored in `OUT_E` one after another. -/
def State.storeAllE (s : State) (k : Nat) (cs : List Byte) : State :=
  (s.withOutE (writeAll s.outE k cs)).withEOpen (settleAll s.eOpen k cs.length)

@[simp] theorem State.storeAllE_enc (s : State) (k : Nat) (cs : List Byte) : (s.storeAllE k cs).enc = s.enc := rfl
@[simp] theorem State.storeAllE_dec (s : State) (k : Nat) (cs : List Byte) : (s.storeAllE k cs).dec = s.dec := rfl
@[simp] theorem State.storeAllE_inE (s : State) (k : Nat) (cs : List Byte) : (s.storeAllE k cs).inE = s.inE := rfl
@[simp] theorem State.storeAllE_outE (s : State) (k : Nat) (cs : List Byte) : (s.storeAllE k cs).outE = writeAll s.outE k cs := rfl
@[simp] theorem State.storeAllE_inD (s : State) (k : Nat) (cs : List Byte) : (s.storeAllE k cs).inD = s.inD := rfl
@[simp] theorem State.storeAllE_outD (s : State) (k : Nat) (cs : List Byte) : (s.storeAllE k cs).outD = s.outD := rfl
@[simp] theorem State.storeAllE_eCap (s : State) (k : Nat) (cs : List Byte) : (s.storeAllE k cs).eCap = s.eCap := rfl
@[simp] theorem State.storeAllE_dCap (s : State) (k : Nat) (cs : List Byte) : (s.storeAllE k cs).dCap = s.dCap := rfl
@[simp] theorem State.storeAllE_eOpen (s : State) (k : Nat) (cs : List Byte) : (s.storeAllE k cs).eOpen = settleAll s.eOpen k cs.length := rfl
@[simp] theorem State.storeAllE_dOpen (s : State) (k : Nat) (cs : List Byte) : (s.storeAllE k cs).dOpen = s.dOpen := rfl
@[simp] theorem State.storeAllE_resp (s : State) (k : Nat) (cs : List Byte) : (s.storeAllE k cs).resp = s.resp := rfl
@[simp] theorem State.storeAllE_pending (s : State) (k : Nat) (cs : List Byte) : (s.storeAllE k cs).pending = s.pending := rfl
@[simp] theorem State.storeAllE_draw (s : State) (k : Nat) (cs : List Byte) : (s.storeAllE k cs).draw = s.draw := rfl

/-- Everything `memWriteOutE` can do where it succeeds: room below the output length and in the buffer, and the characters
written. -/
theorem memWriteOutE_ok {s t : State} {k : Nat} {cs : List Byte} :
    memWriteOutE s k cs = .ok t ↔
      (cs ≠ [] → k + cs.length ≤ s.enc.olen ∧ HasRoom s.eCap (k + cs.length)) ∧ t = s.storeAllE k cs := by
  induction cs generalizing s k with
  | nil =>
    simp only [memWriteOutE, State.storeAllE, writeAll, settleAll, List.length_nil, Except.ok.injEq, ne_eq,
      not_true_eq_false, false_implies, true_and]
    exact ⟨fun h => h.symm, fun h => h.symm⟩
  | cons c cs ih =>
    have hroom : (k + 1 ≤ s.enc.olen ∧ HasRoom s.eCap (k + 1)) →
        (memWriteOutE s k (c :: cs) = memWriteOutE (s.storeOutE k c) (k + 1) cs) := by
      rintro ⟨h1, h2⟩
      simp only [memWriteOutE]
      rw [if_pos (by omega), if_pos (fits_iff.2 h2)]
    by_cases hr : k + 1 ≤ s.enc.olen ∧ HasRoom s.eCap (k + 1)
    · rw [hroom hr, ih]
      simp only [State.storeOutE_enc, State.storeOutE_eCap, ne_eq, reduceCtorEq, not_false_eq_true,
        forall_const, List.length_cons]
      have hlen : k + 1 + cs.length = k + (cs.length + 1) := by omega
      rw [hlen]
      refine and_congr ?_ Iff.rfl
      constructor
      · intro h
        by_cases hc : cs = []
        · subst hc; simpa using hr
        · exact h hc
      · intro h _; exact h
    · constructor
      · intro h
        simp only [memWriteOutE] at h
        split at h
        · split at h
          · rename_i h1 h2
            exact absurd ⟨h1, fits_iff.1 h2⟩ hr
          · simp at h
        · simp at h
      · rintro ⟨h, -⟩
        have := h (by simp)
        simp only [List.length_cons] at this
        exact absurd ⟨by omega, this.2.mono (by omega)⟩ hr

theorem memWriteOutD_ok {s t : State} {k : Nat} {b : Byte} :
    memWriteOutD s k b = .ok t ↔
      k < s.dec.tgt ∧ HasRoom s.dCap (k + 1) ∧ t = s.storeOutD k b := by
  unfold memWriteOutD
  split
  · split
    · rename_i h1 h2
      simp only [Except.ok.injEq, h1, fits_iff.1 h2, true_and]
      exact ⟨fun h => h.symm, fun h => h.symm⟩
    · rename_i h1 h2
      simp only [reduceCtorEq, false_iff]
      rintro ⟨-, h, -⟩
      exact h2 (fits_iff.2 h)
  · rename_i h1
    simp [h1]

@[simp] theorem raise_enc (e : RaisedError) (s : State) :
    raise .enc e s = (s.withEnc { s.enc with status := e.status, olen := 0, st := .done }).withEOpen (unspecifiedFrom s) := rfl

theorem raise_dec_char (c : Byte) (pos : Nat) (s : State) :
    raise .dec (.char c pos) s = (s.withDec { s.dec with
      status := .errChar, errChar := c, errPos := pos, olen := 0, st := .done }).withDOpen (unspecifiedFrom s) := rfl

theorem raise_dec_length (l : Nat) (s : State) :
    raise .dec (.length l) s = (s.withDec { s.dec with
      status := .errLength, len := l, olen := 0, st := .done }).withDOpen (unspecifiedFrom s) := rfl

theorem raise_dec_absent (s : State) :
    raise .dec .absent s = (s.withDec { s.dec with
      status := .errAbsent, len := Config.freeLen 10 s.draw, olen := 0, st := .done }).withDOpen (unspecifiedFrom s) := rfl

/-- What a read and checked character gives: its value, the end of the operation with `ERR_CHAR`, or a fault of the read. -/
theorem readChecked_ok {s : State} {i : Nat} {v : Symbol} :
    readChecked s i = .ok v ↔ i < s.dec.len ∧ charValue s.inD i = some v := by
  unfold readChecked charValue
  split
  · rename_i f h
    simp only [reduceCtorEq, false_iff, not_and]
    intro hi hv
    obtain ⟨c, hc, -⟩ := Option.bind_eq_some_iff.1 hv
    rw [memReadInD_ok.2 ⟨hi, hc⟩] at h
    simp at h
  · rename_i c h
    obtain ⟨hi, hc⟩ := memReadInD_ok.1 h
    unfold check
    split <;> simp_all

theorem readChecked_next {s t : State} {i : Nat} :
    readChecked s i = .error (.next t) ↔
      ∃ c, i < s.dec.len ∧ Memory.read s.inD i = some c ∧ romInv c = none ∧ t = raise .dec (.char c i) s := by
  unfold readChecked
  split
  · rename_i f h
    simp only [Except.error.injEq, reduceCtorEq, false_iff]
    rintro ⟨c, hi, hc, -⟩
    rw [memReadInD_ok.2 ⟨hi, hc⟩] at h
    simp at h
  · rename_i c h
    obtain ⟨hi, hc⟩ := memReadInD_ok.1 h
    unfold check
    split
    · simp_all
    · rename_i hn
      simp only [Except.error.injEq, Host.Outcome.next.injEq]
      constructor
      · rintro rfl; exact ⟨c, hi, hc, hn, rfl⟩
      · rintro ⟨c', -, hc', -, rfl⟩
        rw [hc] at hc'; cases hc'; rfl

end Sys2Proof.Machine
end

