-- ==== Sys2Proof/Laws/Steps.lean ====
section
/-! SUPPORT. What a micro-step, a START and a move of the block can do where they answer a next state. -/

namespace Sys2Proof.Machine

/-- Everything ENC.P`p` can do where it answers a next state (R143 to R147). -/
theorem encPhaseStep_next {p : Phase} {s t : State} (h : encPhaseStep p s = .next t) :
    ∃ b, encEnabledAt p s ∧ Memory.read s.inE s.enc.idx = some b ∧
      OutRoomE s (encSymbols p s.enc.carry b).length ∧
      t = (s.storeAllE s.enc.oidx ((encSymbols p s.enc.carry b).map romFwd)).withEnc
        { s.enc with
          carry := encCarry p b
          idx := s.enc.idx + 1
          oidx := s.enc.oidx + (encSymbols p s.enc.carry b).length
          ph := p.next } := by
  unfold encPhaseStep at h
  split at h
  · rename_i he
    split at h
    · cases h
    · rename_i b hb
      split at h
      · cases h
      · rename_i u hu
        obtain ⟨hroom, rfl⟩ := memWriteOutE_ok.1 hu
        refine ⟨b, he, (memReadInE_ok.1 hb).2, ?_, ?_⟩
        · have := hroom (by cases p <;> simp [encSymbols])
          simpa [OutRoomE] using this
        · cases h; rfl
  · cases h

/-- ENC.P`p` where it is enabled, its byte is written and there is room. -/
theorem encPhaseStep_eq {p : Phase} {s : State} {b : Byte} (he : encEnabledAt p s)
    (hb : Memory.read s.inE s.enc.idx = some b) (hr : OutRoomE s (encSymbols p s.enc.carry b).length) :
    encPhaseStep p s = .next ((s.storeAllE s.enc.oidx ((encSymbols p s.enc.carry b).map romFwd)).withEnc
        { s.enc with
          carry := encCarry p b
          idx := s.enc.idx + 1
          oidx := s.enc.oidx + (encSymbols p s.enc.carry b).length
          ph := p.next }) := by
  unfold encPhaseStep
  rw [if_pos he, memReadInE_ok.2 ⟨he.2.1, hb⟩]
  have := memWriteOutE_ok (s := s) (k := s.enc.oidx) (cs := (encSymbols p s.enc.carry b).map romFwd)
    |>.2 ⟨fun _ => by simpa [OutRoomE] using hr, rfl⟩
  simp only [this]

theorem encFlush_next {s t : State} (h : encFlush s = .next t) :
    (s.enc.st = .run ∧ s.enc.idx = s.enc.len ∧ s.enc.ph ≠ .p0) ∧ OutRoomE s 1 ∧
      t = (s.storeOutE s.enc.oidx (romFwd (flushSymbol s.enc.ph s.enc.carry))).withEnc
        { s.enc with oidx := s.enc.oidx + 1, st := .done } := by
  unfold encFlush at h
  split at h
  · rename_i he
    split at h
    · cases h
    · rename_i u hu
      obtain ⟨hroom, rfl⟩ := memWriteOutE_ok.1 hu
      exact ⟨he, by simpa [OutRoomE] using hroom (by simp), by cases h; rfl⟩
  · cases h

theorem encFinish_next {s t : State} (h : encFinish s = .next t) :
    (s.enc.st = .run ∧ s.enc.idx = s.enc.len ∧ s.enc.ph = .p0) ∧ t = s.withEnc { s.enc with st := .done } := by
  unfold encFinish at h
  split at h
  · exact ⟨‹_›, by cases h; rfl⟩
  · cases h

/-- What a P-step of DEC reads where all its characters are the alphabet's: its values, in range. -/
theorem decSymbols_ok {p : Phase} {s : State} {v w : Symbol} :
    decSymbols p s = .ok (v, w) ↔
      s.dec.idx + decTake p ≤ s.dec.len ∧ charValue s.inD s.dec.idx = some v ∧
      (if decTake p = 2 then charValue s.inD (s.dec.idx + 1) = some w else w = 0) := by
  have htake : decTake p = 2 ∨ decTake p = 1 := by cases p <;> simp [decTake]
  unfold decSymbols
  split
  · rename_i o ho
    simp only [reduceCtorEq, false_iff]
    rintro ⟨h1, h2, -⟩
    rw [readChecked_ok.2 ⟨by omega, h2⟩] at ho
    cases ho
  · rename_i v' hv
    obtain ⟨h1, h2⟩ := readChecked_ok.1 hv
    rcases htake with ht | ht
    · simp only [ht, if_true]
      split
      · rename_i o ho
        simp only [reduceCtorEq, false_iff]
        rintro ⟨h3, h4, h5⟩
        rw [readChecked_ok.2 ⟨by omega, h5⟩] at ho
        cases ho
      · rename_i w' hw
        obtain ⟨h3, h4⟩ := readChecked_ok.1 hw
        simp only [Except.ok.injEq, Prod.mk.injEq, h2, h4, Option.some.injEq]
        exact ⟨fun h => ⟨by omega, h⟩, fun h => h.2⟩
    · simp only [ht, OfNat.one_ne_ofNat, if_false, Except.ok.injEq, Prod.mk.injEq, h2, Option.some.injEq]
      exact ⟨fun h => ⟨by omega, h.1, h.2.symm⟩, fun h => ⟨h.2.1, h.2.2.symm⟩⟩

/-- What a P-step of DEC does at a bad character: it raises `ERR_CHAR` at one of the characters it reads, those before it
being the alphabet's. -/
theorem decSymbols_next {p : Phase} {s t : State} (h : decSymbols p s = .error (.next t)) :
    ∃ c i, s.dec.idx ≤ i ∧ i < s.dec.idx + decTake p ∧ i < s.dec.len ∧ Memory.read s.inD i = some c ∧ romInv c = none ∧
      (∀ j, s.dec.idx ≤ j → j < i → ∃ v, charValue s.inD j = some v) ∧ t = raise .dec (.char c i) s := by
  have htake : decTake p = 2 ∨ decTake p = 1 := by cases p <;> simp [decTake]
  unfold decSymbols at h
  split at h
  · rename_i o ho
    cases h
    obtain ⟨c, hi, hc, hn, rfl⟩ := readChecked_next.1 ho
    exact ⟨c, s.dec.idx, le_refl _, by omega, hi, hc, hn, fun j h1 h2 => by omega, rfl⟩
  · rename_i v hv
    obtain ⟨-, hv⟩ := readChecked_ok.1 hv
    split at h
    · split at h
      · rename_i ht _ o ho
        cases h
        obtain ⟨c, hi, hc, hn, rfl⟩ := readChecked_next.1 ho
        refine ⟨c, s.dec.idx + 1, by omega, by omega, hi, hc, hn, fun j h1 h2 => ?_, rfl⟩
        obtain rfl : j = s.dec.idx := by omega
        exact ⟨v, hv⟩
      · cases h
    · cases h

/-- Everything DEC.P`p` can do where it answers a next state (R173 to R177, R179): one byte written, or `ERR_CHAR`. -/
theorem decPhaseStep_next {p : Phase} {s t : State} (h : decPhaseStep p s = .next t) :
    decEnabledAt p s ∧
    ((∃ v w, decSymbols p s = .ok (v, w) ∧ HasRoom s.dCap (s.dec.oidx + 1) ∧
      t = (s.storeOutD s.dec.oidx (decByte p s.dec.carry v w)).withDec
        { s.dec with
          carry := decCarry p v w
          idx := s.dec.idx + decTake p
          oidx := s.dec.oidx + 1
          ph := p.next }) ∨
     (∃ c i, s.dec.idx ≤ i ∧ i < s.dec.idx + decTake p ∧ i < s.dec.len ∧ Memory.read s.inD i = some c ∧
      romInv c = none ∧ (∀ j, s.dec.idx ≤ j → j < i → ∃ v, charValue s.inD j = some v) ∧
      t = raise .dec (.char c i) s)) := by
  unfold decPhaseStep at h
  split at h
  · rename_i he
    refine ⟨he, ?_⟩
    split at h
    · rename_i o ho
      subst h
      exact .inr (decSymbols_next ho)
    · rename_i v w hvw
      split at h
      · cases h
      · rename_i u hu
        obtain ⟨-, hroom, rfl⟩ := memWriteOutD_ok.1 hu
        exact .inl ⟨v, w, hvw, hroom, by cases h; rfl⟩
  · cases h

theorem decPhaseStep_eq {p : Phase} {s : State} {v w : Symbol} (he : decEnabledAt p s)
    (hvw : decSymbols p s = .ok (v, w)) (hr : HasRoom s.dCap (s.dec.oidx + 1)) :
    decPhaseStep p s = .next ((s.storeOutD s.dec.oidx (decByte p s.dec.carry v w)).withDec
        { s.dec with
          carry := decCarry p v w
          idx := s.dec.idx + decTake p
          oidx := s.dec.oidx + 1
          ph := p.next }) := by
  unfold decPhaseStep
  rw [if_pos he, hvw]
  simp only [memWriteOutD_ok.2 ⟨he.2.1, hr, rfl⟩]

theorem decFinish_next {s t : State} (h : decFinish s = .next t) :
    (s.dec.st = .run ∧ s.dec.oidx = s.dec.tgt) ∧ t = s.withDec { s.dec with olen := s.dec.tgt, st := .done } := by
  unfold decFinish at h
  split at h
  · exact ⟨‹_›, by cases h; rfl⟩
  · cases h

/-- Everything ENC.START can do where it answers a next state (R142). -/
theorem encStart_next {a : Bool} {len : Nat} {s t : State} (h : encStart a len s = .next t) :
    s.enc.st ≠ .run ∧
    ((a = true ∧ t = raise .enc .absent s) ∨
     (a = false ∧ t = s.withEnc { st := .run, len := len, olen := lenEnc len, idx := 0, oidx := 0, ph := .p0, carry := 0,
                                  status := .ok })) := by
  unfold encStart at h
  split at h
  · cases h
  · refine ⟨‹_›, ?_⟩
    split at h
    · cases h; exact .inl ⟨by assumption, rfl⟩
    · cases h; exact .inr ⟨by simpa using ‹¬ a = true›, rfl⟩

/-- Everything DEC.START can do where it answers a next state (R172). -/
theorem decStart_next {a : Bool} {len : Nat} {s t : State} (h : decStart a len s = .next t) :
    s.dec.st ≠ .run ∧
    ((a = true ∧ t = raise .dec .absent (s.withDec { s.dec with errChar := 0, errPos := 0 })) ∨
     (a = false ∧ lenChk len = false ∧
       t = raise .dec (.length len) (s.withDec { s.dec with errChar := 0, errPos := 0 })) ∨
     (a = false ∧ lenChk len = true ∧
       t = s.withDec { st := .run, len := len, tgt := lenDec len, olen := 0, idx := 0, oidx := 0, ph := .p0, carry := 0,
                       status := .ok, errChar := 0, errPos := 0 })) := by
  unfold decStart at h
  split at h
  · cases h
  · refine ⟨‹_›, ?_⟩
    simp only at h
    split at h
    · cases h; exact .inl ⟨by assumption, rfl⟩
    · split at h
      · cases h; exact .inr (.inr ⟨by simpa using ‹¬ a = true›, by assumption, rfl⟩)
      · cases h; exact .inr (.inl ⟨by simpa using ‹¬ a = true›, by simpa using ‹¬ lenChk len = true›, rfl⟩)

/-- The selected micro-step of ENC is the one its run takes. -/
theorem unitStep_enc (s : State) : unitStep .enc s = encMicro s := by
  unfold unitStep selected encKey encMicro
  by_cases h1 : s.enc.st = .run
  · by_cases h2 : s.enc.idx < s.enc.len
    · simp only [h1, h2, if_true, Option.map_some]
      cases hp : s.enc.ph <;> rfl
    · by_cases h3 : s.enc.idx = s.enc.len
      · simp only [h1, if_true]
        rw [if_neg h2, if_pos h3, if_neg h2, if_pos h3]
        cases hp : s.enc.ph <;> rfl
      · simp only [h1, if_true]
        rw [if_neg h2, if_neg h3, if_neg h2, if_neg h3]
        rfl
  · simp [h1]

/-- The selected micro-step of DEC is the one its run takes. -/
theorem unitStep_dec (s : State) : unitStep .dec s = decMicro s := by
  unfold unitStep selected decKey decMicro
  by_cases h1 : s.dec.st = .run
  · by_cases h2 : s.dec.oidx < s.dec.tgt
    · simp only [h1, h2, if_true, Option.map_some]
      cases hp : s.dec.ph <;> rfl
    · by_cases h3 : s.dec.oidx = s.dec.tgt
      · simp only [h1, if_true]
        rw [if_neg h2, if_pos h3, if_neg h2, if_pos h3]
        rfl
      · simp only [h1, if_true]
        rw [if_neg h2, if_neg h3, if_neg h2, if_neg h3]
        rfl
  · simp [h1]

/-- Everything a running unit's micro-step can be: ENC. -/
theorem encMicro_next {s t : State} (h : encMicro s = .next t) :
    t = s ∨ (∃ p, encPhaseStep p s = .next t) ∨ encFlush s = .next t ∨ encFinish s = .next t := by
  unfold encMicro at h
  split at h
  · split at h
    · exact .inr (.inl ⟨_, h⟩)
    · split at h
      · split at h
        · exact .inr (.inr (.inr h))
        · exact .inr (.inr (.inl h))
      · cases h; exact .inl rfl
  · cases h; exact .inl rfl

/-- Everything a running unit's micro-step can be: DEC. -/
theorem decMicro_next {s t : State} (h : decMicro s = .next t) :
    t = s ∨ (∃ p, decPhaseStep p s = .next t) ∨ decFinish s = .next t := by
  unfold decMicro at h
  split at h
  · split at h
    · exact .inr (.inl ⟨_, h⟩)
    · split at h
      · exact .inr (.inr h)
      · cases h; exact .inl rfl
  · cases h; exact .inl rfl

/-- An operation run by its command is kept by every property its START and its micro-steps keep. -/
theorem encRun_keeps {P : State → Prop} (hP : ∀ {s t}, P s → encMicro s = .next t → P t) {n : Nat} {s t : State}
    (hs : P s) (h : encRun n s = .next t) : P t := by
  induction n generalizing s with
  | zero => cases h; exact hs
  | succ n ih =>
    obtain ⟨u, hu, h⟩ := andThen_eq_next.1 h
    exact ih (hP hs hu) h

theorem decRun_keeps {P : State → Prop} (hP : ∀ {s t}, P s → decMicro s = .next t → P t) {n : Nat} {s t : State}
    (hs : P s) (h : decRun n s = .next t) : P t := by
  induction n generalizing s with
  | zero => cases h; exact hs
  | succ n ih =>
    obtain ⟨u, hu, h⟩ := andThen_eq_next.1 h
    exact ih (hP hs hu) h

/-- A command's whole operation is its START followed by the unit's run. -/
theorem execEncode_next {len : Nat} {s t : State} (h : execEncode len s = .next t) :
    ∃ u, encStart false len s = .next u ∧ encRun (len + 1) u = .next t := andThen_eq_next.1 h

theorem execDecode_next {len : Nat} {s t : State} (h : execDecode len s = .next t) :
    ∃ u, decStart false len s = .next u ∧ decRun (lenDec len + 1) u = .next t := andThen_eq_next.1 h

/-- Everything a scheduled step can do where it answers a next state: a micro-step of one unit, or one of each (R232). -/
theorem tick_next {p : Pick} {s t : State} (h : tick p s = .next t) :
    encMicro s = .next t ∨ decMicro s = .next t ∨ ∃ u, encMicro s = .next u ∧ decMicro u = .next t := by
  cases p
  · exact .inl (by rw [← unitStep_enc]; exact h)
  · exact .inr (.inl (by rw [← unitStep_dec]; exact h))
  · obtain ⟨u, hu, h⟩ := andThen_eq_next.1 h
    exact .inr (.inr ⟨u, by rw [← unitStep_enc]; exact hu, by rw [← unitStep_dec]; exact h⟩)

/-- A step is a host request or a scheduled step. -/
theorem step_next {s t : State} (h : step s = .next t) :
    (∃ e rest, s.pending = e :: rest ∧ hostEvent e ((nextDraw s).withPending rest) = .next t) ∨
    (s.pending = [] ∧ freeTick (nextDraw s) = .next t) := by
  unfold step nextMove at h
  split at h
  · exact .inl ⟨_, _, by assumption, h⟩
  · exact .inr ⟨by assumption, h⟩

end Sys2Proof.Machine
end

