-- ==== Sys2Proof/Laws/Host.lean ====
section
/-! SUPPORT. What a request of the host can do, said once, and the two packages built on it: what every request keeps, and
what every step keeps. -/

namespace Sys2Proof.Machine

/-- A row of the symbol map answers a symbol value and changes nothing else. -/
theorem exec_symRow {r : Byte × Instr} (h : r ∈ symRows) (s : State) :
    ∃ v, exec r.2 s = .next (s.withResp (.value (some v))) := by
  simp only [symRows, symRows0, symRows1, symRows2, symRows3, List.mem_append, List.mem_cons, List.not_mem_nil,
    or_false] at h
  rcases h with ((h | h) | h) | h <;> rcases h with rfl | rfl | rfl | rfl | rfl | rfl | rfl | rfl <;> exact ⟨_, rfl⟩

/-- Everything a presented character code can do: an answer, or, where DEC is about to consume it, `ERR_CHAR` (R84). -/
theorem exec_decodeCode_next {c : Byte} {s t : State} (h : exec (decodeCode c) s = .next t) :
    ∃ v, t = s.withResp (.value v) ∨
      (romInv c = none ∧ s.dec.st = .run ∧ s.dec.oidx < s.dec.tgt ∧ s.dec.idx < s.dec.len ∧
        Memory.read s.inD s.dec.idx = some c ∧ t = raise .dec (.char c s.dec.idx) (s.withResp (.value v))) := by
  unfold decodeCode at h
  split at h
  · rename_i r hr
    obtain ⟨v, hv⟩ := exec_symRow (List.mem_of_find?_eq_some hr) s
    rw [hv] at h
    cases h
    exact ⟨_, .inl rfl⟩
  · simp only [exec, execSymInvalid] at h
    split at h
    · rename_i hc
      have hd := hc.2
      simp only [decConsumes, Bool.and_eq_true, decide_eq_true_eq, memReadInD_ok, and_assoc] at hd
      cases h
      exact ⟨_, .inr ⟨hc.1, hd.1, hd.2.1, hd.2.2.1, hd.2.2.2, rfl⟩⟩
    · cases h
      exact ⟨_, .inl rfl⟩

/-- A combinational function only answers. -/
theorem exec_decodeFunc_next {f : Func} {s t : State} (h : exec (decodeFunc f) s = .next t) :
    ∃ r, t = s.withResp r := by
  cases f <;> cases h <;> exact ⟨_, rfl⟩

/-- A command as a whole operation: START of the unit `OP` selects, then that unit's micro-steps (R81). -/
theorem exec_decodeCall_next {cmd : Command} {len : Nat} {s t : State} (h : exec (decodeCall cmd len) s = .next t) :
    (cmdOp cmd = false ∧ ∃ u n, encStart (cmdAbsent cmd) len s = .next u ∧ encRun n u = .next t) ∨
    (cmdOp cmd = true ∧ ∃ u n, decStart (cmdAbsent cmd) len s = .next u ∧ decRun n u = .next t) := by
  unfold decodeCall at h
  split at h <;> rename_i h1 h2
  · obtain ⟨u, hu, hr⟩ := execEncode_next h
    exact .inl ⟨h1, u, _, by rw [h2]; exact hu, hr⟩
  · obtain ⟨u, hu, hr⟩ := execDecode_next h
    exact .inr ⟨h1, u, _, by rw [h2]; exact hu, hr⟩
  · exact .inl ⟨h1, t, 0, by rw [h2]; exact h, rfl⟩
  · exact .inr ⟨h1, t, 0, by rw [h2]; exact h, rfl⟩

/-- The command port: START of the unit `OP` selects (R82). -/
theorem exec_decodePort_next {cmd : Command} {len : Nat} {s t : State} (h : exec (decodePort cmd len) s = .next t) :
    (cmdOp cmd = false ∧ encStart (cmdAbsent cmd) len s = .next t) ∨
    (cmdOp cmd = true ∧ decStart (cmdAbsent cmd) len s = .next t) := by
  unfold decodePort at h
  split at h <;> rename_i h1
  · exact .inl ⟨h1, h⟩
  · exact .inr ⟨h1, h⟩

/-- A host read only answers. -/
theorem hostRead_next {sp : Space} {i : Nat} {s t : State} (h : hostRead sp i s = .next t) :
    ∃ r, t = s.withResp r := by
  unfold hostRead at h
  split at h
  · cases h
  · split at h
    · cases h; exact ⟨_, rfl⟩
    · cases h

/-- Where the unit does not run, a host read answers what the element reads as, or faults as its read does. -/
theorem hostRead_eq {sp : Space} {i : Nat} {s : State} (h : ctl sp.owner s ≠ .run) :
    hostRead sp i s = match elementOf sp i s with
      | .ok b => .next (s.withResp (.element b))
      | .error f => .fault f := by
  unfold hostRead busy
  cases elementOf sp i s <;> simp [h]

/-- What elements read as after a store: the stored one what was stored, every other one as before. -/
theorem elementOf_storeElement (sp sp' : Space) (i j : Nat) (b : Byte) (s : State) :
    elementOf sp' j (storeElement sp i b s) = if sp' = sp ∧ j = i then .ok b else elementOf sp' j s := by
  by_cases h : sp' = sp
  · subst h
    by_cases hj : j = i <;>
      cases sp' <;>
        simp [elementOf, storeElement, openOf, openAt_settle, spaceOf, readElement, Memory.read_write, hj]
  · rw [if_neg (fun hc => h hc.1)]
    cases sp <;> cases sp' <;> first | exact absurd rfl h | rfl

@[simp] theorem storeElement_enc (sp : Space) (i : Nat) (b : Byte) (s : State) :
    (storeElement sp i b s).enc = s.enc := by cases sp <;> rfl
@[simp] theorem storeElement_dec (sp : Space) (i : Nat) (b : Byte) (s : State) :
    (storeElement sp i b s).dec = s.dec := by cases sp <;> rfl
@[simp] theorem storeElement_eCap (sp : Space) (i : Nat) (b : Byte) (s : State) :
    (storeElement sp i b s).eCap = s.eCap := by cases sp <;> rfl
@[simp] theorem storeElement_dCap (sp : Space) (i : Nat) (b : Byte) (s : State) :
    (storeElement sp i b s).dCap = s.dCap := by cases sp <;> rfl
@[simp] theorem storeElement_resp (sp : Space) (i : Nat) (b : Byte) (s : State) :
    (storeElement sp i b s).resp = s.resp := by cases sp <;> rfl
@[simp] theorem storeElement_pending (sp : Space) (i : Nat) (b : Byte) (s : State) :
    (storeElement sp i b s).pending = s.pending := by cases sp <;> rfl
@[simp] theorem storeElement_draw (sp : Space) (i : Nat) (b : Byte) (s : State) :
    (storeElement sp i b s).draw = s.draw := by cases sp <;> rfl

/-- A port read only answers. -/
theorem hostPort_next {p : StatusPort} {s t : State} (h : hostPort p s = .next t) : ∃ r, t = s.withResp r := by
  unfold hostPort at h
  split at h
  · cases h; exact ⟨_, rfl⟩
  · cases h

/-- A host write stores one element of a space whose unit is not busy. -/
theorem hostWrite_next {sp : Space} {i : Nat} {b : Byte} {s t : State} (h : hostWrite sp i b s = .next t) :
    ctl sp.owner s ≠ .run ∧ t = storeElement sp i b s := by
  unfold hostWrite busy at h
  split at h
  · cases h
  · cases h; exact ⟨by simpa using ‹¬ decide _ = true›, rfl⟩

/-- Providing a buffer needs a unit that is not busy. -/
theorem provideBuffer_next {u : UnitId} {n : Nat} {s t : State} (h : provideBuffer u n s = .next t) :
    ctl u s ≠ .run ∧
    t = (match u with
      | .enc => ((s.withOutE []).withECap (some n)).withEOpen none
      | .dec => ((s.withOutD []).withDCap (some n)).withDOpen none) := by
  unfold provideBuffer busy at h
  split at h
  · cases h
  · refine ⟨by simpa using ‹¬ decide _ = true›, ?_⟩
    cases u <;> cases h <;> rfl

/-- Waiting changes the requests only. -/
theorem keepWaiting_eq (u : UnitId) (s : State) :
    keepWaiting u s = s ∨ keepWaiting u s = s.withPending (.await u :: s.pending) := by
  unfold keepWaiting
  split
  · exact .inr rfl
  · exact .inl rfl

/-- Everything a command as a host action can do in its first step: START, and the wait (R90, R232). -/
theorem hostWord_call_next {cmd : Command} {len : Nat} {s t : State} (h : hostWord (.call cmd len) s = .next t) :
    ∃ u, exec (decodePort cmd len) s = .next u ∧ t = keepWaiting (cmdUnit cmd) u := by
  obtain ⟨u, hu, h⟩ := andThen_eq_next.1 h
  cases h
  exact ⟨u, hu, rfl⟩

/-- Everything a step of the host's wait can do: nothing, or a scheduled step and the wait kept or over. -/
theorem hostAwait_next {u : UnitId} {s t : State} (h : hostAwait u s = .next t) :
    t = s ∨ ∃ p v, tick p s = .next v ∧ t = keepWaiting u v := by
  unfold hostAwait at h
  split at h
  · obtain ⟨v, hv, h⟩ := andThen_eq_next.1 h
    cases h
    exact .inr ⟨_, v, hv, rfl⟩
  · cases h; exact .inl rfl

/-- What each part of the block keeps, one hypothesis per part, every request of the host keeps. -/
theorem hostEvent_keeps {P : State → Prop} {e : HostEvent}
    (hpending : ∀ {s} (es : List HostEvent), P s → P (s.withPending es))
    (hresp : ∀ {s} (r : Response), P s → P (s.withResp r))
    (hrst : ∀ {s}, P s → P (rstInput s))
    (hes : ∀ {s t a len}, presentedLen e = some len → P s → encStart a len s = .next t → P t)
    (hds : ∀ {s t a len}, presentedLen e = some len → P s → decStart a len s = .next t → P t)
    (hem : ∀ {s t}, P s → encMicro s = .next t → P t)
    (hdm : ∀ {s t}, P s → decMicro s = .next t → P t)
    (hbad : ∀ {s c}, P s → romInv c = none → s.dec.st = .run → s.dec.oidx < s.dec.tgt → s.dec.idx < s.dec.len →
      Memory.read s.inD s.dec.idx = some c → P (raise .dec (.char c s.dec.idx) s))
    (hprov : ∀ {s t u n}, P s → provideBuffer u n s = .next t → P t)
    (hwrite : ∀ {s t sp i b}, P s → hostWrite sp i b s = .next t → P t)
    {s t : State} (hs : P s) (h : hostEvent e s = .next t) : P t := by
  have htick : ∀ {p s t}, P s → tick p s = .next t → P t := by
    intro p s t hs h
    rcases tick_next h with h | h | ⟨u, hu, h⟩
    · exact hem hs h
    · exact hdm hs h
    · exact hdm (hem hs hu) h
  have hwait : ∀ {s} (u : UnitId), P s → P (keepWaiting u s) := by
    intro s u hs
    rcases keepWaiting_eq u s with h | h <;> rw [h]
    · exact hs
    · exact hpending _ hs
  cases e with
  | rst => cases h; exact hrst hs
  | word w =>
    cases w with
    | call cmd len =>
      obtain ⟨u, hu, rfl⟩ := hostWord_call_next h
      rcases exec_decodePort_next hu with ⟨-, hu⟩ | ⟨-, hu⟩
      · exact hwait _ (hes rfl hs hu)
      · exact hwait _ (hds rfl hs hu)
    | port cmd len =>
      rcases exec_decodePort_next h with ⟨-, h⟩ | ⟨-, h⟩
      · exact hes rfl hs h
      · exact hds rfl hs h
    | func f => obtain ⟨r, rfl⟩ := exec_decodeFunc_next h; exact hresp r hs
    | code c =>
      obtain ⟨v, rfl | ⟨hn, h1, h2, h3, h4, rfl⟩⟩ := exec_decodeCode_next h
      · exact hresp _ hs
      · exact hbad (s := s.withResp (.value v)) (hresp _ hs) hn h1 h2 h3 h4
  | tick p => exact htick hs h
  | await u =>
    rcases hostAwait_next h with rfl | ⟨p, v, hv, rfl⟩
    · exact hs
    · exact hwait _ (htick hs hv)
  | provide u n => exact hprov hs h
  | write sp i b => exact hwrite hs h
  | read sp i => obtain ⟨r, rfl⟩ := hostRead_next h; exact hresp r hs
  | port p => obtain ⟨r, rfl⟩ := hostPort_next h; exact hresp r hs

/-- What every request of the host keeps, every step keeps, where nothing in it speaks of the requests or the draws. -/
theorem step_keeps {P : State → Prop}
    (hpending : ∀ {s} (es : List HostEvent), P s → P (s.withPending es))
    (hdraw : ∀ {s} (n : Nat), P s → P (s.withDraw n))
    {s t : State}
    (hevent : ∀ {e u v}, (∀ len, presentedLen e = some len → ∃ rest, s.pending = e :: rest) → P u →
      hostEvent e u = .next v → P v)
    (hs : P s) (h : step s = .next t) : P t := by
  rcases step_next h with ⟨e, rest, hp, h⟩ | ⟨-, h⟩
  · exact hevent (fun _ _ => ⟨rest, hp⟩) (hpending rest (hdraw _ hs)) h
  · exact hevent (e := .tick _) (fun _ hl => by simp [presentedLen] at hl) (hdraw _ hs) h

end Sys2Proof.Machine
end

