-- ==== Sys2Proof/Laws/PerInstr.lean ====
section
/-! SUPPORT. Statements made per operation of the table. -/

namespace Sys2Proof.Laws.Format

/-- The four kinds of row of the table (spec/30_encoding.md): a host command, a micro-step, a combinational function, a
character code. -/
inductive Kind where
  | cmd
  | step
  | func
  | sym
deriving DecidableEq, Repr

/-- The kind of the table's row for each operation. -/
def kind : Instr → Kind
  | .encode _ => .cmd
  | .decode _ => .cmd
  | .encodeAbsent _ => .cmd
  | .decodeAbsent _ => .cmd
  | .encStart _ _ => .step
  | .encP0 => .step
  | .encP1 => .step
  | .encP2 => .step
  | .encP3 => .step
  | .encP4 => .step
  | .encFlush => .step
  | .encFinish => .step
  | .decStart _ _ => .step
  | .decP0 => .step
  | .decP1 => .step
  | .decP2 => .step
  | .decP3 => .step
  | .decP4 => .step
  | .decFinish => .step
  | .romFwd _ => .func
  | .romInv _ => .func
  | .lenEnc _ => .func
  | .lenDec _ => .func
  | .lenChk _ => .func
  | .symA => .sym
  | .symB => .sym
  | .symC => .sym
  | .symD => .sym
  | .symE => .sym
  | .symF => .sym
  | .symG => .sym
  | .symH => .sym
  | .symI => .sym
  | .symJ => .sym
  | .symK => .sym
  | .symL => .sym
  | .symM => .sym
  | .symN => .sym
  | .symO => .sym
  | .symP => .sym
  | .symQ => .sym
  | .symR => .sym
  | .symS => .sym
  | .symT => .sym
  | .symU => .sym
  | .symV => .sym
  | .symW => .sym
  | .symX => .sym
  | .symY => .sym
  | .symZ => .sym
  | .sym2 => .sym
  | .sym3 => .sym
  | .sym4 => .sym
  | .sym5 => .sym
  | .sym6 => .sym
  | .sym7 => .sym
  | .symInvalid _ => .sym

/-- The word of an operation is of its row's kind: a command word, a micro-step's selecting state or the port that presents
START, a function's name, a character code (R81 to R84). -/
def Statement (i : Instr) : Prop :=
  match encode i with
  | .host (.call _ _) => kind i = .cmd
  | .host (.port _ _) => kind i = .step
  | .host (.func _) => kind i = .func
  | .host (.code _) => kind i = .sym
  | .encRun _ _ => kind i = .step
  | .decRun _ _ => kind i = .step

theorem encode (len : Nat) : Statement (.encode len) := rfl
theorem decode (len : Nat) : Statement (.decode len) := rfl
theorem encodeAbsent (len : Nat) : Statement (.encodeAbsent len) := rfl
theorem decodeAbsent (len : Nat) : Statement (.decodeAbsent len) := rfl
theorem encStart (absent : Bool) (len : Nat) : Statement (.encStart absent len) := rfl
theorem encP0 : Statement .encP0 := rfl
theorem encP1 : Statement .encP1 := rfl
theorem encP2 : Statement .encP2 := rfl
theorem encP3 : Statement .encP3 := rfl
theorem encP4 : Statement .encP4 := rfl
theorem encFlush : Statement .encFlush := rfl
theorem encFinish : Statement .encFinish := rfl
theorem decStart (absent : Bool) (len : Nat) : Statement (.decStart absent len) := rfl
theorem decP0 : Statement .decP0 := rfl
theorem decP1 : Statement .decP1 := rfl
theorem decP2 : Statement .decP2 := rfl
theorem decP3 : Statement .decP3 := rfl
theorem decP4 : Statement .decP4 := rfl
theorem decFinish : Statement .decFinish := rfl
theorem romFwd (v : Symbol) : Statement (.romFwd v) := rfl
theorem romInv (c : Byte) : Statement (.romInv c) := rfl
theorem lenEnc (n : Nat) : Statement (.lenEnc n) := rfl
theorem lenDec (l : Nat) : Statement (.lenDec l) := rfl
theorem lenChk (l : Nat) : Statement (.lenChk l) := rfl
theorem symA : Statement .symA := rfl
theorem symB : Statement .symB := rfl
theorem symC : Statement .symC := rfl
theorem symD : Statement .symD := rfl
theorem symE : Statement .symE := rfl
theorem symF : Statement .symF := rfl
theorem symG : Statement .symG := rfl
theorem symH : Statement .symH := rfl
theorem symI : Statement .symI := rfl
theorem symJ : Statement .symJ := rfl
theorem symK : Statement .symK := rfl
theorem symL : Statement .symL := rfl
theorem symM : Statement .symM := rfl
theorem symN : Statement .symN := rfl
theorem symO : Statement .symO := rfl
theorem symP : Statement .symP := rfl
theorem symQ : Statement .symQ := rfl
theorem symR : Statement .symR := rfl
theorem symS : Statement .symS := rfl
theorem symT : Statement .symT := rfl
theorem symU : Statement .symU := rfl
theorem symV : Statement .symV := rfl
theorem symW : Statement .symW := rfl
theorem symX : Statement .symX := rfl
theorem symY : Statement .symY := rfl
theorem symZ : Statement .symZ := rfl
theorem sym2 : Statement .sym2 := rfl
theorem sym3 : Statement .sym3 := rfl
theorem sym4 : Statement .sym4 := rfl
theorem sym5 : Statement .sym5 := rfl
theorem sym6 : Statement .sym6 := rfl
theorem sym7 : Statement .sym7 := rfl
theorem symInvalid (c : Byte) : Statement (.symInvalid c) := rfl

end Sys2Proof.Laws.Format
end

