-- ==== Sys2Proof/Tests/Slice0.lean ====
section
/-! SUPPORT. The model's own tests: ill-formed terms refused, words written out from the spec's tables, one step each on small
states with the results of spec/95_test_vectors.md and of the rules' worked examples, and a witness for every statement with
hypotheses. -/

namespace Sys2Proof.Machine.Tests

/-! Well-formedness. -/

theorem test_wf_refuses_alphabet_code : (Instr.symInvalid 0x41).wellFormed = false := by decide
theorem test_wf_accepts_other_code : (Instr.symInvalid 0x40).wellFormed = true := by decide

/-! Decoding: words written out from R74, R81, R82, R100, R84. -/

theorem test_decode_cmd_00 : decode (.host (.call 0b00 6)) = .encode 6 := by decide
theorem test_decode_cmd_01 : decode (.host (.call 0b01 10)) = .decode 10 := by decide
theorem test_decode_cmd_10 : decode (.host (.call 0b10 3)) = .encodeAbsent 3 := by decide
theorem test_decode_cmd_11 : decode (.host (.call 0b11 3)) = .decodeAbsent 3 := by decide
theorem test_decode_port_start_enc : decode (.host (.port 0b00 6)) = .encStart false 6 := by decide
theorem test_decode_port_start_enc_absent : decode (.host (.port 0b10 6)) = .encStart true 6 := by decide
theorem test_decode_port_start_dec : decode (.host (.port 0b01 8)) = .decStart false 8 := by decide
theorem test_decode_port_start_dec_absent : decode (.host (.port 0b11 8)) = .decStart true 8 := by decide
theorem test_decode_enc_phases : [Phase.p0, .p1, .p2, .p3, .p4].map (fun p => decode (.encRun true p)) =
    [.encP0, .encP1, .encP2, .encP3, .encP4] := by decide
theorem test_decode_enc_end : [Phase.p0, .p1, .p2, .p3, .p4].map (fun p => decode (.encRun false p)) =
    [.encFinish, .encFlush, .encFlush, .encFlush, .encFlush] := by decide
theorem test_decode_dec_phases : [Phase.p0, .p1, .p2, .p3, .p4].map (fun p => decode (.decRun true p)) =
    [.decP0, .decP1, .decP2, .decP3, .decP4] := by decide
theorem test_decode_dec_end : decode (.decRun false .p3) = .decFinish := by decide
theorem test_decode_functions : decode (.host (.func (.romFwd 12))) = .romFwd 12 ∧
    decode (.host (.func (.romInv 0x3D))) = .romInv 0x3D ∧ decode (.host (.func (.lenEnc 6))) = .lenEnc 6 ∧
    decode (.host (.func (.lenDec 10))) = .lenDec 10 ∧ decode (.host (.func (.lenChk 6))) = .lenChk 6 := by decide
theorem test_decode_codes_0 : [0b01000001, 0b01000010, 0b01000011, 0b01000100, 0b01000101, 0b01000110, 0b01000111, 0b01001000].map decodeCode =
    [.symA, .symB, .symC, .symD, .symE, .symF, .symG, .symH] := by decide
theorem test_decode_codes_8 : [0b01001001, 0b01001010, 0b01001011, 0b01001100, 0b01001101, 0b01001110, 0b01001111, 0b01010000].map decodeCode =
    [.symI, .symJ, .symK, .symL, .symM, .symN, .symO, .symP] := by decide
theorem test_decode_codes_16 : [0b01010001, 0b01010010, 0b01010011, 0b01010100, 0b01010101, 0b01010110, 0b01010111, 0b01011000].map decodeCode =
    [.symQ, .symR, .symS, .symT, .symU, .symV, .symW, .symX] := by decide
theorem test_decode_codes_24 : [0b01011001, 0b01011010, 0b00110010, 0b00110011, 0b00110100, 0b00110101, 0b00110110, 0b00110111].map decodeCode =
    [.symY, .symZ, .sym2, .sym3, .sym4, .sym5, .sym6, .sym7] := by decide
theorem test_decode_neighbours : [0x31, 0x38, 0x40, 0x5B, 0x3D, 0x61, 0x00, 0xFF].map decodeCode =
    [.symInvalid 0x31, .symInvalid 0x38, .symInvalid 0x40, .symInvalid 0x5B, .symInvalid 0x3D, .symInvalid 0x61,
     .symInvalid 0x00, .symInvalid 0xFF] := by decide
theorem test_table_word_code : decodeTableWord 8 0x4D = some .symM := by decide
theorem test_table_word_command : decodeTableWord 2 0b11 = some (.decodeAbsent 0) := by decide
theorem test_table_word_other_width : tableWord 16 0x4D = .error .noSuchWidth := by decide
theorem test_table_word_too_wide : tableWord 2 4 = .error .tooWide := by decide

/-! Small states. -/

/-- A buffer's first elements. -/
def buf (bs : List Byte) : Memory := bs.zipIdx.map (fun p => (p.2, p.1))

/-- "foobar" as bytes (spec/95, section 1.1). -/
def foobar : Memory := buf [0x66, 0x6F, 0x6F, 0x62, 0x61, 0x72]

/-- "MZXW6YTBOI" as character codes (spec/95, section 1.1). -/
def foobarText : Memory := buf [0x4D, 0x5A, 0x58, 0x57, 0x36, 0x59, 0x54, 0x42, 0x4F, 0x49]

/-- ENC in `RUN` over "foobar" (the trace of spec/95, section 2.3), with a buffer of exactly 10 characters. -/
def encAt (p : Phase) (idx oidx : Nat) (carry : Nibble) : State :=
  { State.reset with
    inE := foobar, eCap := some 10,
    enc := { st := .run, len := 6, olen := 10, idx := idx, oidx := oidx, ph := p, carry := carry, status := .ok } }

/-- DEC in `RUN` over a text with `len` and `tgt` (the trace of spec/95, section 2.4), its buffer of exactly `tgt` bytes. -/
def decAt (text : Memory) (len tgt : Nat) (p : Phase) (idx oidx : Nat) (carry : Nibble) : State :=
  { State.reset with
    inD := text, dCap := some tgt,
    dec := { st := .run, len := len, tgt := tgt, olen := 0, idx := idx, oidx := oidx, ph := p, carry := carry,
             status := .ok, errChar := 0, errPos := 0 } }

/-- What a step leaves in a unit. -/
structure View where
  out : Memory
  carry : Nibble
  idx : Nat
  oidx : Nat
  ph : Phase
  st : Ctl
deriving DecidableEq, Repr

/-- What a step leaves in ENC: `OUT_E`, the carry, the indices, the phase, the control state. -/
def encView : Out → Option View
  | .next t => some ⟨t.outE, t.enc.carry, t.enc.idx, t.enc.oidx, t.enc.ph, t.enc.st⟩
  | .fault _ => none
  | .refused _ => none

/-- What a step leaves in DEC: `OUT_D`, the carry, the indices, the phase, the control state. -/
def decView : Out → Option View
  | .next t => some ⟨t.outD, t.dec.carry, t.dec.idx, t.dec.oidx, t.dec.ph, t.dec.st⟩
  | .fault _ => none
  | .refused _ => none

/-- DEC's report: status, output length, length, character, position. -/
def decReport : Out → Option (Status × Nat × Nat × Byte × Nat)
  | .next t => some (t.dec.status, t.dec.olen, t.dec.len, t.dec.errChar, t.dec.errPos)
  | .fault _ => none
  | .refused _ => none

/-- DEC's report without `D_LEN`, which an absent input leaves at any value (R172). -/
def decReportFixed (o : Out) : Option (Status × Nat × Byte × Nat) := (decReport o).map (fun r => (r.1, r.2.1, r.2.2.2))

/-- ENC's report: status, output length. -/
def encReport : Out → Option (Status × Nat)
  | .next t => some (t.enc.status, t.enc.olen)
  | .fault _ => none
  | .refused _ => none

/-- The answer a step leaves. -/
def respOf : Out → Option Response
  | .next t => some t.resp
  | .fault _ => none
  | .refused _ => none

/-- Why a step stopped. -/
def stopOf : Out → Option (Fault ⊕ Refusal)
  | .next _ => none
  | .fault f => some (.inl f)
  | .refused r => some (.inr r)

/-! Commands (spec/95, sections 1 and 2). -/

theorem test_encode_foobar : encView (exec (.encode 6) { State.reset with inE := foobar }) =
    some ⟨foobarText, 0b0010, 6, 10, .p1, .done⟩ := by decide
theorem test_encode_every_flush_phase : (exec (.encode 4) { State.reset with inE := buf [0xFF, 0xFF, 0xFF, 0xFF] } |> encView).map
    View.out = some (buf [0x37, 0x37, 0x37, 0x37, 0x37, 0x37, 0x59]) := by decide
theorem test_decode_foobar : decView (exec (.decode 10) { State.reset with inD := foobarText }) =
    some ⟨foobar, 0b0000, 10, 6, .p1, .done⟩ := by decide
theorem test_decode_padded : decReport (exec (.decode 8)
    { State.reset with inD := buf [0x4D, 0x5A, 0x58, 0x57, 0x36, 0x59, 0x51, 0x3D] }) = some (.errChar, 0, 8, 0x3D, 7) := by decide
theorem test_encode_absent : encReport (exec (.encodeAbsent 5) State.reset) = some (.errAbsent, 0) := by decide
theorem test_decode_absent : decReportFixed (exec (.decodeAbsent 5) State.reset) = some (.errAbsent, 0, 0, 0) := by decide

/-! Micro-steps of ENC: the trace of spec/95, section 2.3. -/

theorem test_encStart : (exec (.encStart false 6) State.reset |> encReport) = some (.ok, 10) := by decide
theorem test_encStart_busy : stopOf (exec (.encStart false 6) (encAt .p0 0 0 0)) = some (.inr .unitBusy) := by decide
theorem test_encP0 : encView (exec .encP0 (encAt .p0 0 0 0)) = some ⟨[(0, 0x4D)], 0b0110, 1, 1, .p1, .run⟩ := by decide
theorem test_encP1 : encView (exec .encP1 (encAt .p1 1 1 0b0110)) =
    some ⟨[(1, 0x5A), (2, 0x58)], 0b0001, 2, 3, .p2, .run⟩ := by decide
theorem test_encP2 : encView (exec .encP2 (encAt .p2 2 3 0b0001)) = some ⟨[(3, 0x57)], 0b1111, 3, 4, .p3, .run⟩ := by decide
theorem test_encP3 : encView (exec .encP3 (encAt .p3 3 4 0b1111)) =
    some ⟨[(4, 0x36), (5, 0x59)], 0b0010, 4, 6, .p4, .run⟩ := by decide
theorem test_encP4 : encView (exec .encP4 (encAt .p4 4 6 0b0010)) =
    some ⟨[(6, 0x54), (7, 0x42)], 0b0000, 5, 8, .p0, .run⟩ := by decide
theorem test_encP4_not_enabled : stopOf (exec .encP4 (encAt .p3 3 4 0b1111)) = some (.inl .notEnabled) := by decide
theorem test_encFlush : encView (exec .encFlush (encAt .p1 6 9 0b0010)) = some ⟨[(9, 0x49)], 0b0010, 6, 10, .p1, .done⟩ := by
  decide
theorem test_encFinish : encView (exec .encFinish (encAt .p0 6 10 0)) = some ⟨[], 0, 6, 10, .p0, .done⟩ := by decide

/-! Micro-steps of DEC: the trace of spec/95, section 2.4. -/

theorem test_decStart : decView (exec (.decStart false 10) State.reset) = some ⟨[], 0, 0, 0, .p0, .run⟩ := by decide
theorem test_decStart_bad_length : decReport (exec (.decStart false 3) State.reset) = some (.errLength, 0, 3, 0, 0) := by decide
theorem test_decP0 : decView (exec .decP0 (decAt foobarText 10 6 .p0 0 0 0)) = some ⟨[(0, 0x66)], 0b0001, 2, 1, .p1, .run⟩ := by
  decide
theorem test_decP1 : decView (exec .decP1 (decAt foobarText 10 6 .p1 2 1 0b0001)) =
    some ⟨[(1, 0x6F)], 0b0110, 4, 2, .p2, .run⟩ := by decide
theorem test_decP2 : decView (exec .decP2 (decAt foobarText 10 6 .p2 4 2 0b0110)) =
    some ⟨[(2, 0x6F)], 0b0000, 5, 3, .p3, .run⟩ := by decide
theorem test_decP3 : decView (exec .decP3 (decAt foobarText 10 6 .p3 5 3 0b0000)) =
    some ⟨[(3, 0x62)], 0b0011, 7, 4, .p4, .run⟩ := by decide
theorem test_decP4 : decView (exec .decP4 (decAt foobarText 10 6 .p4 7 4 0b0011)) =
    some ⟨[(4, 0x61)], 0b0000, 8, 5, .p0, .run⟩ := by decide
theorem test_decP0_second_bad : decReport (exec .decP0 (decAt (buf [0x41, 0x2A]) 2 1 .p0 0 0 0)) =
    some (.errChar, 0, 2, 0x2A, 1) := by decide
theorem test_decFinish : decReport (exec .decFinish (decAt foobarText 10 6 .p1 10 6 0)) = some (.ok, 6, 10, 0, 0) := by decide

/-! Combinational functions (spec/95, sections 2.1 and 2.2). -/

theorem test_romFwd_seam : respOf (exec (.romFwd 25) State.reset) = some (.code 0x5A) ∧
    respOf (exec (.romFwd 26) State.reset) = some (.code 0x32) := by decide
theorem test_romFwd_ends : respOf (exec (.romFwd 0) State.reset) = some (.code 0x41) ∧
    respOf (exec (.romFwd 31) State.reset) = some (.code 0x37) := by decide
theorem test_romInv_valid : [0x32, 0x37, 0x41, 0x5A, 0x4D].map (fun c => respOf (exec (.romInv c) State.reset)) =
    [some (.value (some 26)), some (.value (some 31)), some (.value (some 0)), some (.value (some 25)),
     some (.value (some 12))] := by decide
theorem test_romInv_invalid : [0x31, 0x38, 0x40, 0x5B, 0x3D, 0x61, 0xC1].map (fun c => respOf (exec (.romInv c) State.reset)) =
    List.replicate 7 (some (.value none)) := by decide
theorem test_lenEnc : [0, 1, 5, 20, 4096, 4294967295].map (fun n => respOf (exec (.lenEnc n) State.reset)) =
    [0, 2, 8, 32, 6554, 6871947672].map (fun n => some (.length n)) := by decide
theorem test_lenDec : [0, 1, 32, 6554].map (fun n => respOf (exec (.lenDec n) State.reset)) =
    [0, 0, 20, 4096].map (fun n => some (.length n)) := by decide
theorem test_lenChk_valid : [0, 2, 4, 5, 7, 8, 10, 16, 6554].map (fun n => respOf (exec (.lenChk n) State.reset)) =
    List.replicate 9 (some (.flag true)) := by decide
theorem test_lenChk_invalid : [1, 3, 6, 9, 11, 14, 17, 6553].map (fun n => respOf (exec (.lenChk n) State.reset)) =
    List.replicate 8 (some (.flag false)) := by decide

/-! Character codes. -/

theorem test_symbols_0 : [Instr.symA, Instr.symB, Instr.symC, Instr.symD, Instr.symE, Instr.symF, Instr.symG, Instr.symH].map
    (fun i => respOf (exec i State.reset)) =
    [0, 1, 2, 3, 4, 5, 6, 7].map (fun v => some (.value (some v))) := by decide
theorem test_symbols_8 : [Instr.symI, Instr.symJ, Instr.symK, Instr.symL, Instr.symM, Instr.symN, Instr.symO, Instr.symP].map
    (fun i => respOf (exec i State.reset)) =
    [8, 9, 10, 11, 12, 13, 14, 15].map (fun v => some (.value (some v))) := by decide
theorem test_symbols_16 : [Instr.symQ, Instr.symR, Instr.symS, Instr.symT, Instr.symU, Instr.symV, Instr.symW, Instr.symX].map
    (fun i => respOf (exec i State.reset)) =
    [16, 17, 18, 19, 20, 21, 22, 23].map (fun v => some (.value (some v))) := by decide
theorem test_symbols_24 : [Instr.symY, Instr.symZ, Instr.sym2, Instr.sym3, Instr.sym4, Instr.sym5, Instr.sym6, Instr.sym7].map
    (fun i => respOf (exec i State.reset)) =
    [24, 25, 26, 27, 28, 29, 30, 31].map (fun v => some (.value (some v))) := by decide
theorem test_symInvalid_looked_up : respOf (exec (.symInvalid 0x3D) State.reset) = some (.value none) := by decide
theorem test_symInvalid_consumed : decReport (exec (.symInvalid 0x3D) (decAt (buf [0x3D, 0x41]) 2 1 .p0 0 0 0)) =
    some (.errChar, 0, 2, 0x3D, 0) := by decide

/-! The step. -/

theorem test_step_runs_table_word : respOf (step (State.reset.withFetchWord 8 0x4D)) = some (.value (some 12)) := by decide
theorem test_step_runs_command : encReport (step (State.reset.withFetchWord 2 0b10)) = some (.errAbsent, 0) := by decide
theorem test_step_schedule_both : (step { decAt foobarText 10 6 .p0 0 0 0 with
      enc := (encAt .p0 0 0 0).enc, inE := foobar, pending := [.tick .both] } |> encView).map View.out =
    some [(0, 0x4D)] := by decide
theorem test_host_write_busy : stopOf (hostWrite .inE 0 0 (encAt .p0 0 0 0)) = some (.inr .bufferBusy) := by decide
theorem test_host_read_result : respOf (hostRead .outD 0 { State.reset with
    outD := buf [0x66], dec := { DecRegs.reset with st := .done, olen := 1 } }) = some (.element 0x66) := by decide
theorem test_host_read_result_after_an_error : respOf (andThen (andThen (exec (.encodeAbsent 0) { State.reset with inE := foobar })
    (exec (.encode 1))) (hostRead .outE 1)) = some (.element 0x59) := by decide
theorem test_host_read_after_a_shorter_result : respOf (andThen (andThen (andThen (exec (.encodeAbsent 0)
    { State.reset with inE := foobar }) (exec (.encode 2))) (exec (.encode 0))) (hostRead .outE 1)) = some (.element 0x5A) := by
  decide
theorem test_host_read_own_store_after_an_error : respOf (andThen (andThen (exec (.decode 1) State.reset)
    (hostWrite .outD 3 0x2A)) (hostRead .outD 3)) = some (.element 0x2A) := by decide
theorem test_rst_keeps_a_result : respOf (andThen (andThen (exec (.encodeAbsent 0) { State.reset with inE := foobar })
    (exec (.encode 1))) (fun s => hostRead .outE 0 (rstInput s))) = some (.element 0x4D) := by decide
theorem test_step_call_is_one_micro_step : (step { State.reset with inE := foobar, pending := [.word (.call 0 6)] } |> encView) =
    some ⟨[], 0, 0, 0, .p0, .run⟩ := by decide
theorem test_step_call_waits : (step { State.reset with inE := foobar, pending := [.word (.call 0 6), .rst] }) =
    .next { State.reset with inE := foobar, draw := 1, pending := [.await .enc, .rst], enc := (encAt .p0 0 0 0).enc } := rfl
theorem test_step_host_write_while_the_other_runs : (step { encAt .p1 1 1 6 with pending := [.write .inD 0 0x4D] }) =
    .next { encAt .p1 1 1 6 with draw := 1, pending := [], inD := [(0, 0x4D)] } := rfl
theorem test_step_host_read : respOf (step { State.reset with outD := buf [0x66], pending := [.read .outD 0] }) =
    some (.element 0x66) := by decide
theorem test_step_port_read : respOf (step { State.reset with
    enc := { EncRegs.reset with st := .done, olen := 10 }, pending := [.port .eOutlen] }) = some (.length 10) := by decide
theorem test_step_provide : (step { State.reset with pending := [.provide .enc 8] }) =
    .next { State.reset with draw := 1, eCap := some 8 } := rfl
theorem test_provided_buffer_is_unwritten : stopOf (andThen (provideBuffer .dec 2 { State.reset with outD := foobar })
    (hostRead .outD 0)) = some (.inl .unwritten) := by decide
theorem test_port_before_done : stopOf (hostPort .dLen State.reset) = some (.inl .portNotValid) := by decide
theorem test_buffer_too_small : stopOf (exec .encFlush { encAt .p1 6 9 0b0010 with eCap := some 9 }) =
    some (.inl .bufferTooSmall) := by decide
theorem test_write_out_of_range : stopOf (exec .encFlush (encAt .p1 6 10 0b0010)) = some (.inl .writeOutOfRange) := by decide
theorem test_input_not_written : stopOf (exec .encP0 { encAt .p0 5 8 0 with inE := [] }) = some (.inl .unwritten) := by decide

/-! Witnesses: for each statement with hypotheses, a state and operands that meet them together. -/

theorem buf_written_foobar : Written foobar 6 := by
  intro i hi; interval_cases i <;> exact ⟨_, rfl⟩

theorem room_some {n m : Nat} (h : m ≤ n) : HasRoom (some n) m := by
  intro c hc; cases hc; exact h

theorem room_none (m : Nat) : HasRoom none m := by intro c hc; cases hc

theorem text_valid_foobar : AllValid foobarText 10 := by
  intro j hj; interval_cases j <;> exact ⟨_, rfl⟩

theorem witness_rst : { State.reset with pending := [.rst] }.pending = .rst :: [] := rfl
theorem witness_rst_running : (encAt .p0 0 0 0).enc.st = .run ∧ (decAt foobarText 10 6 .p0 0 0 0).dec.st = .run := by decide
theorem witness_at_rest : State.reset.enc.st ≠ .run ∧ State.reset.dec.st ≠ .run := by decide
theorem witness_start_lengths : lenChk 3 = false ∧ lenChk 10 = true ∧ lenChk 0 = true := by decide
theorem witness_busy : (encAt .p0 0 0 0).enc.st = .run ∧ (decAt foobarText 10 6 .p0 0 0 0).dec.st = .run := by decide
theorem witness_encP0 : encEnabledAt .p0 (encAt .p0 5 8 0) ∧ Memory.read (encAt .p0 5 8 0).inE 5 = some 0x72 ∧
    OutRoomE (encAt .p0 5 8 0) 1 := ⟨by decide, by decide, by decide, room_some (by decide)⟩
theorem witness_encP1 : encEnabledAt .p1 (encAt .p1 1 1 6) ∧ Memory.read (encAt .p1 1 1 6).inE 1 = some 0x6F ∧
    OutRoomE (encAt .p1 1 1 6) 2 := ⟨by decide, by decide, by decide, room_some (by decide)⟩
theorem witness_encP2 : encEnabledAt .p2 (encAt .p2 2 3 1) ∧ Memory.read (encAt .p2 2 3 1).inE 2 = some 0x6F ∧
    OutRoomE (encAt .p2 2 3 1) 1 := ⟨by decide, by decide, by decide, room_some (by decide)⟩
theorem witness_encP3 : encEnabledAt .p3 (encAt .p3 3 4 15) ∧ Memory.read (encAt .p3 3 4 15).inE 3 = some 0x62 ∧
    OutRoomE (encAt .p3 3 4 15) 2 := ⟨by decide, by decide, by decide, room_some (by decide)⟩
theorem witness_encP4 : encEnabledAt .p4 (encAt .p4 4 6 2) ∧ Memory.read (encAt .p4 4 6 2).inE 4 = some 0x61 ∧
    OutRoomE (encAt .p4 4 6 2) 2 := ⟨by decide, by decide, by decide, room_some (by decide)⟩
theorem witness_encFlush : ∀ p ∈ [Phase.p1, .p2, .p3, .p4],
    (encAt p 6 9 2).enc.st = .run ∧ (encAt p 6 9 2).enc.idx = (encAt p 6 9 2).enc.len ∧ (encAt p 6 9 2).enc.ph ≠ .p0 ∧
    OutRoomE (encAt p 6 9 2) 1 := by
  intro p hp
  refine ⟨rfl, rfl, ?_, (by decide : 9 + 1 ≤ 10), room_some (by decide : 9 + 1 ≤ 10)⟩
  rintro (rfl : p = .p0)
  revert hp
  decide
theorem witness_encFinish : (encAt .p0 6 10 0).enc.st = .run ∧ (encAt .p0 6 10 0).enc.idx = (encAt .p0 6 10 0).enc.len ∧
    (encAt .p0 6 10 0).enc.ph = .p0 := by decide
theorem witness_decP0 : decEnabledAt .p0 (decAt foobarText 10 6 .p0 8 5 0) ∧ 8 + 1 < 10 ∧
    charValue foobarText 8 = some 14 ∧ charValue foobarText 9 = some 8 ∧ HasRoom (some 6) (5 + 1) :=
  ⟨by decide, by decide, by decide, by decide, room_some (by decide)⟩
theorem witness_decP1 : decEnabledAt .p1 (decAt foobarText 10 6 .p1 2 1 1) ∧ 2 + 1 < 10 ∧
    charValue foobarText 2 = some 23 ∧ charValue foobarText 3 = some 22 ∧ HasRoom (some 6) (1 + 1) :=
  ⟨by decide, by decide, by decide, by decide, room_some (by decide)⟩
theorem witness_decP2 : decEnabledAt .p2 (decAt foobarText 10 6 .p2 4 2 6) ∧ 4 < 10 ∧
    charValue foobarText 4 = some 30 ∧ HasRoom (some 6) (2 + 1) :=
  ⟨by decide, by decide, by decide, room_some (by decide)⟩
theorem witness_decP3 : decEnabledAt .p3 (decAt foobarText 10 6 .p3 5 3 0) ∧ 5 + 1 < 10 ∧
    charValue foobarText 5 = some 24 ∧ charValue foobarText 6 = some 19 ∧ HasRoom (some 6) (3 + 1) :=
  ⟨by decide, by decide, by decide, by decide, room_some (by decide)⟩
theorem witness_decP4 : decEnabledAt .p4 (decAt foobarText 10 6 .p4 7 4 3) ∧ 7 < 10 ∧
    charValue foobarText 7 = some 1 ∧ HasRoom (some 6) (4 + 1) :=
  ⟨by decide, by decide, by decide, room_some (by decide)⟩
theorem witness_decFinish : (decAt foobarText 10 6 .p1 10 6 0).dec.st = .run ∧
    (decAt foobarText 10 6 .p1 10 6 0).dec.oidx = (decAt foobarText 10 6 .p1 10 6 0).dec.tgt := by decide
theorem witness_first_bad : decEnabledAt .p4 (decAt (buf [0, 0, 0, 0, 0, 0, 0, 0x3D]) 8 5 .p4 7 4 0) ∧ 7 < 8 ∧
    Memory.read (buf [0, 0, 0, 0, 0, 0, 0, 0x3D]) 7 = some 0x3D ∧ romInv 0x3D = none := by decide
theorem witness_second_bad : decEnabledAt .p0 (decAt (buf [0x41, 0x2A]) 2 1 .p0 0 0 0) ∧ 0 + 1 < 2 ∧
    charValue (buf [0x41, 0x2A]) 0 = some 0 ∧ Memory.read (buf [0x41, 0x2A]) 1 = some 0x2A ∧ romInv 0x2A = none := by decide
theorem witness_not_enabled : ¬ encEnabledAt .p4 State.reset ∧ ¬ decEnabledAt .p0 State.reset := by decide
theorem witness_alphabet_row : alphabetRows[(26 : Symbol).toNat]? = some .sym2 ∧
    alphabetRows[(31 : Symbol).toNat]? = some .sym7 := by decide
theorem witness_invalid_code : romInv 0x3D = none ∧ decEnabledAt .p0 (decAt (buf [0x3D, 0x41]) 2 1 .p0 0 0 0) ∧ 0 < 2 ∧
    Memory.read (buf [0x3D, 0x41]) 0 = some 0x3D := by decide
theorem witness_enc_frame : (encView (exec .encP0 (encAt .p0 0 0 0))).isSome = true ∧
    (encView (exec .encFlush (encAt .p1 6 9 2))).isSome = true := by decide
theorem witness_dec_frame : (decView (exec .decP0 (decAt foobarText 10 6 .p0 0 0 0))).isSome = true ∧
    (decView (exec .decP0 (decAt (buf [0x41, 0x2A]) 2 1 .p0 0 0 0))).isSome = true := by decide
theorem witness_encode : State.reset.enc.st ≠ .run ∧ Written foobar 6 ∧ HasRoom (some 10) (lenEnc 6) :=
  ⟨by decide, buf_written_foobar, room_some (by decide)⟩
theorem witness_encode_empty : Written [] 0 ∧ HasRoom (some 0) (lenEnc 0) :=
  ⟨fun i hi => absurd hi (by omega), room_some (by decide)⟩
theorem witness_decode : State.reset.dec.st ≠ .run ∧ lenChk 10 = true ∧ AllValid foobarText 10 ∧
    HasRoom (some 6) (lenDec 10) := ⟨by decide, by decide, text_valid_foobar, room_some (by decide)⟩
theorem witness_decode_bad_length : State.reset.dec.st ≠ .run ∧ lenChk 1 = false := by decide
theorem witness_decode_first_bad : lenChk 2 = true ∧ FirstBad (buf [0x41, 0x3D]) 2 1 0x3D ∧ HasRoom (some 1) (lenDec 2) := by
  refine ⟨by decide, ⟨by decide, by decide, by decide, ?_⟩, room_some (by decide)⟩
  intro j hj; interval_cases j; exact ⟨_, rfl⟩
theorem witness_round_trip : (encView (exec (.encode 6) { State.reset with inE := foobar })).map View.out = some foobarText ∧
    State.reset.dec.st ≠ .run ∧ SameBelow foobarText { State.reset with inD := foobarText }.inD 10 ∧ HasRoom State.reset.dCap 6 :=
  ⟨by decide, by decide, fun _ _ => rfl, room_none 6⟩
theorem witness_converse_round_trip :
    (decView (exec (.decode 10) { State.reset with inD := foobarText })).map View.out = some foobar ∧ lenDec 10 = 6 ∧
    State.reset.enc.st ≠ .run ∧ SameBelow foobar { State.reset with inE := foobar }.inE 6 ∧ HasRoom State.reset.eCap 10 :=
  ⟨by decide, by decide, by decide, fun _ _ => rfl, room_none 10⟩
theorem witness_discarded_bits : AllValid (buf [0x4D, 0x59]) 2 ∧ AllValid (buf [0x4D, 0x5A]) 2 ∧
    (∀ m, m < 8 * lenDec 2 → outBit (buf [0x4D, 0x59]) m = outBit (buf [0x4D, 0x5A]) m) ∧
    outBit (buf [0x4D, 0x59]) 9 ≠ outBit (buf [0x4D, 0x5A]) 9 := by
  refine ⟨?_, ?_, ?_, by decide⟩
  · intro j hj; interval_cases j <;> exact ⟨_, rfl⟩
  · intro j hj; interval_cases j <;> exact ⟨_, rfl⟩
  · decide
theorem witness_same_input : SameBelow foobarText foobarText 10 ∧
    (decView (exec (.decode 10) { State.reset with inD := foobarText })).isSome = true ∧ SameBelow foobar foobar 6 ∧
    (encView (exec (.encode 6) { State.reset with inE := foobar })).isSome = true :=
  ⟨fun _ _ => rfl, by decide, fun _ _ => rfl, by decide⟩
theorem witness_units : (encView (unitStep .enc (encAt .p0 0 0 0))).isSome = true ∧
    (decView (unitStep .dec (decAt foobarText 10 6 .p0 0 0 0))).isSome = true := by decide
theorem witness_enc_inv_running : EncInv (encAt .p1 1 1 6) ∧ (encAt .p1 1 1 6).enc.st = .run :=
  ⟨⟨fun _ => by decide, fun h => (by cases h)⟩, rfl⟩
theorem witness_dec_inv_running : DecInv (decAt foobarText 10 6 .p1 2 1 1) ∧ (decAt foobarText 10 6 .p1 2 1 1).dec.st = .run := by
  refine ⟨fun _ => ⟨by decide, by decide, by decide, by decide, by decide, by decide, ?_, fun h => (by cases h), by decide,
    by decide, by decide, by decide, by decide⟩, rfl⟩
  intro j hj
  have : j < 2 := hj
  interval_cases j <;> exact ⟨_, rfl⟩
theorem buf_written_text : Written foobarText 10 := by
  intro i hi; interval_cases i <;> exact ⟨_, rfl⟩
theorem witness_enc_selects : EncInv (encAt .p1 1 1 6) ∧ (encAt .p1 1 1 6).enc.st = .run ∧
    Written (encAt .p1 1 1 6).inE 6 ∧ HasRoom (encAt .p1 1 1 6).eCap 10 :=
  ⟨witness_enc_inv_running.1, rfl, buf_written_foobar, room_some (by decide)⟩
theorem witness_dec_selects : DecInv (decAt foobarText 10 6 .p1 2 1 1) ∧ (decAt foobarText 10 6 .p1 2 1 1).dec.st = .run ∧
    Written (decAt foobarText 10 6 .p1 2 1 1).inD 10 ∧ HasRoom (decAt foobarText 10 6 .p1 2 1 1).dCap 6 :=
  ⟨witness_dec_inv_running.1, rfl, buf_written_text, room_some (by decide)⟩
theorem witness_quiet : (encAt .p1 1 1 6).pending = [] ∧ EncInv (encAt .p1 1 1 6) ∧ DecInv (encAt .p1 1 1 6) ∧
    HostReady (encAt .p1 1 1 6) :=
  ⟨rfl, witness_enc_inv_running.1, fun h => (by cases h), fun _ => ⟨buf_written_foobar, room_some (by decide)⟩,
   fun h => (by cases h)⟩
theorem witness_steps : (∃ t, step { State.reset with pending := [.word (.port 0 6)] } = .next t) ∧
    presentedLen (.word (.port 0 6)) = some 6 ∧ 6 < 2 ^ 3 := ⟨⟨_, rfl⟩, rfl, by decide⟩
theorem witness_report_inv : ReportInv { encAt .p1 6 10 2 with enc := { (encAt .p1 6 10 2).enc with st := .done } } :=
  ⟨fun _ => .inl (by decide), fun h => (by cases h)⟩
theorem witness_mem_inv : MemInv { encAt .p0 0 0 0 with dOpen := some { draw := 3, stored := [0, 2] } } := by
  unfold MemInv; decide
theorem witness_fits : FitsWidth 3 (encAt .p1 6 9 2) :=
  ⟨fun _ => by decide, fun h => (by cases h), fun h => (by cases h), fun h => (by cases h)⟩
theorem witness_done_holds : (∃ t, step { State.reset with enc := { EncRegs.reset with st := .done }, pending := [.tick .both] } =
    .next t) ∧ sparesUnit .enc (.tick .both) = true ∧ sparesUnit .enc (.word (.call 1 2)) = true ∧
    sparesUnit .dec (.word (.call 0 2)) = true := ⟨⟨_, rfl⟩, by decide, by decide, by decide⟩
theorem witness_ports : { DecRegs.reset with st := Ctl.done, status := .errAbsent }.st = .done ∧
    State.reset.dec.st ≠ .done := by decide
theorem witness_finish_invariants :
    EncInv { encAt .p0 0 0 0 with enc := { (encAt .p0 0 0 0).enc with len := 0, olen := 0 } } ∧
    DecInv (decAt [] 0 0 .p0 0 0 0) := by
  refine ⟨⟨fun _ => by decide, fun h => (by cases h)⟩, fun _ => ?_⟩
  exact ⟨by decide, by decide, by decide, by decide, by decide, by decide, fun j hj => absurd hj (Nat.not_lt_zero j),
    fun _ => rfl, by decide, by decide, by decide, by decide, by decide⟩
theorem witness_call : (exec (decode (.host (.call 0 6))) { State.reset with inE := foobar } |> encView).isSome = true ∧
    EncInv State.reset ∧ DecInv State.reset ∧ HostReady State.reset :=
  ⟨by decide, ⟨fun h => (by cases h), fun h => (by cases h)⟩, fun h => (by cases h), fun h => (by cases h), fun h => (by cases h)⟩
theorem witness_call_other_running : (decAt foobarText 10 6 .p1 2 1 1).enc.st ≠ .run ∧ HostReady (decAt foobarText 10 6 .p1 2 1 1) :=
  ⟨by decide, fun h => (by cases h), fun _ => ⟨buf_written_text, room_some (by decide)⟩⟩
theorem witness_await : busy .enc (encAt .p0 0 0 0) = true ∧ busy .dec (encAt .p0 0 0 0) = false := by decide
theorem witness_both_running : ({ encAt .p0 0 0 0 with dec := (decAt foobarText 10 6 .p0 0 0 0).dec }).dec.st = .run ∧
    (encAt .p0 0 0 0).enc.st = .run ∧ (encAt .p0 0 0 0).pending = [] := by decide
theorem witness_no_room : ¬ HasRoom (some 1) (1 + 2) ∧ 1 + 2 ≤ (encAt .p1 1 1 6).enc.olen ∧
    (exec .encP1 { encAt .p1 1 1 6 with eCap := some 2 } |> stopOf) = some (.inl .bufferTooSmall) :=
  ⟨fun h => absurd (h 1 rfl) (by decide), by decide, by decide⟩
theorem witness_no_room_dec : ¬ HasRoom (some 1) (1 + 1) ∧ 2 + 2 ≤ 10 ∧
    (exec .decP1 { decAt foobarText 10 6 .p1 2 1 1 with dCap := some 1 } |> stopOf) = some (.inl .bufferTooSmall) :=
  ⟨fun h => absurd (h 1 rfl) (by decide), by decide, by decide⟩
theorem witness_unwritten : encEnabledAt .p0 { encAt .p0 0 0 0 with inE := [] } ∧ Memory.read [] 0 = none ∧
    decEnabledAt .p0 (decAt (buf [0x41]) 2 1 .p0 0 0 0) ∧ charValue (buf [0x41]) 0 = some 0 ∧
    Memory.read (buf [0x41]) 1 = none := by decide
theorem witness_host_store_other_running : ctl Space.inD.owner (encAt .p1 1 1 6) ≠ .run ∧ (encAt .p1 1 1 6).enc.st = .run ∧
    (hostRead .inE 0 (encAt .p1 1 1 6) |> respOf) = some (.element 0x66) := by decide
theorem witness_requests : ∀ e ∈ [HostEvent.rst, .provide .enc 8, .write .inD 0 0x4D, .read .outD 0, .port .eOutlen],
    { State.reset with pending := [e] }.pending = e :: [] := fun _ _ => rfl
theorem witness_host_store : ctl Space.outE.owner State.reset ≠ .run ∧ ctl Space.inD.owner State.reset ≠ .run := by decide
theorem witness_absent_read : (exec (.encodeAbsent 5) State.reset |> encReport) = some (.errAbsent, 0) ∧
    (exec (.decodeAbsent 5) State.reset |> decReportFixed) = some (.errAbsent, 0, 0, 0) := by decide
theorem witness_host_read : (exec (.decode 3) State.reset |> decReport) = some (.errLength, 0, 3, 0, 0) := by decide
theorem witness_selected : selected .enc (encAt .p2 2 3 1) = some .encP2 ∧
    selected .dec (decAt foobarText 10 6 .p1 10 6 0) = some .decFinish := by decide
theorem witness_well_formed : (Instr.symInvalid 0x3D).wellFormed = true := by decide

end Sys2Proof.Machine.Tests
end

section
/-! PROOFS. The alphabet ROM and its inverse (spec/40): the rules of the two lookups, and the statements O3 and O4. -/

namespace Sys2Proof.Machine

/-- ROM.FWD as an operation only answers (R101). -/
@[simp] theorem exec_romFwd (v : Symbol) (s : State) :
    exec (.romFwd v) s = .next (s.withResp (.code (romFwd v))) := rfl

/-- ROM.INV as an operation only answers (R103). -/
@[simp] theorem exec_romInv (c : Byte) (s : State) :
    exec (.romInv c) s = .next (s.withResp (.value (romInv c))) := rfl

theorem rom_length : rom.length = 32 := rfl

/-- R102: the 32 entries are pairwise distinct. -/
theorem rom_nodup : rom.Nodup := by decide

/-- Every 5-bit value has an entry (R101), so the default of the lookup is never taken. -/
theorem romFwd_eq_getElem (v : Symbol) : romFwd v = rom[v.toNat]'(rom_length ▸ v.isLt) :=
  List.getD_eq_getElem _ _ _

/-- R100: the ROM in closed form, checked entry by entry over its 32 entries. -/
theorem romFwd_eq_closedForm (v : Symbol) :
    romFwd v = if v.toNat ≤ 25 then BitVec.ofNat 8 (0x41 + v.toNat) else BitVec.ofNat 8 (0x18 + v.toNat) := by
  revert v
  decide

/-- R102: ROM.FWD is injective, the entries being distinct. -/
theorem romFwd_injective : Function.Injective romFwd := by
  intro v w h
  rw [romFwd_eq_getElem, romFwd_eq_getElem, rom_nodup.getElem_inj_iff] at h
  exact BitVec.eq_of_toNat_eq h

/-- What ROM.INV answers is a value with that character. -/
theorem romFwd_of_romInv_eq_some {c : Byte} {v : Symbol} (h : romInv c = some v) : romFwd v = c := by
  obtain ⟨i, hfind, rfl⟩ := Option.map_eq_some_iff.mp h
  obtain ⟨hi, hc, -⟩ := List.findIdx?_eq_some_iff_getElem.mp hfind
  have hmod : (BitVec.ofNat 5 i).toNat = i := Nat.mod_eq_of_lt (hi.trans_eq rom_length)
  simpa only [romFwd_eq_getElem, hmod, beq_iff_eq] using hc

/-- ROM.INV answers `invalid` exactly for a code outside the ROM's image. -/
theorem romInv_eq_none_iff {c : Byte} : romInv c = none ↔ ∀ v, romFwd v ≠ c := by
  constructor
  · intro h v hv
    have hmem : romFwd v ∈ rom := romFwd_eq_getElem v ▸ List.getElem_mem _
    have hne := List.findIdx?_eq_none_iff.mp (Option.map_eq_none_iff.mp h) _ hmem
    exact ne_of_beq_false hne hv
  · intro h
    cases hr : romInv c with
    | none => rfl
    | some v => exact absurd (romFwd_of_romInv_eq_some hr) (h v)

/-- R103: ROM.INV inverts ROM.FWD. A character of the alphabet is not `invalid`, and by R102 only one value has it. -/
theorem romInv_eq_some_iff {c : Byte} {v : Symbol} : romInv c = some v ↔ romFwd v = c := by
  refine ⟨romFwd_of_romInv_eq_some, fun h => ?_⟩
  cases hr : romInv c with
  | none => exact absurd h (romInv_eq_none_iff.mp hr v)
  | some w => rw [romFwd_injective ((romFwd_of_romInv_eq_some hr).trans h.symm)]

/-- Settles O3: the operation answers `romFwd v`, whose closed form R100 gives. -/
theorem romFwdAnswersTheAlphabet : Obligations.RomFwdAnswersTheAlphabet := by
  intro v s
  rw [exec_romFwd, romFwd_eq_closedForm]

/-- Settles O4: the answer is `romInv c`, which inverts `romFwd` and is `invalid` outside its image. -/
theorem romInvAnswersTheInverse : Obligations.RomInvAnswersTheInverse :=
  fun c s => ⟨romInv c, exec_romInv c s, fun _ => romInv_eq_some_iff, romInv_eq_none_iff⟩

end Sys2Proof.Machine
end

section
/-! PROOFS. The length functions (spec/41): the rules of LEN.ENC and LEN.CHK, and the statements O6 and O8. -/

namespace Sys2Proof.Machine

/-- LEN.ENC as an operation only answers (R121). -/
@[simp] theorem exec_lenEnc (n : Nat) (s : State) :
    exec (.lenEnc n) s = .next (s.withResp (.length (lenEnc n))) := rfl

/-- LEN.CHK as an operation only answers (R124). -/
@[simp] theorem exec_lenChk (l : Nat) (s : State) :
    exec (.lenChk l) s = .next (s.withResp (.flag (lenChk l))) := rfl

/-- R121 as the ceiling's defining property: `k` characters hold `n` bytes exactly where their `5 * k` bits do. -/
theorem lenEnc_le_iff {n k : Nat} : lenEnc n ≤ k ↔ 8 * n ≤ 5 * k := by
  unfold lenEnc
  omega

/-- R125: the empty text is valid, and the check never evaluates `0 - 1`. -/
@[simp] theorem lenChk_zero : lenChk 0 = true := rfl

/-- R124: a length from 1 on is valid exactly where one character less decodes to another byte count. -/
@[simp] theorem lenChk_succ {l : Nat} : lenChk (l + 1) = true ↔ lenDec (l + 1) ≠ lenDec l := bne_iff_ne

/-- Settles O6: the answer is `lenEnc n`, the least length whose bits hold those of `n` bytes. -/
theorem lenEncAnswersTheCeiling : Obligations.LenEncAnswersTheCeiling :=
  fun n s => ⟨lenEnc n, exec_lenEnc n s, lenEnc_le_iff.mp le_rfl, fun _ => lenEnc_le_iff.mpr⟩

/-- Settles O8: the answer is `lenChk l`, by the two cases of its definition. -/
theorem lenChkAnswersMinimality : Obligations.LenChkAnswersMinimality := by
  intro l s
  refine ⟨lenChk l, exec_lenChk l s, ?_, ?_⟩
  · rintro rfl
    exact lenChk_zero
  · intro hl
    obtain ⟨k, rfl⟩ := Nat.exists_eq_add_of_le' hl
    exact lenChk_succ

end Sys2Proof.Machine
end

section
/-! PROOFS. The encoder's bitstream (R54, R76, R140): a number cut from it bit by bit, and what a P-step and ENC.FLUSH cut
from the carry and the byte read. -/

namespace Sys2Proof.Machine

/-- A number cut from a bitstream has the stream's bits, the earliest most significant (R54). -/
theorem testBit_bitsFrom (f : Nat → Bool) (start n i : Nat) :
    (bitsFrom f start n).testBit i = (decide (i < n) && f (start + (n - 1 - i))) := by
  induction n generalizing i with
  | zero => simp [bitsFrom]
  | succ n ih =>
    have hbit : bitsFrom f start (n + 1) = Nat.bit (f (start + n)) (bitsFrom f start n) := by
      cases h : f (start + n) <;> simp [bitsFrom, Nat.bit, h]
    rw [hbit]
    cases i with
    | zero => simp
    | succ i =>
      rw [Nat.testBit_bit_succ, ih]
      simp [show n - (i + 1) = n - 1 - i by omega]

/-- A word equals a number cut from a bitstream exactly where its bits are the stream's. -/
theorem toNat_eq_bitsFrom_iff {w : Nat} {x : BitVec w} {f : Nat → Bool} {start n : Nat} :
    x.toNat = bitsFrom f start n ↔ ∀ i, x.getLsbD i = (decide (i < n) && f (start + (n - 1 - i))) := by
  constructor
  · intro h i
    rw [← BitVec.testBit_toNat, h, testBit_bitsFrom]
  · intro h
    refine Nat.eq_of_testBit_eq fun i => ?_
    rw [BitVec.testBit_toNat, h, testBit_bitsFrom]

/-- `val(k)` bit by bit (R140). -/
theorem getLsbD_encVal (m : Memory) (n k : Nat) {i : Nat} (hi : i < 5) :
    (encVal m n k).getLsbD i = inBit m n (5 * k + (4 - i)) := by
  rw [encVal, BitVec.getLsbD_ofNat, testBit_bitsFrom]
  simp [hi]

/-- Bit `j` of byte `i`, the most significant bit first (R54). -/
theorem inBit_of_byte {m : Memory} {n i j : Nat} {b : Byte} (hb : Memory.read m i = some b) (hi : i < n) (hj : j < 8) :
    inBit m n (8 * i + j) = b.getLsbD (7 - j) := by
  unfold inBit
  rw [if_pos (by omega), show (8 * i + j) / 8 = i by omega, show (8 * i + j) % 8 = j by omega, hb]
  rfl

/-- The bits of the bytes there are do not depend on how many there are. -/
theorem inBit_congr_length (m : Memory) {n n' k : Nat} (hk : k < 8 * n) (hk' : k < 8 * n') :
    inBit m n k = inBit m n' k := by
  unfold inBit
  rw [if_pos hk, if_pos hk']

/-- From the last byte on the bitstream is padded with zeros (R140). -/
theorem inBit_of_le (m : Memory) {n k : Nat} (hk : 8 * n ≤ k) : inBit m n k = false :=
  if_neg (by omega)

/-- `W[p]`, the number of bits the carry holds in phase `p` (R22). -/
def carryWidth (p : Phase) : Nat := 8 * p.toNat % 5

/-- A phase advance counts modulo 5 (R28). -/
theorem Phase.toNat_next (p : Phase) : p.next.toNat = (p.toNat + 1) % 5 := by
  cases p <;> rfl

theorem Phase.eq_p0_iff {p : Phase} : p = .p0 ↔ p.toNat = 0 := by
  cases p <;> decide

/-- A P-step cuts as many symbols as the carry and the byte hold. -/
theorem length_encSymbols (p : Phase) (carry : Nibble) (b : Byte) :
    (encSymbols p carry b).length = (carryWidth p + 8) / 5 := by
  cases p <;> simp [encSymbols, carryWidth, Phase.toNat]

/-- A P-step's symbols are consecutive slices of the carry followed by the byte (R76, R143 to R147). -/
theorem getLsbD_encSymbols (p : Phase) (carry : Nibble) (b : Byte) {k i : Nat}
    (hk : k < (encSymbols p carry b).length) (hi : i < 5) :
    (encSymbols p carry b)[k].getLsbD i = (carry ++ b).getLsbD (carryWidth p + 8 - 5 * (k + 1) + i) := by
  cases p <;> simp only [encSymbols, List.length_cons, List.length_nil] at hk <;> interval_cases k <;>
    simp only [encSymbols, carryWidth, Phase.toNat, List.getElem_cons_zero, List.getElem_cons_succ] <;>
    grind [BitVec.getLsbD_extractLsb]

/-- A P-step keeps the low bits of its byte, as many as the next phase's carry holds (R143 to R147). -/
theorem getLsbD_encCarry (p : Phase) (b : Byte) (i : Nat) :
    (encCarry p b).getLsbD i = (decide (i < carryWidth p.next) && b.getLsbD i) := by
  cases p <;> simp only [encCarry, carryWidth, Phase.next, Phase.toNat] <;> grind [BitVec.getLsbD_extractLsb]

/-- ENC.FLUSH cuts the carry's bits, padded with zeros below (R148). -/
theorem getLsbD_flushSymbol {p : Phase} (hp : p ≠ .p0) (carry : Nibble) {i : Nat} (hi : i < 5) :
    (flushSymbol p carry).getLsbD i = (decide (5 ≤ carryWidth p + i) && carry.getLsbD (carryWidth p + i - 5)) := by
  cases p <;> simp only [flushSymbol, carryWidth, Phase.toNat] <;> grind [BitVec.getLsbD_extractLsb]

section
variable {m : Memory} {idx : Nat} {p : Phase} {carry : Nibble} {b : Byte}

/-- `W[p]` counts the bits read that fill no whole character (R22). -/
theorem carryWidth_eq (hp : p.toNat = idx % 5) : carryWidth p = 8 * idx % 5 := by
  unfold carryWidth
  omega

/-- Before byte `idx` a P-step has `W[p]` bits of carry and 8 bits of byte: what it emits ends where the next carry begins. -/
theorem oidx_add_length_encSymbols (hp : p.toNat = idx % 5) :
    8 * idx / 5 + (encSymbols p carry b).length = 8 * (idx + 1) / 5 := by
  rw [length_encSymbols, carryWidth_eq hp]
  omega

/-- The carry followed by byte `idx` are the bitstream's last bits up to that byte's end (R23, R54). -/
theorem getLsbD_carry_append
    (hc : carry.toNat = bitsFrom (inBit m idx) (8 * idx - 8 * idx % 5) (8 * idx % 5))
    (hb : Memory.read m idx = some b) {j : Nat} (hj : j < 8 * idx % 5 + 8) :
    (carry ++ b).getLsbD j = inBit m (idx + 1) (8 * idx + 7 - j) := by
  rw [BitVec.getLsbD_append]
  split
  · rw [show 8 * idx + 7 - j = 8 * idx + (7 - j) by omega, inBit_of_byte hb (by omega) (by omega)]
    congr 1
    omega
  · rw [toNat_eq_bitsFrom_iff.1 hc, decide_eq_true (by omega), Bool.true_and,
      inBit_congr_length m (n' := idx + 1) (by omega) (by omega)]
    congr 1
    omega

/-- A P-step emits the next characters of the bitstream (R140), whatever bytes follow the one it reads. -/
theorem encSymbols_eq_map_encVal {n : Nat} (hp : p.toNat = idx % 5)
    (hc : carry.toNat = bitsFrom (inBit m idx) (8 * idx - 8 * idx % 5) (8 * idx % 5))
    (hb : Memory.read m idx = some b) (hn : idx < n) :
    encSymbols p carry b = (List.range' (8 * idx / 5) (encSymbols p carry b).length).map (encVal m n) := by
  refine List.ext_getElem (by simp) fun k hk _ => BitVec.eq_of_getLsbD_eq fun i hi => ?_
  have hlen := hk
  rw [length_encSymbols, carryWidth_eq hp] at hlen
  rw [getLsbD_encSymbols p carry b hk hi, carryWidth_eq hp, getLsbD_carry_append hc hb (by omega), List.getElem_map,
    List.getElem_range', getLsbD_encVal m n _ hi, inBit_congr_length m (n' := n) (by omega) (by omega)]
  congr 1
  omega

/-- A P-step leaves the bits of the bitstream that fill no whole character (R23). -/
theorem toNat_encCarry (hp : p.toNat = idx % 5) (hb : Memory.read m idx = some b) :
    (encCarry p b).toNat =
      bitsFrom (inBit m (idx + 1)) (8 * (idx + 1) - 8 * (idx + 1) % 5) (8 * (idx + 1) % 5) := by
  refine toNat_eq_bitsFrom_iff.2 fun i => ?_
  have hw : carryWidth p.next = 8 * (idx + 1) % 5 := carryWidth_eq (by rw [Phase.toNat_next]; omega)
  rw [getLsbD_encCarry, hw]
  by_cases hi : i < 8 * (idx + 1) % 5
  · rw [show 8 * (idx + 1) - 8 * (idx + 1) % 5 + (8 * (idx + 1) % 5 - 1 - i) = 8 * idx + (7 - i) by omega,
      inBit_of_byte hb (by omega) (by omega), show 7 - (7 - i) = i by omega]
  · simp [hi]

/-- After the last byte ENC.FLUSH emits the last character, its missing bits being the bitstream's padding (R140, R148). -/
theorem flushSymbol_eq_encVal (hp : p.toNat = idx % 5) (hp0 : p ≠ .p0)
    (hc : carry.toNat = bitsFrom (inBit m idx) (8 * idx - 8 * idx % 5) (8 * idx % 5)) :
    flushSymbol p carry = encVal m idx (8 * idx / 5) := by
  refine BitVec.eq_of_getLsbD_eq fun i hi => ?_
  rw [getLsbD_flushSymbol hp0 carry hi, carryWidth_eq hp, getLsbD_encVal m idx _ hi]
  by_cases hpad : 5 ≤ 8 * idx % 5 + i
  · rw [decide_eq_true hpad, Bool.true_and, toNat_eq_bitsFrom_iff.1 hc, decide_eq_true (by omega), Bool.true_and]
    congr 1
    omega
  · rw [decide_eq_false hpad, Bool.false_and, inBit_of_le m (by omega)]

end

end Sys2Proof.Machine
end

section
/-! PROOFS. The encoder unit (spec/42): the rules of its micro-steps, the invariant they keep, the end of its run, and the
statements O10, O14, O19, O20 and O29. -/

namespace Sys2Proof.Machine

/-- ENC.START with an absent input, on a unit at rest (R142). -/
theorem encStart_absent {s : State} (len : Nat) (h : s.enc.st ≠ .run) :
    encStart true len s = .next (raise .enc .absent s) := by
  rw [encStart, if_neg h, if_pos rfl]

/-- The registers ENC.START sets for a run of `len` bytes (R142). -/
def EncRegs.started (len : Nat) : EncRegs :=
  { st := .run, len := len, olen := lenEnc len, idx := 0, oidx := 0, ph := .p0, carry := 0, status := .ok }

/-- ENC.START with an input, on a unit at rest (R142). -/
theorem encStart_present {s : State} (len : Nat) (h : s.enc.st ≠ .run) :
    encStart false len s = .next (s.withEnc (.started len)) := by
  rw [encStart, if_neg h, if_neg Bool.false_ne_true, EncRegs.started]

/-- ENC.FLUSH where it is enabled and there is room (R148). -/
theorem encFlush_eq {s : State} (he : s.enc.st = .run ∧ s.enc.idx = s.enc.len ∧ s.enc.ph ≠ .p0) (hroom : OutRoomE s 1) :
    encFlush s = .next ((s.storeOutE s.enc.oidx (romFwd (flushSymbol s.enc.ph s.enc.carry))).withEnc
      { s.enc with oidx := s.enc.oidx + 1, st := .done }) := by
  have hwrite : memWriteOutE s s.enc.oidx [romFwd (flushSymbol s.enc.ph s.enc.carry)] =
      .ok (s.storeOutE s.enc.oidx (romFwd (flushSymbol s.enc.ph s.enc.carry))) :=
    memWriteOutE_ok.2 ⟨fun _ => hroom, rfl⟩
  simp only [encFlush, if_pos he, hwrite]

/-- ENC.FINISH where it is enabled (R149). -/
theorem encFinish_eq {s : State} (he : s.enc.st = .run ∧ s.enc.idx = s.enc.len ∧ s.enc.ph = .p0) :
    encFinish s = .next (s.withEnc { s.enc with st := .done }) :=
  if_pos he

/-- ENC's micro-step while bytes are left is the P-step of its phase (R141). -/
theorem encMicro_of_more {s : State} (hrun : s.enc.st = .run) (hmore : s.enc.idx < s.enc.len) :
    encMicro s = encPhaseStep s.enc.ph s := by
  rw [encMicro, if_pos hrun, if_pos hmore]

/-- ENC's micro-step after the last byte is ENC.FINISH on a group boundary and ENC.FLUSH elsewhere (R141). -/
theorem encMicro_of_all_read {s : State} (hrun : s.enc.st = .run) (hend : s.enc.idx = s.enc.len) :
    encMicro s = if s.enc.ph = .p0 then encFinish s else encFlush s := by
  rw [encMicro, if_pos hrun, if_neg hend.not_lt, if_pos hend]

/-- A run of selected micro-steps is the run of ENC's whole operation. -/
theorem unitRun_enc (n : Nat) (s : State) : unitRun .enc n s = encRun n s := by
  induction n generalizing s with
  | zero => rfl
  | succ n ih =>
    have htail : unitRun .enc n = encRun n := funext ih
    rw [unitRun, encRun, unitStep_enc, htail]

/-- On a group boundary the P-steps have emitted every character (R121, R149). -/
theorem lenEnc_of_mod_eq_zero {n : Nat} (h : n % 5 = 0) : lenEnc n = 8 * n / 5 := by
  unfold lenEnc
  omega

/-- Off a group boundary ENC.FLUSH has one character left to emit (R121, R148). -/
theorem lenEnc_of_mod_ne_zero {n : Nat} (h : n % 5 ≠ 0) : lenEnc n = 8 * n / 5 + 1 := by
  have hbits : 8 * n % 5 ≠ 0 := by omega
  unfold lenEnc
  omega

/-- Right before ENC.FLUSH, one character is left to emit. -/
theorem EncInv.oidx_add_one_eq_olen {s : State} (hinv : EncInv s) (hrun : s.enc.st = .run) (hend : s.enc.idx = s.enc.len)
    (hp0 : s.enc.ph ≠ .p0) : s.enc.oidx + 1 = s.enc.olen := by
  obtain ⟨hp, hoidx, -, holen, -, -⟩ := hinv.1 hrun
  rw [ne_eq, Phase.eq_p0_iff, hp, hend] at hp0
  rw [hoidx, holen, hend, lenEnc_of_mod_ne_zero hp0]

/-- On a group boundary, all bytes read, every character has been emitted (R149). -/
theorem EncInv.oidx_eq_olen {s : State} (hinv : EncInv s) (hrun : s.enc.st = .run) (hend : s.enc.idx = s.enc.len)
    (hp0 : s.enc.ph = .p0) : s.enc.oidx = s.enc.olen := by
  obtain ⟨hp, hoidx, -, holen, -, -⟩ := hinv.1 hrun
  rw [Phase.eq_p0_iff, hp, hend] at hp0
  rw [hoidx, holen, hend, lenEnc_of_mod_eq_zero hp0]

/-- On a group boundary the carry is empty (R149). -/
theorem EncInv.carry_eq_zero {s : State} (hinv : EncInv s) (hrun : s.enc.st = .run) (hp0 : s.enc.ph = .p0) :
    s.enc.carry = 0 := by
  obtain ⟨hp, -, -, -, -, hcarry⟩ := hinv.1 hrun
  rw [Phase.eq_p0_iff] at hp0
  rw [show 8 * s.enc.idx % 5 = 0 by omega] at hcarry
  exact BitVec.eq_of_toNat_eq hcarry

/-! What ENC.START and the micro-steps keep. -/

/-- ENC.START establishes ENC's invariant, whatever the input (R23). -/
theorem encInv_started (s : State) (len : Nat) : EncInv (s.withEnc (.started len)) :=
  ⟨fun _ => ⟨rfl, by simp [EncRegs.started], Nat.zero_le len, rfl, rfl, by simp [EncRegs.started, bitsFrom]⟩,
    fun hdone => nomatch hdone⟩

theorem encPhaseStep_keeps_encInv {p : Phase} {s t : State} (hinv : EncInv s) (h : encPhaseStep p s = .next t) :
    EncInv t := by
  obtain ⟨b, ⟨hrun, hmore, rfl⟩, hb, -, rfl⟩ := encPhaseStep_next h
  obtain ⟨hp, hoidx, -, holen, hstatus, -⟩ := hinv.1 hrun
  refine ⟨fun _ => ⟨?_, ?_, hmore, holen, hstatus, toNat_encCarry hp hb⟩, fun hdone => ?_⟩
  · simp only [State.withEnc_enc, Phase.toNat_next, hp]
    omega
  · simp only [State.withEnc_enc, hoidx, oidx_add_length_encSymbols hp]
  · exact absurd (hrun.symm.trans hdone) (by decide)

theorem encFlush_keeps_encInv {s t : State} (hinv : EncInv s) (h : encFlush s = .next t) : EncInv t := by
  obtain ⟨⟨hrun, hend, hp0⟩, -, rfl⟩ := encFlush_next h
  exact ⟨fun hrun' => (nomatch hrun'), fun _ _ => hinv.oidx_add_one_eq_olen hrun hend hp0⟩

theorem encFinish_keeps_encInv {s t : State} (hinv : EncInv s) (h : encFinish s = .next t) : EncInv t := by
  obtain ⟨⟨hrun, hend, hp0⟩, rfl⟩ := encFinish_next h
  exact ⟨fun hrun' => (nomatch hrun'), fun _ _ => hinv.oidx_eq_olen hrun hend hp0⟩

/-- Every micro-step of ENC keeps ENC's invariant (R23). -/
theorem encMicro_keeps_encInv {s t : State} (hinv : EncInv s) (h : encMicro s = .next t) : EncInv t := by
  rcases encMicro_next h with rfl | ⟨p, h⟩ | h | h
  · exact hinv
  · exact encPhaseStep_keeps_encInv hinv h
  · exact encFlush_keeps_encInv hinv h
  · exact encFinish_keeps_encInv hinv h

/-! The run reaches `DONE`. -/

/-- With a byte left, written, and room for all characters, a micro-step answers: one byte read, everything the run's end
depends on as before. -/
theorem encMicro_reads_byte {s : State} (hinv : EncInv s) (hrun : s.enc.st = .run) (hmore : s.enc.idx < s.enc.len)
    (hwritten : Written s.inE s.enc.len) (hroom : HasRoom s.eCap s.enc.olen) :
    ∃ t, encMicro s = .next t ∧ t.enc.st = .run ∧ t.enc.idx = s.enc.idx + 1 ∧ t.enc.len = s.enc.len ∧
      t.enc.olen = s.enc.olen ∧ t.inE = s.inE ∧ t.eCap = s.eCap := by
  obtain ⟨hp, hoidx, -, holen, -, -⟩ := hinv.1 hrun
  obtain ⟨b, hb⟩ := hwritten _ hmore
  have hfits : s.enc.oidx + (encSymbols s.enc.ph s.enc.carry b).length ≤ s.enc.olen := by
    rw [hoidx, oidx_add_length_encSymbols hp, holen, lenEnc]
    omega
  refine ⟨_, (encMicro_of_more hrun hmore).trans
    (encPhaseStep_eq ⟨hrun, hmore, rfl⟩ hb ⟨hfits, hroom.mono hfits⟩), ?_⟩
  simp [hrun]

/-- After the last byte, with room for all characters, a micro-step ends the operation. -/
theorem encMicro_ends {s : State} (hinv : EncInv s) (hrun : s.enc.st = .run) (hend : s.enc.idx = s.enc.len)
    (hroom : HasRoom s.eCap s.enc.olen) : ∃ t, encMicro s = .next t ∧ t.enc.st = .done := by
  rw [encMicro_of_all_read hrun hend]
  split
  · next hp0 => exact ⟨_, encFinish_eq ⟨hrun, hend, hp0⟩, rfl⟩
  · next hp0 =>
    have hfits : s.enc.oidx + 1 ≤ s.enc.olen := (hinv.oidx_add_one_eq_olen hrun hend hp0).le
    exact ⟨_, encFlush_eq ⟨hrun, hend, hp0⟩ ⟨hfits, hroom.mono hfits⟩, rfl⟩

/-- The host's part done, a run of ENC is in `DONE` after one micro-step per byte left and one more (R141, R150). -/
theorem encRun_reaches_done {s : State} (hinv : EncInv s) (hrun : s.enc.st = .run) (hwritten : Written s.inE s.enc.len)
    (hroom : HasRoom s.eCap s.enc.olen) :
    ∃ t, encRun (s.enc.len - s.enc.idx + 1) s = .next t ∧ t.enc.st = .done := by
  obtain ⟨-, -, hle, -, -, -⟩ := hinv.1 hrun
  induction hleft : s.enc.len - s.enc.idx generalizing s with
  | zero =>
    obtain ⟨t, ht, hdone⟩ := encMicro_ends hinv hrun (by omega) hroom
    exact ⟨t, andThen_eq_next.2 ⟨t, ht, rfl⟩, hdone⟩
  | succ n ih =>
    obtain ⟨u, hu, hrun', hidx, hlen, holen, hinE, hcap⟩ := encMicro_reads_byte hinv hrun (by omega) hwritten hroom
    obtain ⟨t, ht, hdone⟩ := ih (encMicro_keeps_encInv hinv hu) hrun' (by rwa [hinE, hlen]) (by rwa [hcap, holen])
      (by omega) (by omega)
    exact ⟨t, andThen_eq_next.2 ⟨u, hu, ht⟩, hdone⟩

/-! What the control state selects. -/

/-- R141's table as one rule: what is selected is read off the comparison and the phase, and nothing outside `RUN`. -/
theorem selected_enc_eq_some_iff {s : State} {i : Instr} :
    selected .enc s = some i ↔ s.enc.st = .run ∧
      ((s.enc.idx < s.enc.len ∧ decodeEnc true s.enc.ph = i) ∨ (s.enc.idx = s.enc.len ∧ decodeEnc false s.enc.ph = i)) := by
  unfold selected encKey
  by_cases hrun : s.enc.st = .run
  · rcases lt_trichotomy s.enc.idx s.enc.len with h | h | h
    · simp [hrun, h, h.ne, decode]
    · simp [hrun, h, decode]
    · simp [hrun, h.not_gt, h.ne']
  · simp [hrun]

/-- R141: the row of each P-step. -/
theorem selected_enc_phase_iff (p : Phase) {s : State} :
    selected .enc s = some (decodeEnc true p) ↔ encEnabledAt p s := by
  have hsame : decodeEnc true s.enc.ph = decodeEnc true p ↔ s.enc.ph = p := by
    cases s.enc.ph <;> cases p <;> decide
  have hother : decodeEnc false s.enc.ph ≠ decodeEnc true p := by
    cases s.enc.ph <;> cases p <;> decide
  rw [selected_enc_eq_some_iff, hsame]
  simp [hother, encEnabledAt]

/-- R141: the row of ENC.FLUSH. -/
theorem selected_enc_flush_iff {s : State} :
    selected .enc s = some .encFlush ↔ s.enc.st = .run ∧ s.enc.idx = s.enc.len ∧ s.enc.ph ≠ .p0 := by
  rw [selected_enc_eq_some_iff]
  cases s.enc.ph <;> simp [decodeEnc]

/-- R141: the row of ENC.FINISH. -/
theorem selected_enc_finish_iff {s : State} :
    selected .enc s = some .encFinish ↔ s.enc.st = .run ∧ s.enc.idx = s.enc.len ∧ s.enc.ph = .p0 := by
  rw [selected_enc_eq_some_iff]
  cases s.enc.ph <;> simp [decodeEnc]

/-- R141: outside `RUN` the unit holds its state. -/
theorem unitStep_enc_of_not_run {s : State} (h : s.enc.st ≠ .run) : unitStep .enc s = .next s := by
  rw [unitStep_enc, encMicro, if_neg h]

/-- R82: a command with `OP` = 0 presents ENC.START. -/
theorem decodePort_of_not_op {cmd : Command} (len : Nat) (h : cmdOp cmd = false) :
    decodePort cmd len = .encStart (cmdAbsent cmd) len := by
  rw [decodePort, h]

/-- R141: in `RUN` a micro-step is always selected, the index never passing the length. -/
theorem EncInv.selected_isSome {s : State} (hinv : EncInv s) (hrun : s.enc.st = .run) :
    (selected .enc s).isSome = true := by
  obtain ⟨-, -, hle, -, -, -⟩ := hinv.1 hrun
  rw [Option.isSome_iff_exists]
  rcases hle.lt_or_eq with hmore | hend
  · exact ⟨_, selected_enc_eq_some_iff.2 ⟨hrun, .inl ⟨hmore, rfl⟩⟩⟩
  · exact ⟨_, selected_enc_eq_some_iff.2 ⟨hrun, .inr ⟨hend, rfl⟩⟩⟩

/-- Settles O29: the table is `selected_enc_phase_iff` and its two companions, the end of the run `encRun_reaches_done`. -/
theorem encoderSelectsByItsControlState : Obligations.EncoderSelectsByItsControlState := by
  intro s
  refine ⟨selected_enc_phase_iff .p0, selected_enc_phase_iff .p1, selected_enc_phase_iff .p2,
    selected_enc_phase_iff .p3, selected_enc_phase_iff .p4, selected_enc_flush_iff, selected_enc_finish_iff,
    unitStep_enc_of_not_run, fun _ => decodePort_of_not_op, fun hinv hrun => ⟨hinv.selected_isSome hrun, ?_⟩⟩
  intro hwritten hroom
  obtain ⟨t, ht, hdone⟩ := encRun_reaches_done hinv hrun hwritten hroom
  exact ⟨_, t, le_rfl, (unitRun_enc _ s).trans ht, hdone⟩

/-- Settles O10: the two branches of ENC.START on a unit at rest. -/
theorem encStartAcceptsACommand : Obligations.EncStartAcceptsACommand :=
  fun _ len h => ⟨encStart_absent len h, encStart_present len h⟩

/-- Settles O14: the P-step's rule at phase 0. -/
theorem encP0WritesOneCharacter : Obligations.EncP0WritesOneCharacter :=
  fun _ _ he hb hroom => encPhaseStep_eq he hb hroom

/-- Settles O19: the rule of ENC.FLUSH, its symbol read off phase by phase. -/
theorem encFlushWritesTheLastCharacter : Obligations.EncFlushWritesTheLastCharacter := by
  intro s hrun hend hp0 hroom
  refine (encFlush_eq ⟨hrun, hend, hp0⟩ hroom).trans ?_
  cases hph : s.enc.ph
  case p0 => exact absurd hph hp0
  all_goals rfl

/-- Settles O20: the rule of ENC.FINISH, and ENC's invariant on a group boundary. -/
theorem encFinishEndsOnAGroupBoundary : Obligations.EncFinishEndsOnAGroupBoundary :=
  fun _ hrun hend hp0 => ⟨encFinish_eq ⟨hrun, hend, hp0⟩,
    fun hinv => ⟨hinv.carry_eq_zero hrun hp0, hinv.oidx_eq_olen hrun hend hp0⟩⟩

end Sys2Proof.Machine
end

section
/-! PROOFS. ENCODE as a whole (R140, R151): the characters emitted so far are the first of the closed form, and the
statement O35. -/

namespace Sys2Proof.Machine

/-- Characters `lo .. lo + n - 1` of the closed form of ENCODE (R140). -/
def encChars (m : Memory) (len lo n : Nat) : List Byte :=
  (List.range' lo n).map fun k => romFwd (encVal m len k)

@[simp] theorem length_encChars (m : Memory) (len lo n : Nat) : (encChars m len lo n).length = n := by
  simp [encChars]

@[simp] theorem getElem_encChars (m : Memory) (len lo n : Nat) {k : Nat} (hk : k < (encChars m len lo n).length) :
    (encChars m len lo n)[k] = romFwd (encVal m len (lo + k)) := by
  simp [encChars]

theorem encChars_append (m : Memory) (len lo n n' : Nat) :
    encChars m len lo n ++ encChars m len (lo + n) n' = encChars m len lo (n + n') := by
  rw [encChars, encChars, encChars, ← List.map_append, List.range'_append_1]

theorem writeAll_append (m : Memory) (k : Nat) (cs cs' : List Byte) :
    writeAll (writeAll m k cs) (k + cs.length) cs' = writeAll m k (cs ++ cs') := by
  induction cs generalizing m k with
  | nil => rfl
  | cons c cs ih =>
    rw [List.cons_append, writeAll, writeAll, ← ih, List.length_cons, Nat.add_right_comm, Nat.add_assoc]

theorem settleAll_add (o : Option Unspecified) (k n n' : Nat) :
    settleAll (settleAll o k n) (k + n) n' = settleAll o k (n + n') := by
  induction n generalizing o k with
  | zero => rw [Nat.zero_add]; rfl
  | succ n ih => rw [Nat.add_right_comm n 1 n', settleAll, settleAll, ← ih, Nat.add_assoc, Nat.add_comm 1 n]

/-- What one micro-step emits and then the next is emitted as one text. -/
theorem State.storeAllE_append (s : State) (k : Nat) (cs cs' : List Byte) :
    (s.storeAllE k cs).storeAllE (k + cs.length) cs' = s.storeAllE k (cs ++ cs') := by
  simp only [State.storeAllE, State.withEOpen_outE, State.withOutE_outE, State.withEOpen_eOpen, writeAll_append,
    settleAll_add, List.length_append]
  rfl

/-- `t` is `s` with the next characters of the closed form emitted at `E_OIDX`, which advances past them; of the rest of the
state only ENC's registers have moved, and of these not `E_LEN`, `E_OLEN` and `E_STATUS`. -/
def EmitsFrom (s t : State) : Prop :=
  ∃ n, t = (s.storeAllE s.enc.oidx (encChars s.inE s.enc.len s.enc.oidx n)).withEnc t.enc ∧
    t.enc.oidx = s.enc.oidx + n ∧ t.enc.len = s.enc.len ∧ t.enc.olen = s.enc.olen ∧ t.enc.status = s.enc.status

theorem encPhaseStep_emits {p : Phase} {s t : State} (hinv : EncInv s) (h : encPhaseStep p s = .next t) :
    EmitsFrom s t := by
  obtain ⟨b, ⟨hrun, hmore, rfl⟩, hb, -, rfl⟩ := encPhaseStep_next h
  obtain ⟨hp, hoidx, -, -, -, hcarry⟩ := hinv.1 hrun
  refine ⟨(encSymbols s.enc.ph s.enc.carry b).length, ?_, rfl, rfl, rfl, rfl⟩
  have hchars : (encSymbols s.enc.ph s.enc.carry b).map romFwd =
      encChars s.inE s.enc.len s.enc.oidx (encSymbols s.enc.ph s.enc.carry b).length := by
    conv_lhs => rw [encSymbols_eq_map_encVal hp hcarry hb hmore, ← hoidx]
    exact List.map_map
  rw [hchars]
  rfl

theorem encFlush_emits {s t : State} (hinv : EncInv s) (h : encFlush s = .next t) : EmitsFrom s t := by
  obtain ⟨⟨hrun, hend, hp0⟩, -, rfl⟩ := encFlush_next h
  obtain ⟨hp, hoidx, -, -, -, hcarry⟩ := hinv.1 hrun
  refine ⟨1, ?_, rfl, rfl, rfl, rfl⟩
  rw [flushSymbol_eq_encVal hp hp0 hcarry, ← hoidx, hend]
  rfl

/-- Every micro-step of ENC emits the next characters of the closed form and leaves everything outside ENC as it was. -/
theorem encMicro_emits {s t : State} (hinv : EncInv s) (h : encMicro s = .next t) : EmitsFrom s t := by
  rcases encMicro_next h with rfl | ⟨p, h⟩ | h | h
  · exact ⟨0, rfl, rfl, rfl, rfl, rfl⟩
  · exact encPhaseStep_emits hinv h
  · exact encFlush_emits hinv h
  · obtain ⟨-, rfl⟩ := encFinish_next h
    exact ⟨0, rfl, rfl, rfl, rfl, rfl⟩

/-- `t` is reached in an ENCODE of `len` bytes from `s`: the characters below `E_OIDX` are those of the closed form, and
nothing outside ENC has moved. -/
def EncodesTo (s : State) (len : Nat) (t : State) : Prop :=
  t = (s.storeAllE 0 (encChars s.inE len 0 t.enc.oidx)).withEnc t.enc ∧
    t.enc.len = len ∧ t.enc.olen = lenEnc len ∧ t.enc.status = .ok

/-- What one more micro-step emits extends what the operation has emitted. -/
theorem EncodesTo.trans_emitsFrom {s t u : State} {len : Nat} (h : EncodesTo s len t) (hemit : EmitsFrom t u) :
    EncodesTo s len u := by
  obtain ⟨ht, hlen, holen, hstatus⟩ := h
  obtain ⟨n, hu, hoidx, hlen', holen', hstatus'⟩ := hemit
  refine ⟨?_, hlen'.trans hlen, holen'.trans holen, hstatus'.trans hstatus⟩
  have happend := s.storeAllE_append 0 (encChars s.inE len 0 t.enc.oidx) (encChars s.inE len t.enc.oidx n)
  have hchars := encChars_append s.inE len 0 t.enc.oidx n
  rw [Nat.zero_add] at hchars
  rw [length_encChars, Nat.zero_add, hchars, ← hoidx] at happend
  rw [← happend, hu, hlen]
  generalize t.enc = r at ht
  rw [ht]
  rfl

/-- Right after ENC.START nothing is emitted yet. -/
theorem encodesTo_started (s : State) (len : Nat) : EncodesTo s len (s.withEnc (.started len)) :=
  ⟨rfl, rfl, rfl, rfl⟩

/-- In `DONE` the emitted characters are all of the closed form, and every other element is as it was (R59, R140). -/
theorem EncodesTo.closed_form {s t : State} {len : Nat} (h : EncodesTo s len t) (hall : t.enc.oidx = lenEnc len) :
    (∀ k, k < lenEnc len → Memory.read t.outE k = some (romFwd (encVal s.inE len k)) ∧ openAt t.eOpen k = none) ∧
    (∀ k, lenEnc len ≤ k → Memory.read t.outE k = Memory.read s.outE k ∧ openAt t.eOpen k = openAt s.eOpen k) ∧
    OnlyEncoderMoved s t := by
  obtain ⟨ht, -, -, -⟩ := h
  rw [hall] at ht
  generalize t.enc = r at ht
  subst ht
  refine ⟨fun k hk => ?_, fun k hk => ?_, rfl, rfl, rfl, rfl, rfl, rfl, rfl, rfl, rfl, rfl⟩
  · simp [read_writeAll, openAt_settleAll, hk]
  · simp [read_writeAll, openAt_settleAll, hk.not_gt]

/-- Settles O35: START and every micro-step keep `EncInv` and `EncodesTo`, and the run reaches `DONE`, where the invariant says
that every character has been emitted. -/
theorem encodeMeetsTheClosedForm : Obligations.EncodeMeetsTheClosedForm := by
  intro s len hrest hwritten hroom
  obtain ⟨t, ht, hdone⟩ := encRun_reaches_done (encInv_started s len) rfl hwritten hroom
  obtain ⟨hinv, hto⟩ := encRun_keeps (P := fun t => EncInv t ∧ EncodesTo s len t)
    (fun ⟨hinv, hto⟩ h => ⟨encMicro_keeps_encInv hinv h, hto.trans_emitsFrom (encMicro_emits hinv h)⟩)
    ⟨encInv_started s len, encodesTo_started s len⟩ ht
  have ⟨_, _, holen, hstatus⟩ := hto
  exact ⟨t, andThen_eq_next.2 ⟨_, encStart_present len hrest, ht⟩, hdone, hstatus, holen,
    hto.closed_form ((hinv.2 hdone hstatus).trans holen)⟩

end Sys2Proof.Machine
end

section
/-! PROOFS. The decoder's bitstream (R54, R78, R170): a byte cut from it bit by bit, what a P-step cuts from the carry and the
values read, and the lengths along the way. -/

namespace Sys2Proof.Machine

/-- Byte `k` of the decoded bitstream bit by bit (R170). -/
theorem getLsbD_decVal (m : Memory) (k : Nat) {i : Nat} (hi : i < 8) :
    (decVal m k).getLsbD i = outBit m (8 * k + (7 - i)) := by
  rw [decVal, BitVec.getLsbD_ofNat, testBit_bitsFrom]
  simp [hi]

/-- A byte depends on the bits it is cut from only. -/
theorem decVal_congr {m m' : Memory} {k : Nat} (h : ∀ i, i < 8 → outBit m (8 * k + i) = outBit m' (8 * k + i)) :
    decVal m k = decVal m' k := by
  refine BitVec.eq_of_getLsbD_eq fun i hi => ?_
  rw [getLsbD_decVal m k hi, getLsbD_decVal m' k hi, h _ (by omega)]

/-- Bit `i` of the value of character `j`, the most significant bit first in the bitstream (R54, R170). -/
theorem outBit_of_charValue {m : Memory} {j i : Nat} {v : Symbol} (hv : charValue m j = some v) (hi : i < 5) :
    outBit m (5 * j + i) = v.getLsbD (4 - i) := by
  unfold outBit
  rw [show (5 * j + i) / 5 = j by omega, show (5 * j + i) % 5 = i by omega, hv]
  rfl

/-- The characters of `n` bytes hold their bits (R121). -/
theorem le_lenEnc (n : Nat) : 8 * n ≤ 5 * lenEnc n :=
  lenEnc_le_iff.1 le_rfl

/-- R124: a valid length is the least that holds the bytes it decodes to. -/
theorem lenEnc_lenDec {l : Nat} (h : lenChk l = true) : lenEnc (lenDec l) = l := by
  cases l with
  | zero => rfl
  | succ l =>
    have hne := lenChk_succ.1 h
    unfold lenDec at hne
    unfold lenEnc lenDec
    omega

/-- How many bits `D_CARRY` holds in phase `p` (R25). -/
def decCarryWidth (p : Phase) : Nat := 12 * p.toNat % 5

/-- A P-step's byte is a slice of the carry followed by the values read (R78, R173 to R177); a phase that reads one value
leaves the place of the second unused. -/
theorem getLsbD_decByte (p : Phase) (carry : Nibble) (v w : Symbol) {i : Nat} (hi : i < 8) :
    (decByte p carry v w).getLsbD i =
      (carry ++ v ++ w).getLsbD (decCarryWidth p.next + 5 * (2 - decTake p) + i) := by
  cases p <;> simp only [decByte, decCarryWidth, Phase.next, Phase.toNat, decTake] <;>
    grind [BitVec.getLsbD_extractLsb]

/-- A P-step keeps the low bits of the last value read, as many as the next phase's carry holds (R173 to R177). -/
theorem getLsbD_decCarry (p : Phase) (carry : Nibble) (v w : Symbol) (i : Nat) :
    (decCarry p v w).getLsbD i =
      (decide (i < decCarryWidth p.next) && (carry ++ v ++ w).getLsbD (5 * (2 - decTake p) + i)) := by
  cases p <;> simp only [decCarry, decCarryWidth, Phase.next, Phase.toNat, decTake] <;>
    grind [BitVec.getLsbD_extractLsb]

section
variable {m : Memory} {oidx : Nat} {p : Phase} {carry : Nibble} {v w : Symbol}

/-- A P-step reads up to the end of the character that completes its byte (R25, R181). -/
theorem lenEnc_succ (hp : p.toNat = oidx % 5) : lenEnc (oidx + 1) = lenEnc oidx + decTake p := by
  unfold lenEnc
  cases p <;> simp only [Phase.toNat] at hp <;> simp only [decTake] <;> omega

/-- The carry holds the bits read that fill no whole byte (R25). -/
theorem decCarryWidth_eq (hp : p.toNat = oidx % 5) : decCarryWidth p = 5 * lenEnc oidx - 8 * oidx := by
  unfold decCarryWidth lenEnc
  omega

/-- A P-step takes as many bits, from the carry and the characters read, as it puts into its byte and the next carry. -/
theorem decCarryWidth_next (p : Phase) : decCarryWidth p.next + 8 = decCarryWidth p + 5 * decTake p := by
  cases p <;> rfl

theorem decTake_le_two (p : Phase) : decTake p ≤ 2 := by
  cases p <;> decide

section
variable (hp : p.toNat = oidx % 5)
  (hc : carry.toNat = bitsFrom (outBit m) (8 * oidx) (5 * lenEnc oidx - 8 * oidx))
  (hv : charValue m (lenEnc oidx) = some v)
  (hw : if decTake p = 2 then charValue m (lenEnc oidx + 1) = some w else w = 0)

include hp hc hv hw

/-- The carry followed by the values read are the bitstream's bits from the first not yet written on (R25, R54). -/
theorem getLsbD_decCarry_append {j : Nat} (hlo : 5 * (2 - decTake p) ≤ j) (hj : j < decCarryWidth p + 10) :
    (carry ++ v ++ w).getLsbD j = outBit m (5 * lenEnc oidx + 9 - j) := by
  have hle := le_lenEnc oidx
  rw [decCarryWidth_eq hp] at hj
  rw [BitVec.getLsbD_append]
  split
  · rw [if_pos (show decTake p = 2 by have := decTake_le_two p; omega)] at hw
    rw [show 5 * lenEnc oidx + 9 - j = 5 * (lenEnc oidx + 1) + (4 - j) by omega, outBit_of_charValue hw (by omega)]
    congr 1
    omega
  · rw [BitVec.getLsbD_append]
    split
    · rw [show 5 * lenEnc oidx + 9 - j = 5 * lenEnc oidx + (9 - j) by omega, outBit_of_charValue hv (by omega)]
      congr 1
      omega
    · rw [toNat_eq_bitsFrom_iff.1 hc, decide_eq_true (by omega), Bool.true_and]
      congr 1
      omega

/-- A P-step writes the next byte of the bitstream (R170). -/
theorem decByte_eq_decVal : decByte p carry v w = decVal m oidx := by
  have hle := le_lenEnc oidx
  have hbits := decCarryWidth_next p
  have htake := decTake_le_two p
  refine BitVec.eq_of_getLsbD_eq fun i hi => ?_
  rw [getLsbD_decByte p carry v w hi, getLsbD_decCarry_append hp hc hv hw (by omega) (by omega), getLsbD_decVal m oidx hi]
  rw [decCarryWidth_eq hp] at hbits
  congr 1
  omega

/-- A P-step leaves the bits of the bitstream that fill no whole byte (R25). -/
theorem toNat_decCarry : (decCarry p v w).toNat =
    bitsFrom (outBit m) (8 * (oidx + 1)) (5 * lenEnc (oidx + 1) - 8 * (oidx + 1)) := by
  have hbits := decCarryWidth_next p
  have htake := decTake_le_two p
  have hlen := lenEnc_succ hp
  have hwidth : decCarryWidth p.next = 5 * lenEnc (oidx + 1) - 8 * (oidx + 1) :=
    decCarryWidth_eq (by rw [Phase.toNat_next]; omega)
  refine toNat_eq_bitsFrom_iff.2 fun i => ?_
  rw [getLsbD_decCarry p carry, ← hwidth]
  by_cases hi : i < decCarryWidth p.next
  · rw [getLsbD_decCarry_append hp hc hv hw (by omega) (by omega)]
    congr 2
    omega
  · simp [hi]

end

end

end Sys2Proof.Machine
end

section
/-! PROOFS. The decoder unit (spec/43): the rules of its micro-steps, the invariant they keep, the end of its run, and the
statements O11, O26, O27 and O30. -/

namespace Sys2Proof.Machine

/-! DEC.START on a unit at rest. -/

/-- DEC.START with an absent input (R172). -/
theorem decStart_absent {s : State} (len : Nat) (h : s.dec.st ≠ .run) :
    decStart true len s = .next (raise .dec .absent (s.withDec { s.dec with errChar := 0, errPos := 0 })) := by
  simp only [decStart, if_neg h, if_true]

/-- DEC.START on a length LEN.CHK rejects (R172). -/
theorem decStart_bad_length {s : State} {len : Nat} (h : s.dec.st ≠ .run) (hlen : lenChk len = false) :
    decStart false len s = .next (raise .dec (.length len) (s.withDec { s.dec with errChar := 0, errPos := 0 })) := by
  simp only [decStart, if_neg h, hlen, Bool.false_eq_true, if_false]

/-- The registers DEC.START sets for a run over `len` characters (R172). -/
def DecRegs.started (len : Nat) : DecRegs :=
  { st := .run, len := len, tgt := lenDec len, olen := 0, idx := 0, oidx := 0, ph := .p0, carry := 0, status := .ok,
    errChar := 0, errPos := 0 }

/-- DEC.START on a valid length (R172). -/
theorem decStart_valid {s : State} {len : Nat} (h : s.dec.st ≠ .run) (hlen : lenChk len = true) :
    decStart false len s = .next (s.withDec (.started len)) := by
  simp only [decStart, if_neg h, hlen, Bool.false_eq_true, if_false, if_true, DecRegs.started, State.withDec]

/-- Settles O11: the three branches of DEC.START on a unit at rest. -/
theorem decStartAcceptsACommand : Obligations.DecStartAcceptsACommand :=
  fun _ len h => ⟨⟨_, decStart_absent len h⟩, decStart_bad_length h, decStart_valid h⟩

/-! The P-steps and DEC.FINISH. -/

/-- The row of DEC's P-step of phase `p` (R82). -/
theorem exec_decodeDec_true (p : Phase) (s : State) : exec (decodeDec true p) s = decPhaseStep p s := by
  cases p <;> rfl

/-- `c` at index `i` is the first character outside the alphabet among those DEC.P`p` reads (R179). -/
def MeetsBad (p : Phase) (s : State) (c : Byte) (i : Nat) : Prop :=
  s.dec.idx ≤ i ∧ i < s.dec.idx + decTake p ∧ i < s.dec.len ∧ Memory.read s.inD i = some c ∧ romInv c = none ∧
    ∀ j, s.dec.idx ≤ j → j < i → ∃ v, charValue s.inD j = some v

/-- DEC.P`p` where it is enabled and meets a bad character (R179). -/
theorem decPhaseStep_bad {p : Phase} {s : State} {c : Byte} {i : Nat} (he : decEnabledAt p s) (hbad : MeetsBad p s c i) :
    decPhaseStep p s = .next (raise .dec (.char c i) s) := by
  obtain ⟨hlo, hhi, hi, hc, hinv, hvalid⟩ := hbad
  have htake := decTake_le_two p
  have hraise : readChecked s i = .error (.next (raise .dec (.char c i) s)) :=
    readChecked_next.2 ⟨c, hi, hc, hinv, rfl⟩
  have hsymbols : decSymbols p s = .error (.next (raise .dec (.char c i) s)) := by
    rcases hlo.eq_or_lt with rfl | hsecond
    · simp only [decSymbols, hraise]
    · obtain ⟨v, hv⟩ := hvalid s.dec.idx le_rfl hsecond
      have hfirst : readChecked s s.dec.idx = .ok v := readChecked_ok.2 ⟨by omega, hv⟩
      obtain rfl : i = s.dec.idx + 1 := by omega
      simp only [decSymbols, hfirst, hraise, if_pos (show decTake p = 2 by omega)]
  simp only [decPhaseStep, if_pos he, hsymbols]

/-- DEC.FINISH where it is enabled (R178). -/
theorem decFinish_eq {s : State} (he : s.dec.st = .run ∧ s.dec.oidx = s.dec.tgt) :
    decFinish s = .next (s.withDec { s.dec with olen := s.dec.tgt, st := .done }) :=
  if_pos he

/-- Settles O26: the rule of DEC.FINISH, and what DEC's invariant says where all bytes are written. -/
theorem decFinishSetsTheLength : Obligations.DecFinishSetsTheLength := by
  intro s hrun hend
  refine ⟨decFinish_eq ⟨hrun, hend⟩, fun hinv => ?_⟩
  obtain ⟨-, -, -, -, -, -, hvalid, hidx, -⟩ := hinv hrun
  exact ⟨hidx hend, hidx hend ▸ hvalid⟩

/-- Settles O27: the bad character is the first that the P-step reads, or the second after a valid first. -/
theorem badCharacterEndsTheOperation : Obligations.BadCharacterEndsTheOperation := by
  constructor
  · intro p s c he hi hc hinv
    have htake : 0 < decTake p := by cases p <;> decide
    rw [exec_decodeDec_true]
    exact decPhaseStep_bad he ⟨le_rfl, by omega, hi, hc, hinv, fun j hlo hhi => by omega⟩
  · intro p s v c he hp hi hv hc hinv
    have htake : decTake p = 2 := by rcases hp with rfl | rfl | rfl <;> rfl
    rw [exec_decodeDec_true]
    refine decPhaseStep_bad he ⟨by omega, by omega, hi, hc, hinv, fun j hlo hhi => ⟨v, ?_⟩⟩
    rwa [show j = s.dec.idx by omega]

/-! The micro-step of a run. -/

/-- DEC's micro-step while bytes are left is the P-step of its phase (R171). -/
theorem decMicro_of_more {s : State} (hrun : s.dec.st = .run) (hmore : s.dec.oidx < s.dec.tgt) :
    decMicro s = decPhaseStep s.dec.ph s := by
  rw [decMicro, if_pos hrun, if_pos hmore]

/-- DEC's micro-step after the last byte is DEC.FINISH (R171). -/
theorem decMicro_of_all_written {s : State} (hrun : s.dec.st = .run) (hend : s.dec.oidx = s.dec.tgt) :
    decMicro s = decFinish s := by
  rw [decMicro, if_pos hrun, if_neg hend.not_lt, if_pos hend]

/-- R171: outside `RUN` the unit holds its state. -/
theorem decMicro_of_not_run {s : State} (h : s.dec.st ≠ .run) : decMicro s = .next s := by
  rw [decMicro, if_neg h]

theorem decRun_of_not_run {s : State} (n : Nat) (h : s.dec.st ≠ .run) : decRun n s = .next s := by
  induction n with
  | zero => rfl
  | succ n ih => rw [decRun, decMicro_of_not_run h, andThen_next, ih]

/-- A run of selected micro-steps is the run of DEC's whole operation. -/
theorem unitRun_dec (n : Nat) (s : State) : unitRun .dec n s = decRun n s := by
  induction n generalizing s with
  | zero => rfl
  | succ n ih =>
    have htail : unitRun .dec n = decRun n := funext ih
    rw [unitRun, decRun, unitStep_dec, htail]

/-! What DEC.START and the micro-steps keep. -/

/-- DEC.START on a valid length establishes DEC's invariant, whatever the input (R26). -/
theorem decInv_started (s : State) {len : Nat} (hlen : lenChk len = true) : DecInv (s.withDec (.started len)) := by
  refine fun _ => ⟨rfl, by simp [DecRegs.started, lenEnc], Nat.zero_le _, Nat.zero_le len, hlen, rfl,
    fun j hj => absurd hj j.not_lt_zero, fun hend => ?_, rfl, rfl, rfl, rfl, rfl⟩
  have hlenEnc := lenEnc_lenDec hlen
  rwa [← show 0 = lenDec len from hend] at hlenEnc

/-- An operation that has ended has nothing to keep. -/
theorem decInv_of_done {s : State} (h : s.dec.st = .done) : DecInv s :=
  fun hrun => absurd (h.symm.trans hrun) (by decide)

/-- The values a P-step reads extend the characters known to be the alphabet's. -/
theorem AllValid.add_decTake {m : Memory} {n : Nat} {p : Phase} {v w : Symbol} (h : AllValid m n)
    (hv : charValue m n = some v) (hw : if decTake p = 2 then charValue m (n + 1) = some w else w = 0) :
    AllValid m (n + decTake p) := by
  intro j hj
  have htake := decTake_le_two p
  rcases lt_trichotomy j n with hlt | rfl | hgt
  · exact h j hlt
  · exact ⟨v, hv⟩
  · rw [if_pos (show decTake p = 2 by omega)] at hw
    rw [show j = n + 1 by omega]
    exact ⟨w, hw⟩

theorem decPhaseStep_keeps_decInv {p : Phase} {s t : State} (hinv : DecInv s) (h : decPhaseStep p s = .next t) :
    DecInv t := by
  obtain ⟨⟨hrun, hmore, rfl⟩, ⟨v, w, hvw, -, rfl⟩ | ⟨c, i, -, -, -, -, -, -, rfl⟩⟩ := decPhaseStep_next h
  · obtain ⟨hle, hv, hw⟩ := decSymbols_ok.1 hvw
    obtain ⟨hp, hidx, -, -, hlen, htgt, hvalid, -, hstatus, holen, hchar, hpos, hcarry⟩ := hinv hrun
    have hnext : s.dec.idx + decTake s.dec.ph = lenEnc (s.dec.oidx + 1) := by rw [lenEnc_succ hp, hidx]
    refine fun _ => ⟨?_, hnext, hmore, hle, hlen, htgt, hvalid.add_decTake hv hw, fun hend => ?_, hstatus, holen, hchar, hpos,
      ?_⟩
    · simp only [State.withDec_dec, Phase.toNat_next, hp]
      omega
    · exact hnext.trans ((congrArg lenEnc (hend.trans htgt)).trans (lenEnc_lenDec hlen))
    · rw [hidx] at hcarry hv hw
      simp only [State.withDec_dec, State.withDec_inD, State.storeOutD_inD, hnext]
      exact toNat_decCarry hp hcarry hv hw
  · exact decInv_of_done rfl

/-- Every micro-step of DEC keeps DEC's invariant (R26). -/
theorem decMicro_keeps_decInv {s t : State} (hinv : DecInv s) (h : decMicro s = .next t) : DecInv t := by
  rcases decMicro_next h with rfl | ⟨p, h⟩ | h
  · exact hinv
  · exact decPhaseStep_keeps_decInv hinv h
  · obtain ⟨-, rfl⟩ := decFinish_next h
    exact decInv_of_done rfl

/-! The run reaches `DONE`. -/

/-- With bytes left, the characters of the next P-step are within the text (R26). -/
theorem DecInv.idx_add_decTake_le {s : State} (hinv : DecInv s) (hrun : s.dec.st = .run) (hmore : s.dec.oidx < s.dec.tgt) :
    s.dec.idx + decTake s.dec.ph ≤ s.dec.len := by
  obtain ⟨hp, hidx, -, -, -, htgt, -⟩ := hinv hrun
  rw [hidx, ← lenEnc_succ hp, lenEnc_le_iff]
  unfold lenDec at htgt
  omega

/-- A P-step whose characters are written finds them all in the alphabet, or meets a bad one. -/
theorem decSymbols_ok_or_meetsBad {p : Phase} {s : State} (hle : s.dec.idx + decTake p ≤ s.dec.len)
    (hwritten : Written s.inD s.dec.len) : (∃ v w, decSymbols p s = .ok (v, w)) ∨ ∃ c i, MeetsBad p s c i := by
  have htake : decTake p = 2 ∨ decTake p = 1 := by cases p <;> decide
  obtain ⟨c, hc⟩ := hwritten s.dec.idx (by omega)
  cases hv : romInv c with
  | none => exact .inr ⟨c, s.dec.idx, le_rfl, by omega, by omega, hc, hv, fun j hlo hhi => by omega⟩
  | some v =>
    have hfirst : charValue s.inD s.dec.idx = some v := by rw [charValue, hc, Option.bind_some, hv]
    rcases htake with htwo | hone
    · obtain ⟨c', hc'⟩ := hwritten (s.dec.idx + 1) (by omega)
      cases hw : romInv c' with
      | none =>
        refine .inr ⟨c', s.dec.idx + 1, by omega, by omega, by omega, hc', hw, fun j hlo hhi => ⟨v, ?_⟩⟩
        rwa [show j = s.dec.idx by omega]
      | some w =>
        refine .inl ⟨v, w, decSymbols_ok.2 ⟨hle, hfirst, ?_⟩⟩
        rw [if_pos htwo, charValue, hc', Option.bind_some, hw]
    · exact .inl ⟨v, 0, decSymbols_ok.2 ⟨hle, hfirst, by rw [if_neg (by omega)]⟩⟩

/-- With bytes left, the text written and room for all bytes, a micro-step answers: the operation ends, or one byte is
written and everything the run's end depends on is as before. -/
theorem decMicro_writes_byte_or_ends {s : State} (hinv : DecInv s) (hrun : s.dec.st = .run) (hmore : s.dec.oidx < s.dec.tgt)
    (hwritten : Written s.inD s.dec.len) (hroom : HasRoom s.dCap s.dec.tgt) :
    ∃ t, decMicro s = .next t ∧ (t.dec.st = .done ∨ t.dec.st = .run ∧ t.dec.oidx = s.dec.oidx + 1 ∧
      t.dec.len = s.dec.len ∧ t.dec.tgt = s.dec.tgt ∧ t.inD = s.inD ∧ t.dCap = s.dCap) := by
  rw [decMicro_of_more hrun hmore]
  rcases decSymbols_ok_or_meetsBad (hinv.idx_add_decTake_le hrun hmore) hwritten with ⟨v, w, hvw⟩ | ⟨c, i, hbad⟩
  · exact ⟨_, decPhaseStep_eq ⟨hrun, hmore, rfl⟩ hvw (hroom.mono hmore), .inr ⟨hrun, rfl, rfl, rfl, rfl, rfl⟩⟩
  · exact ⟨_, decPhaseStep_bad ⟨hrun, hmore, rfl⟩ hbad, .inl rfl⟩

/-- The host's part done, a run of DEC is in `DONE` after one micro-step per byte left and one more, or before (R171, R181). -/
theorem decRun_reaches_done {s : State} (hinv : DecInv s) (hrun : s.dec.st = .run) (hwritten : Written s.inD s.dec.len)
    (hroom : HasRoom s.dCap s.dec.tgt) :
    ∃ t, decRun (s.dec.tgt - s.dec.oidx + 1) s = .next t ∧ t.dec.st = .done := by
  obtain ⟨-, -, hle, -⟩ := hinv hrun
  induction hleft : s.dec.tgt - s.dec.oidx generalizing s with
  | zero =>
    have hfinish := (decMicro_of_all_written hrun (by omega)).trans (decFinish_eq ⟨hrun, by omega⟩)
    exact ⟨_, andThen_eq_next.2 ⟨_, hfinish, rfl⟩, rfl⟩
  | succ n ih =>
    obtain ⟨u, hu, hdone | ⟨hrun', hoidx, hlen, htgt, hinD, hcap⟩⟩ :=
      decMicro_writes_byte_or_ends hinv hrun (by omega) hwritten hroom
    · have hrest : u.dec.st ≠ .run := fun hrun' => absurd (hdone.symm.trans hrun') (by decide)
      exact ⟨u, andThen_eq_next.2 ⟨u, hu, decRun_of_not_run _ hrest⟩, hdone⟩
    · obtain ⟨t, ht, hdone⟩ := ih (decMicro_keeps_decInv hinv hu) hrun' (by rwa [hinD, hlen]) (by rwa [hcap, htgt])
        (by omega) (by omega)
      exact ⟨t, andThen_eq_next.2 ⟨u, hu, ht⟩, hdone⟩

/-! What the control state selects. -/

/-- R171's table as one rule: what is selected is read off the comparison and the phase, and nothing outside `RUN`. -/
theorem selected_dec_eq_some_iff {s : State} {i : Instr} :
    selected .dec s = some i ↔ s.dec.st = .run ∧
      ((s.dec.oidx < s.dec.tgt ∧ decodeDec true s.dec.ph = i) ∨ (s.dec.oidx = s.dec.tgt ∧ .decFinish = i)) := by
  unfold selected decKey
  by_cases hrun : s.dec.st = .run
  · rcases lt_trichotomy s.dec.oidx s.dec.tgt with h | h | h
    · simp [hrun, h, h.ne, decode]
    · simp [hrun, h, decode, decodeDec]
    · simp [hrun, h.not_gt, h.ne']
  · simp [hrun]

/-- R171: the row of each P-step. -/
theorem selected_dec_phase_iff (p : Phase) {s : State} :
    selected .dec s = some (decodeDec true p) ↔ decEnabledAt p s := by
  have hsame : decodeDec true s.dec.ph = decodeDec true p ↔ s.dec.ph = p := by
    cases s.dec.ph <;> cases p <;> decide
  have hother : .decFinish ≠ decodeDec true p := by
    cases p <;> decide
  rw [selected_dec_eq_some_iff, hsame]
  simp [hother, decEnabledAt]

/-- R171: the row of DEC.FINISH. -/
theorem selected_dec_finish_iff {s : State} :
    selected .dec s = some .decFinish ↔ s.dec.st = .run ∧ s.dec.oidx = s.dec.tgt := by
  rw [selected_dec_eq_some_iff]
  cases s.dec.ph <;> simp [decodeDec]

/-- R171: outside `RUN` the unit holds its state. -/
theorem unitStep_dec_of_not_run {s : State} (h : s.dec.st ≠ .run) : unitStep .dec s = .next s := by
  rw [unitStep_dec, decMicro_of_not_run h]

/-- R82: a command with `OP` = 1 presents DEC.START. -/
theorem decodePort_of_op {cmd : Command} (len : Nat) (h : cmdOp cmd = true) :
    decodePort cmd len = .decStart (cmdAbsent cmd) len := by
  rw [decodePort, h]

/-- R171: in `RUN` a micro-step is always selected, the byte index never passing the target. -/
theorem DecInv.selected_isSome {s : State} (hinv : DecInv s) (hrun : s.dec.st = .run) :
    (selected .dec s).isSome = true := by
  obtain ⟨-, -, hle, -⟩ := hinv hrun
  rw [Option.isSome_iff_exists]
  rcases hle.lt_or_eq with hmore | hend
  · exact ⟨_, selected_dec_eq_some_iff.2 ⟨hrun, .inl ⟨hmore, rfl⟩⟩⟩
  · exact ⟨_, selected_dec_eq_some_iff.2 ⟨hrun, .inr ⟨hend, rfl⟩⟩⟩

/-- Settles O30: the table is `selected_dec_phase_iff` and its companion, the end of the run `decRun_reaches_done`. -/
theorem decoderSelectsByItsControlState : Obligations.DecoderSelectsByItsControlState := by
  intro s
  refine ⟨selected_dec_phase_iff .p0, selected_dec_phase_iff .p1, selected_dec_phase_iff .p2,
    selected_dec_phase_iff .p3, selected_dec_phase_iff .p4, selected_dec_finish_iff, unitStep_dec_of_not_run,
    fun _ => decodePort_of_op, fun hinv hrun => ⟨hinv.selected_isSome hrun, ?_⟩⟩
  intro hwritten hroom
  obtain ⟨t, ht, hdone⟩ := decRun_reaches_done hinv hrun hwritten hroom
  exact ⟨_, t, le_rfl, (unitRun_dec _ s).trans ht, hdone⟩

end Sys2Proof.Machine
end

section
/-! PROOFS. DECODE as a whole (R170, R182): the bytes written so far are the first of the decoded bitstream, and the
statement O41. -/

namespace Sys2Proof.Machine

/-- `t` is reached in a DECODE of `len` characters from `s`: `OUT_D` holds the bytes of the bitstream below `D_OIDX`, and its
old elements from there on. -/
def DecodesTo (s : State) (len : Nat) (t : State) : Prop :=
  OnlyDecoderMoved s t ∧ t.dec.len = len ∧ SameOutside s.outD t.outD 0 t.dec.oidx ∧
    ∀ k, k < t.dec.oidx → Memory.read t.outD k = some (decVal s.inD k)

/-- Right after DEC.START nothing is written yet. -/
theorem decodesTo_started (s : State) (len : Nat) : DecodesTo s len (s.withDec (.started len)) :=
  ⟨⟨rfl, rfl, rfl, rfl, rfl, rfl, rfl, rfl, rfl, rfl⟩, rfl, fun _ _ => rfl, fun k hk => absurd hk k.not_lt_zero⟩

/-- A P-step that writes a byte writes the next one of the bitstream; one that fails writes nothing (R170, R179). -/
theorem DecodesTo.of_decPhaseStep {p : Phase} {s t u : State} {len : Nat} (hto : DecodesTo s len t) (hinv : DecInv t)
    (h : decPhaseStep p t = .next u) : DecodesTo s len u := by
  obtain ⟨hframe, hlen, hrest, hbytes⟩ := hto
  obtain ⟨⟨hrun, -, rfl⟩, ⟨v, w, hvw, -, rfl⟩ | ⟨c, i, -, -, -, -, -, -, rfl⟩⟩ := decPhaseStep_next h
  · obtain ⟨-, hv, hw⟩ := decSymbols_ok.1 hvw
    obtain ⟨hp, hidx, -, -, -, -, -, -, -, -, -, -, hcarry⟩ := hinv hrun
    obtain ⟨-, -, -, hinD, -⟩ := id hframe
    rw [hidx] at hcarry hv hw
    have hbyte := decByte_eq_decVal hp hcarry hv hw
    rw [hinD] at hbyte
    refine ⟨hframe, hlen, fun k hk => ?_, fun k hk => ?_⟩
    · simp only [State.withDec_dec, State.withDec_outD, State.storeOutD_outD] at hk ⊢
      rw [Memory.read_write_ne _ _ (by omega), hrest k (by omega)]
    · simp only [State.withDec_dec, State.withDec_outD, State.storeOutD_outD, Memory.read_write] at hk ⊢
      split
      · next heq => rw [heq, hbyte]
      · exact hbytes k (by omega)
  · exact ⟨hframe, hlen, hrest, hbytes⟩

/-- Every micro-step of DEC extends what the operation has written. -/
theorem DecodesTo.of_decMicro {s t u : State} {len : Nat} (hto : DecodesTo s len t) (hinv : DecInv t)
    (h : decMicro t = .next u) : DecodesTo s len u := by
  rcases decMicro_next h with rfl | ⟨p, h⟩ | h
  · exact hto
  · exact hto.of_decPhaseStep hinv h
  · obtain ⟨-, rfl⟩ := decFinish_next h
    exact hto

/-- No error so far; after the end, all bytes written and counted. -/
def DecGoesWell (t : State) : Prop :=
  t.dec.status = .ok ∧ (t.dec.st = .done → t.dec.oidx = lenDec t.dec.len ∧ t.dec.olen = lenDec t.dec.len)

/-- On a text of the alphabet no micro-step of DEC fails. -/
theorem DecGoesWell.of_decMicro {t u : State} (hwell : DecGoesWell t) (hinv : DecInv t) (hvalid : AllValid t.inD t.dec.len)
    (h : decMicro t = .next u) : DecGoesWell u := by
  obtain ⟨hstatus, -⟩ := id hwell
  rcases decMicro_next h with rfl | ⟨p, h⟩ | h
  · exact hwell
  · obtain ⟨⟨hrun, -, -⟩, ⟨v, w, -, -, rfl⟩ | ⟨c, i, -, -, hi, hc, hbad, -, rfl⟩⟩ := decPhaseStep_next h
    · exact ⟨hstatus, fun hdone => absurd (hrun.symm.trans hdone) (by decide)⟩
    · obtain ⟨v, hv⟩ := hvalid i hi
      rw [charValue, hc, Option.bind_some, hbad] at hv
      cases hv
  · obtain ⟨⟨hrun, hend⟩, rfl⟩ := decFinish_next h
    obtain ⟨-, -, -, -, -, htgt, -⟩ := hinv hrun
    exact ⟨hstatus, fun _ => ⟨hend.trans htgt, htgt⟩⟩

/-- A text of the alphabet has been written. -/
theorem AllValid.written {m : Memory} {n : Nat} (h : AllValid m n) : Written m n := by
  intro j hj
  obtain ⟨v, hv⟩ := h j hj
  obtain ⟨c, hc, -⟩ := Option.bind_eq_some_iff.1 hv
  exact ⟨c, hc⟩

/-- DECODE of a text of valid length and characters, with room, leaves the bytes of its bitstream (R170, R182). -/
theorem exec_decode_of_allValid {s : State} {len : Nat} (hrest : s.dec.st ≠ .run) (hlen : lenChk len = true)
    (hvalid : AllValid s.inD len) (hroom : HasRoom s.dCap (lenDec len)) :
    ∃ t, exec (.decode len) s = .next t ∧ t.dec.st = .done ∧ t.dec.status = .ok ∧ t.dec.oidx = lenDec len ∧
      t.dec.olen = lenDec len ∧ DecodesTo s len t := by
  have hstart : DecInv (s.withDec (.started len)) := decInv_started s hlen
  obtain ⟨t, ht, hdone⟩ := decRun_reaches_done hstart rfl hvalid.written hroom
  obtain ⟨-, hto, hstatus, hcount⟩ := decRun_keeps (P := fun t => DecInv t ∧ DecodesTo s len t ∧ DecGoesWell t)
    (fun {t _} ⟨hinv, hto, hwell⟩ h => by
      obtain ⟨⟨-, -, -, hinD, -⟩, htlen, -⟩ := id hto
      exact ⟨decMicro_keeps_decInv hinv h, hto.of_decMicro hinv h, hwell.of_decMicro hinv (by rwa [hinD, htlen]) h⟩)
    ⟨hstart, decodesTo_started s len, rfl, fun hdone => nomatch hdone⟩ ht
  obtain ⟨-, htlen, -⟩ := id hto
  rw [htlen] at hcount
  exact ⟨t, andThen_eq_next.2 ⟨_, decStart_valid hrest hlen, ht⟩, hdone, hstatus, (hcount hdone).1, (hcount hdone).2, hto⟩

/-- Settles O41: each text decodes to the bytes of its bitstream, and no byte reaches into the discarded bits. -/
theorem discardedBitsDoNotMatter : Obligations.DiscardedBitsDoNotMatter := by
  intro s s' len hrest hrest' hlen hvalid hvalid' hroom hroom' hsame
  obtain ⟨t, ht, -, hstatus, hoidx, holen, -, -, -, hbytes⟩ := exec_decode_of_allValid hrest hlen hvalid hroom
  obtain ⟨t', ht', -, hstatus', hoidx', holen', -, -, -, hbytes'⟩ := exec_decode_of_allValid hrest' hlen hvalid' hroom'
  refine ⟨t, t', ht, ht', hstatus, hstatus', holen.trans holen'.symm, fun k hk => ?_⟩
  rw [holen] at hk
  rw [hbytes k (by omega), hbytes' k (by omega), decVal_congr fun i hi => hsame _ (by omega)]

end Sys2Proof.Machine
end

section
/-! PROOFS. The result of an operation is a function of its input (R38, R186): two runs of one unit whose registers agree, and
whose buffers agree where the operation has read or may read them, stay in step; and the statement O42. -/

namespace Sys2Proof.Machine

theorem SameBelow.charValue_eq {m m' : Memory} {n j : Nat} (h : SameBelow m m' n) (hj : j < n) :
    charValue m' j = charValue m j := by
  rw [charValue, charValue, h j hj]

/-- One more element stored in both. -/
theorem SameBelow.write {m m' : Memory} {n : Nat} (h : SameBelow m m' n) (b : Byte) :
    SameBelow (Memory.write m n b) (Memory.write m' n b) (n + 1) := by
  intro k hk
  rw [Memory.read_write, Memory.read_write]
  split
  · rfl
  · exact h k (by omega)

/-- More elements stored in both. -/
theorem SameBelow.writeAll {m m' : Memory} {n : Nat} (h : SameBelow m m' n) (cs : List Byte) :
    SameBelow (writeAll m n cs) (writeAll m' n cs) (n + cs.length) := by
  intro k hk
  rw [read_writeAll, read_writeAll]
  split
  · rfl
  · exact h k (by omega)

/-- A relation that every micro-step of a unit keeps is kept by its runs: where the first answers, the second does. -/
theorem unitRun_agrees {u : UnitId} {R : State → State → Prop}
    (hR : ∀ {s s' t}, R s s' → unitStep u s = .next t → ∃ t', unitStep u s' = .next t' ∧ R t t')
    {n : Nat} {s s' t : State} (hagree : R s s') (h : unitRun u n s = .next t) :
    ∃ t', unitRun u n s' = .next t' ∧ R t t' := by
  induction n generalizing s s' with
  | zero => cases h; exact ⟨s', rfl, hagree⟩
  | succ n ih =>
    obtain ⟨a, ha, h⟩ := andThen_eq_next.1 h
    obtain ⟨a', ha', hagree'⟩ := hR hagree ha
    obtain ⟨t', ht', hagree''⟩ := ih hagree' h
    exact ⟨t', andThen_eq_next.2 ⟨a', ha', ht'⟩, hagree''⟩

/-! DEC. -/

/-- DEC's registers agree, its text below `D_LEN` and its bytes below `D_OIDX`; the second run has room, and no more bytes are
counted than are written. -/
def DecAgree (s s' : State) : Prop :=
  s'.dec = s.dec ∧ SameBelow s.inD s'.inD s.dec.len ∧ SameBelow s.outD s'.outD s.dec.oidx ∧ s.dec.olen ≤ s.dec.oidx ∧
    HasRoom s'.dCap s.dec.tgt

/-- What a P-step reads where all its characters are the alphabet's is read in the other run as well. -/
theorem DecAgree.decSymbols_eq {p : Phase} {s s' : State} {v w : Symbol} (hagree : DecAgree s s')
    (h : decSymbols p s = .ok (v, w)) : decSymbols p s' = .ok (v, w) := by
  obtain ⟨hdec, hin, -⟩ := hagree
  obtain ⟨hle, hv, hw⟩ := decSymbols_ok.1 h
  have htake : 0 < decTake p := by cases p <;> decide
  rw [decSymbols_ok, hdec]
  refine ⟨hle, (hin.charValue_eq (by omega)).trans hv, ?_⟩
  split at hw
  · next htwo => rw [if_pos htwo, hin.charValue_eq (by omega), hw]
  · next hone => rw [if_neg hone, hw]

/-- A bad character is met in the other run as well. -/
theorem DecAgree.meetsBad {p : Phase} {s s' : State} {c : Byte} {i : Nat} (hagree : DecAgree s s')
    (h : MeetsBad p s c i) : MeetsBad p s' c i := by
  obtain ⟨hdec, hin, -⟩ := hagree
  obtain ⟨hlo, hhi, hi, hc, hbad, hvalid⟩ := h
  rw [MeetsBad, hdec]
  refine ⟨hlo, hhi, hi, (hin i hi).symm.trans hc, hbad, fun j hj hji => ?_⟩
  rw [hin.charValue_eq (hji.trans hi)]
  exact hvalid j hj hji

theorem decPhaseStep_agrees {p : Phase} {s s' t : State} (hagree : DecAgree s s') (h : decPhaseStep p s = .next t) :
    ∃ t', decPhaseStep p s' = .next t' ∧ DecAgree t t' := by
  obtain ⟨hdec, hin, hout, holen, hroom⟩ := id hagree
  obtain ⟨he, hcase⟩ := decPhaseStep_next h
  have he' : decEnabledAt p s' := by rwa [decEnabledAt, hdec]
  obtain ⟨v, w, hvw, -, rfl⟩ | ⟨c, i, hlo, hhi, hi, hc, hbad, hvalid, rfl⟩ := hcase
  · refine ⟨_, decPhaseStep_eq he' (hagree.decSymbols_eq hvw) (hroom.mono ?_), ?_⟩
    · rw [hdec]
      exact he.2.1
    · rw [hdec]
      exact ⟨rfl, hin, hout.write _, holen.trans (Nat.le_succ _), hroom⟩
  · refine ⟨_, decPhaseStep_bad he' (hagree.meetsBad ⟨hlo, hhi, hi, hc, hbad, hvalid⟩), ?_⟩
    rw [raise_dec_char, raise_dec_char, hdec]
    exact ⟨rfl, hin, hout, Nat.zero_le _, hroom⟩

theorem decFinish_agrees {s s' t : State} (hagree : DecAgree s s') (h : decFinish s = .next t) :
    ∃ t', decFinish s' = .next t' ∧ DecAgree t t' := by
  obtain ⟨hdec, hin, hout, -, hroom⟩ := hagree
  obtain ⟨⟨hrun, hend⟩, rfl⟩ := decFinish_next h
  refine ⟨_, decFinish_eq (by rw [hdec]; exact ⟨hrun, hend⟩), ?_⟩
  rw [hdec]
  exact ⟨rfl, hin, hout, hend.ge, hroom⟩

/-- Runs of DEC that agree select the same micro-step and agree after it. -/
theorem unitStep_dec_agrees {s s' t : State} (hagree : DecAgree s s') (h : unitStep .dec s = .next t) :
    ∃ t', unitStep .dec s' = .next t' ∧ DecAgree t t' := by
  obtain ⟨hdec, -⟩ := id hagree
  rw [unitStep_dec, decMicro] at h ⊢
  rw [hdec]
  split_ifs at h ⊢
  · exact decPhaseStep_agrees hagree h
  · exact decFinish_agrees hagree h
  · cases h
    exact ⟨s', rfl, hagree⟩
  · cases h
    exact ⟨s', rfl, hagree⟩

/-- R186: the result of a DECODE. -/
theorem exec_decode_agrees {s s' t : State} {len : Nat} (hrest : s'.dec.st ≠ .run) (hin : SameBelow s.inD s'.inD len)
    (hroom : HasRoom s'.dCap (lenDec len)) (h : exec (.decode len) s = .next t) :
    ∃ t', exec (.decode len) s' = .next t' ∧ t'.dec.st = t.dec.st ∧ t'.dec.status = t.dec.status ∧
      t'.dec.olen = t.dec.olen ∧ t'.dec.len = t.dec.len ∧ t'.dec.errChar = t.dec.errChar ∧
      t'.dec.errPos = t.dec.errPos ∧ SameBelow t.outD t'.outD t.dec.olen := by
  obtain ⟨u, hu, hrun⟩ := execDecode_next h
  obtain ⟨-, ⟨hfalse, -⟩ | ⟨-, hlen, rfl⟩ | ⟨-, hlen, rfl⟩⟩ := decStart_next hu
  · cases hfalse
  · rw [decRun_of_not_run _ (by simp [raise_dec_length])] at hrun
    cases hrun
    refine ⟨_, andThen_eq_next.2 ⟨_, decStart_bad_length hrest hlen, decRun_of_not_run _ (by simp [raise_dec_length])⟩,
      rfl, rfl, rfl, rfl, rfl, rfl, fun k hk => absurd hk k.not_lt_zero⟩
  · have hagree : DecAgree (s.withDec (.started len)) (s'.withDec (.started len)) :=
      ⟨rfl, hin, fun k hk => absurd hk k.not_lt_zero, le_rfl, hroom⟩
    obtain ⟨t', ht', hdec, -, hout, holen, -⟩ := unitRun_agrees unitStep_dec_agrees hagree ((unitRun_dec _ _).trans hrun)
    rw [unitRun_dec] at ht'
    refine ⟨t', andThen_eq_next.2 ⟨_, decStart_valid hrest hlen, ht'⟩, ?_⟩
    rw [hdec]
    exact ⟨rfl, rfl, rfl, rfl, rfl, rfl, fun k hk => hout k (by omega)⟩

/-! ENC. -/

/-- ENC's registers agree, its bytes below `E_LEN` and its characters below `E_OIDX`; the second run has room. -/
def EncAgree (s s' : State) : Prop :=
  s'.enc = s.enc ∧ SameBelow s.inE s'.inE s.enc.len ∧ SameBelow s.outE s'.outE s.enc.oidx ∧ HasRoom s'.eCap s.enc.olen

/-- Room for the characters of one run is room in the other. -/
theorem EncAgree.outRoomE {s s' : State} {n : Nat} (hagree : EncAgree s s') (h : OutRoomE s n) : OutRoomE s' n := by
  obtain ⟨henc, -, -, hroom⟩ := hagree
  rw [OutRoomE, henc]
  exact ⟨h.1, hroom.mono h.1⟩

theorem encPhaseStep_agrees {p : Phase} {s s' t : State} (hagree : EncAgree s s') (h : encPhaseStep p s = .next t) :
    ∃ t', encPhaseStep p s' = .next t' ∧ EncAgree t t' := by
  obtain ⟨henc, hin, hout, hroom⟩ := id hagree
  obtain ⟨b, he, hb, hfits, rfl⟩ := encPhaseStep_next h
  have he' : encEnabledAt p s' := by rwa [encEnabledAt, henc]
  have hb' : Memory.read s'.inE s'.enc.idx = some b := by rw [henc, ← hin _ he.2.1, hb]
  refine ⟨_, encPhaseStep_eq he' hb' (hagree.outRoomE (henc ▸ hfits)), ?_⟩
  rw [henc]
  refine ⟨rfl, hin, ?_, hroom⟩
  have hsame := hout.writeAll ((encSymbols p s.enc.carry b).map romFwd)
  rwa [List.length_map] at hsame

theorem encFlush_agrees {s s' t : State} (hagree : EncAgree s s') (h : encFlush s = .next t) :
    ∃ t', encFlush s' = .next t' ∧ EncAgree t t' := by
  obtain ⟨henc, hin, hout, hroom⟩ := id hagree
  obtain ⟨he, hfits, rfl⟩ := encFlush_next h
  rw [← henc] at he
  refine ⟨_, encFlush_eq he (hagree.outRoomE hfits), ?_⟩
  rw [henc]
  exact ⟨rfl, hin, hout.write _, hroom⟩

theorem encFinish_agrees {s s' t : State} (hagree : EncAgree s s') (h : encFinish s = .next t) :
    ∃ t', encFinish s' = .next t' ∧ EncAgree t t' := by
  obtain ⟨henc, hin, hout, hroom⟩ := hagree
  obtain ⟨he, rfl⟩ := encFinish_next h
  rw [← henc] at he
  refine ⟨_, encFinish_eq he, ?_⟩
  rw [henc]
  exact ⟨rfl, hin, hout, hroom⟩

/-- Runs of ENC that agree select the same micro-step and agree after it. -/
theorem unitStep_enc_agrees {s s' t : State} (hagree : EncAgree s s') (h : unitStep .enc s = .next t) :
    ∃ t', unitStep .enc s' = .next t' ∧ EncAgree t t' := by
  obtain ⟨henc, -⟩ := id hagree
  rw [unitStep_enc, encMicro] at h ⊢
  rw [henc]
  split_ifs at h ⊢
  · exact encPhaseStep_agrees hagree h
  · exact encFinish_agrees hagree h
  · exact encFlush_agrees hagree h
  · cases h
    exact ⟨s', rfl, hagree⟩
  · cases h
    exact ⟨s', rfl, hagree⟩

/-- Where it answers at all, ENC's run is in `DONE` after one micro-step per byte left and one more (R150). -/
theorem encRun_next_done {s t : State} (hinv : EncInv s) (hrun : s.enc.st = .run)
    (h : encRun (s.enc.len - s.enc.idx + 1) s = .next t) : t.enc.st = .done := by
  obtain ⟨-, -, hle, -⟩ := hinv.1 hrun
  induction hleft : s.enc.len - s.enc.idx generalizing s with
  | zero =>
    rw [hleft] at h
    obtain ⟨u, hu, hut⟩ := andThen_eq_next.1 h
    cases hut
    rw [encMicro_of_all_read hrun (by omega)] at hu
    split at hu
    · obtain ⟨-, rfl⟩ := encFinish_next hu
      rfl
    · obtain ⟨-, -, rfl⟩ := encFlush_next hu
      rfl
  | succ n ih =>
    rw [hleft] at h
    obtain ⟨u, hu, hut⟩ := andThen_eq_next.1 h
    have hinv' := encMicro_keeps_encInv hinv hu
    rw [encMicro_of_more hrun (by omega)] at hu
    obtain ⟨b, ⟨-, hmore, -⟩, -, -, rfl⟩ := encPhaseStep_next hu
    have hleft' : s.enc.len - (s.enc.idx + 1) = n := by omega
    exact ih hinv' hrun (by rwa [← hleft'] at hut) hmore hleft'

/-- R38: the result of an ENCODE. -/
theorem exec_encode_agrees {s s' t : State} {len : Nat} (hrest : s'.enc.st ≠ .run) (hin : SameBelow s.inE s'.inE len)
    (hroom : HasRoom s'.eCap (lenEnc len)) (h : exec (.encode len) s = .next t) :
    ∃ t', exec (.encode len) s' = .next t' ∧ t'.enc.st = t.enc.st ∧ t'.enc.status = t.enc.status ∧
      t'.enc.olen = t.enc.olen ∧ SameBelow t.outE t'.outE t.enc.olen := by
  obtain ⟨u, hu, hrun⟩ := execEncode_next h
  obtain ⟨-, ⟨hfalse, -⟩ | ⟨-, rfl⟩⟩ := encStart_next hu
  · cases hfalse
  · have hagree : EncAgree (s.withEnc (.started len)) (s'.withEnc (.started len)) :=
      ⟨rfl, hin, fun k hk => absurd hk k.not_lt_zero, hroom⟩
    obtain ⟨t', ht', henc, -, hout, -⟩ := unitRun_agrees unitStep_enc_agrees hagree ((unitRun_enc _ _).trans hrun)
    rw [unitRun_enc] at ht'
    have hdone := encRun_next_done (encInv_started s len) rfl hrun
    obtain ⟨hinv, -, -, -, hstatus⟩ := encRun_keeps (P := fun t => EncInv t ∧ EncodesTo s len t)
      (fun ⟨hinv, hto⟩ h => ⟨encMicro_keeps_encInv hinv h, hto.trans_emitsFrom (encMicro_emits hinv h)⟩)
      ⟨encInv_started s len, encodesTo_started s len⟩ hrun
    rw [hinv.2 hdone hstatus] at hout
    refine ⟨t', andThen_eq_next.2 ⟨_, encStart_present len hrest, ht'⟩, ?_⟩
    rw [henc]
    exact ⟨rfl, rfl, rfl, hout⟩

/-- Settles O42: from two states that agree on the input below `len` the runs stay in step. -/
theorem resultsDependOnTheInputOnly : Obligations.ResultsDependOnTheInputOnly :=
  ⟨fun _ _ _ _ => exec_decode_agrees, fun _ _ _ _ => exec_encode_agrees⟩

end Sys2Proof.Machine
end

section
/-! PROOFS. The absent-input error (spec/60): an absent command is its START on the absent input, and the statement O12. -/

namespace Sys2Proof.Machine

/-- R201: ENCODE with an absent input is its START. -/
theorem exec_encodeAbsent (len : Nat) (s : State) : exec (.encodeAbsent len) s = encStart true len s := rfl

/-- R201: DECODE with an absent input is its START. -/
theorem exec_decodeAbsent (len : Nat) (s : State) : exec (.decodeAbsent len) s = decStart true len s := rfl

/-- Settles O12: START raises the error at once. The value it leaves in `D_LEN` is drawn from the state, so the same one
serves every `len`. -/
theorem absentInputCompletesAtOnce : Obligations.AbsentInputCompletesAtOnce := by
  constructor
  · intro s len hrest
    rw [exec_encodeAbsent, encStart_absent len hrest, raise_enc, RaisedError.status]
  · intro s hrest
    refine ⟨Config.freeLen 10 s.draw, fun len => ?_⟩
    rw [exec_decodeAbsent, decStart_absent len hrest, raise_dec_absent, State.withDec_dec]
    rfl

end Sys2Proof.Machine
end

section
/-! PROOFS. The reset input and the command to a busy unit (spec/70): what `rst` sets and what it leaves, when START answers,
and the statements O1 and O13. -/

namespace Sys2Proof.Machine

/-! START, by whether its unit runs (R238). -/

/-- U1: ENC.START to a running unit is refused. -/
theorem encStart_busy {s : State} (absent : Bool) (len : Nat) (h : s.enc.st = .run) :
    encStart absent len s = .refused .unitBusy :=
  if_pos h

/-- U1: DEC.START to a running unit is refused. -/
theorem decStart_busy {s : State} (absent : Bool) (len : Nat) (h : s.dec.st = .run) :
    decStart absent len s = .refused .unitBusy :=
  if_pos h

/-- R142: ENC at rest accepts both forms of its START. -/
theorem encStart_accepts {s : State} (absent : Bool) (len : Nat) (h : s.enc.st ≠ .run) :
    ∃ t, encStart absent len s = .next t := by
  cases absent with
  | true => exact ⟨_, encStart_absent len h⟩
  | false => exact ⟨_, encStart_present len h⟩

/-- R172: DEC at rest accepts its START, also on a length that ends the operation at once. -/
theorem decStart_accepts {s : State} (absent : Bool) (len : Nat) (h : s.dec.st ≠ .run) :
    ∃ t, decStart absent len s = .next t := by
  cases absent with
  | true => exact ⟨_, decStart_absent len h⟩
  | false =>
    cases hlen : lenChk len with
    | false => exact ⟨_, decStart_bad_length h hlen⟩
    | true => exact ⟨_, decStart_valid h hlen⟩

/-- A command presented to a block with both units at rest is accepted (R230). -/
theorem exec_decodePort_accepts {s : State} (cmd : Command) (len : Nat) (henc : s.enc.st ≠ .run) (hdec : s.dec.st ≠ .run) :
    ∃ t, exec (decodePort cmd len) s = .next t := by
  cases hop : cmdOp cmd with
  | false => rw [decodePort_of_not_op len hop]; exact encStart_accepts _ len henc
  | true => rw [decodePort_of_op len hop]; exact decStart_accepts _ len hdec

/-! The state after `rst` (R230). -/

@[simp] theorem rstInput_enc (s : State) : (rstInput s).enc = encAfterRst s.draw := rfl
@[simp] theorem rstInput_dec (s : State) : (rstInput s).dec = decAfterRst s.draw := rfl
@[simp] theorem encAfterRst_st (n : Nat) : (encAfterRst n).st = .idle := rfl
@[simp] theorem decAfterRst_st (n : Nat) : (decAfterRst n).st = .idle := rfl

/-- R230: `rst` leaves the elements of all four buffers. -/
@[simp] theorem spaceOf_rstInput (sp : Space) (s : State) : spaceOf sp (rstInput s) = spaceOf sp s := by
  cases sp <;> rfl

/-- R231: only in the output buffer of a unit that was running does `rst` make elements unspecified. -/
theorem openOf_rstInput {sp : Space} {s : State} (h : sp.isOutput = true → ctl sp.owner s ≠ .run) :
    openOf sp (rstInput s) = openOf sp s := by
  cases sp with
  | inE => rfl
  | outE => exact if_neg (h rfl)
  | inD => rfl
  | outD => exact if_neg (h rfl)

/-- What the host reads depends on a space's elements and on which of them are unspecified. -/
theorem elementOf_congr {sp : Space} {s t : State} (hopen : openOf sp t = openOf sp s) (hspace : spaceOf sp t = spaceOf sp s)
    (i : Nat) : elementOf sp i t = elementOf sp i s := by
  rw [elementOf, elementOf, hopen, hspace]

/-- The flags of a block with both units in `IDLE` are all 0 (R29, R230). -/
theorem portValue_flags_of_idle {s : State} (henc : s.enc.st = .idle) (hdec : s.dec.st = .idle) :
    portValue .eBusy s = .ok (.flag false) ∧ portValue .eDone s = .ok (.flag false) ∧
      portValue .dBusy s = .ok (.flag false) ∧ portValue .dDone s = .ok (.flag false) := by
  simp [portValue, eBusy, eDone, dBusy, dDone, henc, hdec]

/-- A step that takes the request `rst` applies the reset input, the request gone and the draw advanced. -/
theorem step_rst {s : State} {rest : List HostEvent} (h : s.pending = .rst :: rest) :
    step s = .next (rstInput ((nextDraw s).withPending rest)) := by
  rw [step, nextMove, h]
  rfl

/-- R230, R231: after the step that takes `rst` the host reads what it read before, the output buffer of a unit that was
running apart. -/
theorem elementOf_after_rst {sp : Space} {s : State} (rest : List HostEvent)
    (h : sp.isOutput = true → ctl sp.owner s ≠ .run) (i : Nat) :
    elementOf sp i (rstInput ((nextDraw s).withPending rest)) = elementOf sp i s := by
  have hrest : sp.isOutput = true → ctl sp.owner ((nextDraw s).withPending rest) ≠ .run := by cases sp <;> exact h
  calc
    elementOf sp i (rstInput ((nextDraw s).withPending rest)) = elementOf sp i ((nextDraw s).withPending rest) :=
      elementOf_congr (openOf_rstInput hrest) (spaceOf_rstInput sp _) i
    _ = elementOf sp i s := by cases sp <;> rfl

/-- Settles O1: the step applies the reset input, which puts both units in `IDLE`; the flags and the acceptance of every
command follow from that, and the host's reads from what `rst` leaves of the buffers. -/
theorem rstIdlesBothUnits : Obligations.RstIdlesBothUnits := by
  refine ⟨⟨rfl, rfl⟩, fun s rest hpending => ⟨_, step_rst hpending, rfl, rfl, ?_⟩⟩
  obtain ⟨heBusy, heDone, hdBusy, hdDone⟩ :=
    portValue_flags_of_idle (s := rstInput ((nextDraw s).withPending rest)) rfl rfl
  refine ⟨heBusy, heDone, hdBusy, hdDone, rfl, rfl, rfl, rfl, rfl, fun i => ⟨?_, ?_⟩, fun henc => ?_, fun hdec => ?_,
    fun cmd len => ?_⟩
  · exact elementOf_after_rst (sp := .inE) rest (fun hout => absurd hout Bool.false_ne_true) i
  · exact elementOf_after_rst (sp := .inD) rest (fun hout => absurd hout Bool.false_ne_true) i
  · exact elementOf_after_rst rest fun _ => henc
  · exact elementOf_after_rst rest fun _ => hdec
  · exact exec_decodePort_accepts cmd len (by simp) (by simp)

/-! The command to a busy unit (R238, U1). -/

/-- R140: ENCODE is its START and ENC's run. -/
theorem exec_encode (len : Nat) (s : State) :
    exec (.encode len) s = andThen (encStart false len s) (encRun (len + 1)) := rfl

/-- R170: DECODE is its START and DEC's run. -/
theorem exec_decode (len : Nat) (s : State) :
    exec (.decode len) s = andThen (decStart false len s) (decRun (lenDec len + 1)) := rfl

/-- Settles O13: each of the six commands begins with the START of its unit, which a running unit refuses. -/
theorem commandToABusyUnitIsRefused : Obligations.CommandToABusyUnitIsRefused := by
  constructor
  · intro s len absent hrun
    refine ⟨?_, ?_, ?_⟩
    · rw [exec_encode, encStart_busy false len hrun, andThen_refused]
    · rw [exec_encodeAbsent, encStart_busy true len hrun]
    · exact encStart_busy absent len hrun
  · intro s len absent hrun
    refine ⟨?_, ?_, ?_⟩
    · rw [exec_decode, decStart_busy false len hrun, andThen_refused]
    · rw [exec_decodeAbsent, decStart_busy true len hrun]
    · exact decStart_busy absent len hrun

end Sys2Proof.Machine
end

section
/-! PROOFS. The frame of the units' moves (spec/42, spec/43): what the START and the micro-steps of one unit leave of the rest
of the block and of their own unit, and the statements O31 and O32. -/

namespace Sys2Proof.Machine

/-- The empty move of ENC. -/
theorem OnlyEncoderMoved.refl (s : State) : OnlyEncoderMoved s s :=
  ⟨rfl, rfl, rfl, rfl, rfl, rfl, rfl, rfl, rfl, rfl⟩

/-- The empty move of DEC. -/
theorem OnlyDecoderMoved.refl (s : State) : OnlyDecoderMoved s s :=
  ⟨rfl, rfl, rfl, rfl, rfl, rfl, rfl, rfl, rfl, rfl⟩

/-! ENC. -/

/-- The frame of a micro-step of ENC that emits `n` characters (R20, R150, R216). -/
def EncFrame (n : Nat) (s t : State) : Prop :=
  OnlyEncoderMoved s t ∧ t.enc.len = s.enc.len ∧ t.enc.olen = s.enc.olen ∧ t.enc.status = s.enc.status ∧
  t.enc.oidx = s.enc.oidx + n ∧ SameOutside s.outE t.outE s.enc.oidx (s.enc.oidx + n) ∧
  SameOpenOutside s.eOpen t.eOpen s.enc.oidx (s.enc.oidx + n)

/-- Characters written from `k` on leave every element outside their places. -/
theorem sameOutside_writeAll (m : Memory) (k : Nat) (cs : List Byte) :
    SameOutside m (writeAll m k cs) k (k + cs.length) := by
  intro i hi
  rw [read_writeAll, dif_neg (by omega)]

/-- Elements stored from `k` on leave unspecified what was so outside their places. -/
theorem sameOpenOutside_settleAll (o : Option Unspecified) (k n : Nat) :
    SameOpenOutside o (settleAll o k n) k (k + n) := by
  intro i hi
  rw [openAt_settleAll, if_neg (by omega)]

theorem encPhaseStep_frame {p : Phase} {s t : State} (h : encPhaseStep p s = .next t) :
    EncFrame ((carryWidth p + 8) / 5) s t := by
  obtain ⟨b, -, -, -, rfl⟩ := encPhaseStep_next h
  rw [← length_encSymbols p s.enc.carry b]
  have hout := sameOutside_writeAll s.outE s.enc.oidx ((encSymbols p s.enc.carry b).map romFwd)
  have hopen := sameOpenOutside_settleAll s.eOpen s.enc.oidx ((encSymbols p s.enc.carry b).map romFwd).length
  rw [List.length_map] at hout hopen
  exact ⟨.refl s, rfl, rfl, rfl, rfl, hout, by simpa using hopen⟩

theorem encFlush_frame {s t : State} (h : encFlush s = .next t) : EncFrame 1 s t := by
  obtain ⟨-, -, rfl⟩ := encFlush_next h
  exact ⟨.refl s, rfl, rfl, rfl, rfl, sameOutside_writeAll s.outE s.enc.oidx [_],
    sameOpenOutside_settleAll s.eOpen s.enc.oidx 1⟩

theorem encFinish_frame {s t : State} (h : encFinish s = .next t) : EncFrame 0 s t := by
  obtain ⟨-, rfl⟩ := encFinish_next h
  exact ⟨.refl s, rfl, rfl, rfl, rfl, fun _ _ => rfl, fun _ _ => rfl⟩

/-- Every micro-step of ENC leaves what is not ENC's (R20). -/
theorem encMicro_onlyEncoderMoved {s t : State} (h : encMicro s = .next t) : OnlyEncoderMoved s t := by
  rcases encMicro_next h with rfl | ⟨p, h⟩ | h | h
  · exact .refl _
  · exact (encPhaseStep_frame h).1
  · exact (encFlush_frame h).1
  · exact (encFinish_frame h).1

/-- ENC.START leaves what is not ENC's (R142). -/
theorem encStart_onlyEncoderMoved {absent : Bool} {len : Nat} {s t : State} (h : encStart absent len s = .next t) :
    OnlyEncoderMoved s t := by
  obtain ⟨-, ⟨-, rfl⟩ | ⟨-, rfl⟩⟩ := encStart_next h
  · exact .refl s
  · exact .refl s

/-- Settles O31: the P-steps emit as many characters as the carry and the byte hold, ENC.FLUSH one and ENC.FINISH none. -/
theorem encoderStepFrame : Obligations.EncoderStepFrame := by
  intro i n s t hrow h
  simp only [List.mem_cons, Prod.mk.injEq, List.not_mem_nil, or_false] at hrow
  rcases hrow with ⟨rfl, rfl⟩ | ⟨rfl, rfl⟩ | ⟨rfl, rfl⟩ | ⟨rfl, rfl⟩ | ⟨rfl, rfl⟩ | ⟨rfl, rfl⟩ | ⟨rfl, rfl⟩
  · exact encPhaseStep_frame (p := .p0) h
  · exact encPhaseStep_frame (p := .p1) h
  · exact encPhaseStep_frame (p := .p2) h
  · exact encPhaseStep_frame (p := .p3) h
  · exact encPhaseStep_frame (p := .p4) h
  · exact encFlush_frame h
  · exact encFinish_frame h

/-! DEC. -/

/-- The frame of a micro-step of DEC (R20, R178, R179, R216). -/
def DecFrame (s t : State) : Prop :=
  OnlyDecoderMoved s t ∧ t.dec.len = s.dec.len ∧ t.dec.tgt = s.dec.tgt ∧
  SameOutside s.outD t.outD s.dec.oidx (s.dec.oidx + 1) ∧
  (t.dec.st = .done → t.outD = s.outD ∧ t.dec.idx = s.dec.idx ∧ t.dec.oidx = s.dec.oidx ∧ t.dec.ph = s.dec.ph ∧
    t.dec.carry = s.dec.carry) ∧
  (t.dec.st = .run → t.dec.status = s.dec.status ∧ t.dec.olen = s.dec.olen ∧ t.dec.errChar = s.dec.errChar ∧
    t.dec.errPos = s.dec.errPos ∧ SameOpenOutside s.dOpen t.dOpen s.dec.oidx (s.dec.oidx + 1))

theorem decPhaseStep_frame {p : Phase} {s t : State} (h : decPhaseStep p s = .next t) : DecFrame s t := by
  obtain ⟨⟨hrun, -, -⟩, ⟨v, w, -, -, rfl⟩ | ⟨c, i, -, -, -, -, -, -, rfl⟩⟩ := decPhaseStep_next h
  · exact ⟨.refl s, rfl, rfl, sameOutside_writeAll s.outD s.dec.oidx [_],
      fun hdone => absurd (hrun.symm.trans hdone) (by decide),
      fun _ => ⟨rfl, rfl, rfl, rfl, sameOpenOutside_settleAll s.dOpen s.dec.oidx 1⟩⟩
  · exact ⟨.refl s, rfl, rfl, fun _ _ => rfl, fun _ => ⟨rfl, rfl, rfl, rfl, rfl⟩, fun hrun' => nomatch hrun'⟩

theorem decFinish_frame {s t : State} (h : decFinish s = .next t) : DecFrame s t := by
  obtain ⟨-, rfl⟩ := decFinish_next h
  exact ⟨.refl s, rfl, rfl, fun _ _ => rfl, fun _ => ⟨rfl, rfl, rfl, rfl, rfl⟩, fun hrun' => nomatch hrun'⟩

/-- Every micro-step of DEC leaves what is not DEC's (R20). -/
theorem decMicro_onlyDecoderMoved {s t : State} (h : decMicro s = .next t) : OnlyDecoderMoved s t := by
  rcases decMicro_next h with rfl | ⟨p, h⟩ | h
  · exact .refl _
  · exact (decPhaseStep_frame h).1
  · exact (decFinish_frame h).1

/-- DEC.START leaves what is not DEC's (R172). -/
theorem decStart_onlyDecoderMoved {absent : Bool} {len : Nat} {s t : State} (h : decStart absent len s = .next t) :
    OnlyDecoderMoved s t := by
  obtain ⟨-, ⟨-, rfl⟩ | ⟨-, -, rfl⟩ | ⟨-, -, rfl⟩⟩ := decStart_next h
  · exact .refl s
  · exact .refl s
  · exact .refl s

/-- DEC.FINISH reports nothing but the length (R178). -/
theorem decFinish_report {s t : State} (h : decFinish s = .next t) :
    t.dec.status = s.dec.status ∧ t.dec.errChar = s.dec.errChar ∧ t.dec.errPos = s.dec.errPos ∧ t.dOpen = s.dOpen := by
  obtain ⟨-, rfl⟩ := decFinish_next h
  exact ⟨rfl, rfl, rfl, rfl⟩

/-- Settles O32: the frame of a P-step, whether it writes its byte or fails, and of DEC.FINISH. -/
theorem decoderStepFrame : Obligations.DecoderStepFrame := by
  intro i s t hrow h
  have hframe : DecFrame s t := by
    simp only [List.mem_cons, List.not_mem_nil, or_false] at hrow
    rcases hrow with rfl | rfl | rfl | rfl | rfl | rfl
    · exact decPhaseStep_frame (p := .p0) h
    · exact decPhaseStep_frame (p := .p1) h
    · exact decPhaseStep_frame (p := .p2) h
    · exact decPhaseStep_frame (p := .p3) h
    · exact decPhaseStep_frame (p := .p4) h
    · exact decFinish_frame h
  obtain ⟨hmoved, hlen, htgt, hout, hdone, hrun⟩ := hframe
  refine ⟨hmoved, hlen, htgt, hout, hdone, hrun, ?_⟩
  rintro rfl
  exact decFinish_report h

end Sys2Proof.Machine
end

section
/-! PROOFS. What every step keeps: the units' invariants (R23, R26) and what the report registers hold at `DONE` (R33, R34).
Each speaks of a part of the state, which the moves of the other parts leave; and the statements O46 to O49. -/

namespace Sys2Proof.Machine

/-- Settles O46: at reset both units are in `IDLE` and the buffers empty. -/
theorem invariantsHoldAtReset : Obligations.InvariantsHoldAtReset := by
  refine ⟨⟨fun h => ?_, fun h => ?_⟩, fun h => ?_, ⟨fun h => ?_, fun h => ?_⟩, ⟨rfl, rfl, rfl, rfl, rfl, rfl⟩,
    fun w => ⟨fun h => ?_, fun h => ?_, fun h => ?_, fun h => ?_⟩⟩ <;> exact nomatch h

/-- The state with a new output buffer of `n` elements provided to a unit (R53). -/
def State.provided (s : State) (n : Nat) : UnitId → State
  | .enc => ((s.withOutE []).withECap (some n)).withEOpen none
  | .dec => ((s.withOutD []).withDCap (some n)).withDOpen none

/-- A unit at rest takes the buffer it is provided (R53). -/
theorem provideBuffer_eq {u : UnitId} {s : State} (n : Nat) (h : ctl u s ≠ .run) :
    provideBuffer u n s = .next (s.provided n u) := by
  unfold provideBuffer busy
  cases u <;> simp [h, State.provided]

/-- Everything that providing a buffer can do where it answers a next state. -/
theorem eq_provided_of_provideBuffer {u : UnitId} {n : Nat} {s t : State} (h : provideBuffer u n s = .next t) :
    t = s.provided n u := by
  obtain ⟨hrest, -⟩ := provideBuffer_next h
  rw [provideBuffer_eq n hrest] at h
  cases h
  rfl

/-! ENC's invariant. -/

/-- ENC's invariant speaks of ENC's registers and its input. -/
theorem EncInv.congr {s t : State} (hinv : EncInv s) (henc : t.enc = s.enc) (hinE : t.inE = s.inE) : EncInv t := by
  rwa [EncInv, henc, hinE]

/-- A move of DEC keeps ENC's invariant. -/
theorem EncInv.of_onlyDecoderMoved {s t : State} (hinv : EncInv s) (hmoved : OnlyDecoderMoved s t) : EncInv t := by
  obtain ⟨henc, hinE, -⟩ := hmoved
  exact hinv.congr henc hinE

/-- Outside `RUN` ENC's invariant does not speak of the input. -/
theorem EncInv.of_not_run {s t : State} (hinv : EncInv s) (hrest : s.enc.st ≠ .run) (henc : t.enc = s.enc) : EncInv t := by
  obtain ⟨-, hdone⟩ := hinv
  rw [EncInv, henc]
  exact ⟨fun hrun => absurd hrun hrest, hdone⟩

/-- ENC.START establishes ENC's invariant: a run of no bytes yet, or an operation that ends in an error (R23, R142). -/
theorem encStart_keeps_encInv {absent : Bool} {len : Nat} {s t : State} (h : encStart absent len s = .next t) : EncInv t := by
  obtain ⟨-, ⟨-, rfl⟩ | ⟨-, rfl⟩⟩ := encStart_next h
  · exact ⟨fun hrun => (nomatch hrun), fun _ hok => nomatch hok⟩
  · exact encInv_started s len

theorem hostWrite_keeps_encInv {sp : Space} {i : Nat} {b : Byte} {s t : State} (hinv : EncInv s)
    (h : hostWrite sp i b s = .next t) : EncInv t := by
  obtain ⟨hrest, rfl⟩ := hostWrite_next h
  cases sp with
  | inE => exact hinv.of_not_run hrest rfl
  | outE => exact hinv.congr rfl rfl
  | inD => exact hinv.congr rfl rfl
  | outD => exact hinv.congr rfl rfl

theorem provideBuffer_keeps_encInv {u : UnitId} {n : Nat} {s t : State} (hinv : EncInv s)
    (h : provideBuffer u n s = .next t) : EncInv t := by
  obtain rfl := eq_provided_of_provideBuffer h
  cases u <;> exact hinv.congr rfl rfl

/-- Settles O47: ENC's START and micro-steps keep it, `rst` makes it empty, and everything else leaves ENC's registers, and
its input while it runs. -/
theorem stepKeepsEncoderInvariant : Obligations.StepKeepsEncoderInvariant := by
  intro s t hinv h
  refine step_keeps (fun _ hinv => hinv.congr rfl rfl) (fun _ hinv => hinv.congr rfl rfl) ?_ hinv h
  intro e u v _ hinv hev
  exact hostEvent_keeps (fun _ hinv => hinv.congr rfl rfl) (fun _ hinv => hinv.congr rfl rfl)
    (fun _ => ⟨fun hrun => (nomatch hrun), fun hdone => nomatch hdone⟩)
    (fun _ _ => encStart_keeps_encInv)
    (fun _ hinv h => hinv.of_onlyDecoderMoved (decStart_onlyDecoderMoved h))
    encMicro_keeps_encInv
    (fun hinv h => hinv.of_onlyDecoderMoved (decMicro_onlyDecoderMoved h))
    (fun hinv _ _ _ _ _ => hinv.congr rfl rfl)
    provideBuffer_keeps_encInv hostWrite_keeps_encInv hinv hev

/-! DEC's invariant. -/

/-- DEC's invariant speaks of DEC's registers and its input. -/
theorem DecInv.congr {s t : State} (hinv : DecInv s) (hdec : t.dec = s.dec) (hinD : t.inD = s.inD) : DecInv t := by
  rwa [DecInv, hdec, hinD]

/-- A move of ENC keeps DEC's invariant. -/
theorem DecInv.of_onlyEncoderMoved {s t : State} (hinv : DecInv s) (hmoved : OnlyEncoderMoved s t) : DecInv t := by
  obtain ⟨hdec, -, hinD, -⟩ := hmoved
  exact hinv.congr hdec hinD

/-- DEC.START establishes DEC's invariant: a run over a valid length, or an operation that ends in an error (R26, R172). -/
theorem decStart_keeps_decInv {absent : Bool} {len : Nat} {s t : State} (h : decStart absent len s = .next t) : DecInv t := by
  obtain ⟨-, ⟨-, rfl⟩ | ⟨-, -, rfl⟩ | ⟨-, hlen, rfl⟩⟩ := decStart_next h
  · exact decInv_of_done rfl
  · exact decInv_of_done rfl
  · exact decInv_started s hlen

theorem hostWrite_keeps_decInv {sp : Space} {i : Nat} {b : Byte} {s t : State} (hinv : DecInv s)
    (h : hostWrite sp i b s = .next t) : DecInv t := by
  obtain ⟨hrest, rfl⟩ := hostWrite_next h
  cases sp with
  | inE => exact hinv.congr rfl rfl
  | outE => exact hinv.congr rfl rfl
  | inD => exact fun hrun => absurd hrun hrest
  | outD => exact hinv.congr rfl rfl

theorem provideBuffer_keeps_decInv {u : UnitId} {n : Nat} {s t : State} (hinv : DecInv s)
    (h : provideBuffer u n s = .next t) : DecInv t := by
  obtain rfl := eq_provided_of_provideBuffer h
  cases u <;> exact hinv.congr rfl rfl

/-- Settles O48: DEC's START and micro-steps keep it, `rst` and an invalid code that is consumed end the operation, and
everything else leaves DEC's registers, and its input while it runs. -/
theorem stepKeepsDecoderInvariant : Obligations.StepKeepsDecoderInvariant := by
  intro s t hinv h
  refine step_keeps (fun _ hinv => hinv.congr rfl rfl) (fun _ hinv => hinv.congr rfl rfl) ?_ hinv h
  intro e u v _ hinv hev
  exact hostEvent_keeps (fun _ hinv => hinv.congr rfl rfl) (fun _ hinv => hinv.congr rfl rfl)
    (fun _ hrun => nomatch hrun)
    (fun _ hinv h => hinv.of_onlyEncoderMoved (encStart_onlyEncoderMoved h))
    (fun _ _ => decStart_keeps_decInv)
    (fun hinv h => hinv.of_onlyEncoderMoved (encMicro_onlyEncoderMoved h))
    decMicro_keeps_decInv
    (fun _ _ _ _ _ _ => decInv_of_done rfl)
    provideBuffer_keeps_decInv hostWrite_keeps_decInv hinv hev

/-! The report registers at `DONE`. -/

/-- What ENC's status registers hold at `DONE` (R31, R33). -/
def EncReport (r : EncRegs) : Prop :=
  r.st = .done → (r.status = .ok ∧ r.olen = lenEnc r.len) ∨ (r.status = .errAbsent ∧ r.olen = 0)

/-- What DEC's status registers hold at `DONE` (R31, R33, R34). -/
def DecReport (r : DecRegs) : Prop :=
  r.st = .done → (r.status = .ok → r.olen = lenDec r.len) ∧ (r.status ≠ .ok → r.olen = 0) ∧
    (r.status ≠ .errChar → r.errChar = 0 ∧ r.errPos = 0)

theorem reportInv_iff {s : State} : ReportInv s ↔ EncReport s.enc ∧ DecReport s.dec := Iff.rfl

theorem encStart_reports {absent : Bool} {len : Nat} {s t : State} (h : encStart absent len s = .next t) :
    EncReport t.enc := by
  obtain ⟨-, ⟨-, rfl⟩ | ⟨-, rfl⟩⟩ := encStart_next h
  · exact fun _ => .inr ⟨rfl, rfl⟩
  · exact fun hdone => nomatch hdone

theorem decStart_reports {absent : Bool} {len : Nat} {s t : State} (h : decStart absent len s = .next t) :
    DecReport t.dec := by
  obtain ⟨-, ⟨-, rfl⟩ | ⟨-, -, rfl⟩ | ⟨-, -, rfl⟩⟩ := decStart_next h
  · exact fun _ => ⟨fun hok => (nomatch hok), fun _ => rfl, fun _ => ⟨rfl, rfl⟩⟩
  · exact fun _ => ⟨fun hok => (nomatch hok), fun _ => rfl, fun _ => ⟨rfl, rfl⟩⟩
  · exact fun hdone => nomatch hdone

/-- The end of ENC's run reports `OK` and the length of the text (R33, R148, R149). -/
theorem encMicro_keeps_report {s t : State} (hinv : EncInv s) (hreport : EncReport s.enc) (h : encMicro s = .next t) :
    EncReport t.enc := by
  rcases encMicro_next h with rfl | ⟨p, h⟩ | h | h
  · exact hreport
  · obtain ⟨b, ⟨hrun, -⟩, -, -, rfl⟩ := encPhaseStep_next h
    exact fun hdone => absurd (hrun.symm.trans hdone) (by decide)
  · obtain ⟨⟨hrun, -, -⟩, -, rfl⟩ := encFlush_next h
    obtain ⟨-, -, -, holen, hstatus, -⟩ := hinv.1 hrun
    exact fun _ => .inl ⟨hstatus, holen⟩
  · obtain ⟨⟨hrun, -, -⟩, rfl⟩ := encFinish_next h
    obtain ⟨-, -, -, holen, hstatus, -⟩ := hinv.1 hrun
    exact fun _ => .inl ⟨hstatus, holen⟩

/-- A bad character is reported with `D_OLEN` = 0 (R33, R179). -/
theorem decReport_of_bad (c : Byte) (i : Nat) (s : State) : DecReport (raise .dec (.char c i) s).dec :=
  fun _ => ⟨fun hok => (nomatch hok), fun _ => rfl, fun hne => absurd rfl hne⟩

/-- The end of DEC's run reports the bytes written, or the bad character (R33, R178, R179). -/
theorem decMicro_keeps_report {s t : State} (hinv : DecInv s) (hreport : DecReport s.dec) (h : decMicro s = .next t) :
    DecReport t.dec := by
  rcases decMicro_next h with rfl | ⟨p, h⟩ | h
  · exact hreport
  · obtain ⟨⟨hrun, -, -⟩, ⟨v, w, -, -, rfl⟩ | ⟨c, i, -, -, -, -, -, -, rfl⟩⟩ := decPhaseStep_next h
    · exact fun hdone => absurd (hrun.symm.trans hdone) (by decide)
    · exact decReport_of_bad c i s
  · obtain ⟨⟨hrun, -⟩, rfl⟩ := decFinish_next h
    obtain ⟨-, -, -, -, -, htgt, -, -, hstatus, -, hchar, hpos, -⟩ := hinv hrun
    exact fun _ => ⟨fun _ => htgt, fun hne => absurd hstatus hne, fun _ => ⟨hchar, hpos⟩⟩

/-- The units' invariants together with what their registers report. -/
def ReportsWithInv (s : State) : Prop :=
  (EncInv s ∧ EncReport s.enc) ∧ (DecInv s ∧ DecReport s.dec)

/-- A move of ENC that keeps ENC's part keeps DEC's. -/
theorem ReportsWithInv.of_onlyEncoderMoved {s t : State} (h : ReportsWithInv s) (hmoved : OnlyEncoderMoved s t)
    (henc : EncInv t ∧ EncReport t.enc) : ReportsWithInv t := by
  obtain ⟨-, hdecInv, hdec⟩ := h
  refine ⟨henc, hdecInv.of_onlyEncoderMoved hmoved, ?_⟩
  rwa [hmoved.1]

/-- A move of DEC that keeps DEC's part keeps ENC's. -/
theorem ReportsWithInv.of_onlyDecoderMoved {s t : State} (h : ReportsWithInv s) (hmoved : OnlyDecoderMoved s t)
    (hdec : DecInv t ∧ DecReport t.dec) : ReportsWithInv t := by
  obtain ⟨⟨hencInv, henc⟩, -⟩ := h
  refine ⟨⟨hencInv.of_onlyDecoderMoved hmoved, ?_⟩, hdec⟩
  rwa [hmoved.1]

theorem hostWrite_keeps_reports {sp : Space} {i : Nat} {b : Byte} {s t : State} (hinv : ReportsWithInv s)
    (h : hostWrite sp i b s = .next t) : ReportsWithInv t := by
  obtain ⟨⟨hencInv, henc⟩, hdecInv, hdec⟩ := hinv
  refine ⟨⟨hostWrite_keeps_encInv hencInv h, ?_⟩, hostWrite_keeps_decInv hdecInv h, ?_⟩ <;>
    obtain ⟨-, rfl⟩ := hostWrite_next h
  · rwa [storeElement_enc]
  · rwa [storeElement_dec]

theorem provideBuffer_keeps_reports {u : UnitId} {n : Nat} {s t : State} (hinv : ReportsWithInv s)
    (h : provideBuffer u n s = .next t) : ReportsWithInv t := by
  obtain rfl := eq_provided_of_provideBuffer h
  cases u <;> exact hinv

theorem encMicro_keeps_reports {s t : State} (hinv : ReportsWithInv s) (h : encMicro s = .next t) : ReportsWithInv t := by
  obtain ⟨⟨henc, hreport⟩, -⟩ := id hinv
  exact hinv.of_onlyEncoderMoved (encMicro_onlyEncoderMoved h)
    ⟨encMicro_keeps_encInv henc h, encMicro_keeps_report henc hreport h⟩

theorem decMicro_keeps_reports {s t : State} (hinv : ReportsWithInv s) (h : decMicro s = .next t) : ReportsWithInv t := by
  obtain ⟨-, hdec, hreport⟩ := id hinv
  exact hinv.of_onlyDecoderMoved (decMicro_onlyDecoderMoved h)
    ⟨decMicro_keeps_decInv hdec h, decMicro_keeps_report hdec hreport h⟩

/-- In `IDLE`, as `rst` leaves both units, nothing is reported (R230). -/
theorem reportsWithInv_rstInput (s : State) : ReportsWithInv (rstInput s) :=
  ⟨⟨⟨fun hrun => (nomatch hrun), fun hdone => nomatch hdone⟩, fun hdone => nomatch hdone⟩,
    fun hrun => (nomatch hrun), fun hdone => nomatch hdone⟩

/-- Settles O49: the units' invariants give what a micro-step reports at its end. -/
theorem stepKeepsReports : Obligations.StepKeepsReports := by
  intro s t hencInv hdecInv hreport h
  obtain ⟨henc, hdec⟩ := reportInv_iff.1 hreport
  have hs : ReportsWithInv s := ⟨⟨hencInv, henc⟩, hdecInv, hdec⟩
  have ht : ReportsWithInv t := by
    refine step_keeps (fun _ hinv => hinv) (fun _ hinv => hinv) ?_ hs h
    intro e u v _ hinv hev
    exact hostEvent_keeps (fun _ hinv => hinv) (fun _ hinv => hinv) (fun {x} _ => reportsWithInv_rstInput x)
      (fun _ hinv h => hinv.of_onlyEncoderMoved (encStart_onlyEncoderMoved h)
        ⟨encStart_keeps_encInv h, encStart_reports h⟩)
      (fun _ hinv h => hinv.of_onlyDecoderMoved (decStart_onlyDecoderMoved h)
        ⟨decStart_keeps_decInv h, decStart_reports h⟩)
      encMicro_keeps_reports decMicro_keeps_reports
      (fun hinv _ _ _ _ _ => hinv.of_onlyDecoderMoved (.refl _) ⟨decInv_of_done rfl, decReport_of_bad _ _ _⟩)
      provideBuffer_keeps_reports hostWrite_keeps_reports hinv hev
  obtain ⟨⟨-, henc'⟩, -, hdec'⟩ := ht
  exact reportInv_iff.2 ⟨henc', hdec'⟩

end Sys2Proof.Machine
end

section
/-! PROOFS. What every step keeps: the canonical form of the buffers, by what each move stores; and the statement O50. -/

namespace Sys2Proof.Machine

/-- ENC's micro-steps store characters only, one after another. -/
theorem encMicro_stores {s t : State} (h : encMicro s = .next t) :
    ∃ k cs, t.outE = writeAll s.outE k cs ∧ t.eOpen = settleAll s.eOpen k cs.length := by
  rcases encMicro_next h with rfl | ⟨p, h⟩ | h | h
  · exact ⟨0, [], rfl, rfl⟩
  · obtain ⟨b, -, -, -, rfl⟩ := encPhaseStep_next h
    exact ⟨_, _, rfl, rfl⟩
  · obtain ⟨-, -, rfl⟩ := encFlush_next h
    exact ⟨_, [_], rfl, rfl⟩
  · obtain ⟨-, rfl⟩ := encFinish_next h
    exact ⟨0, [], rfl, rfl⟩

/-- DEC's micro-steps store a byte, or nothing, or make the buffer unspecified. -/
theorem decMicro_stores {s t : State} (h : decMicro s = .next t) :
    (∃ k bs, t.outD = writeAll s.outD k bs ∧ t.dOpen = settleAll s.dOpen k bs.length) ∨
    (t.outD = s.outD ∧ t.dOpen = unspecifiedFrom s) := by
  rcases decMicro_next h with rfl | ⟨p, h⟩ | h
  · exact .inl ⟨0, [], rfl, rfl⟩
  · obtain ⟨-, ⟨v, w, -, -, rfl⟩ | ⟨c, i, -, -, -, -, -, -, rfl⟩⟩ := decPhaseStep_next h
    · exact .inl ⟨_, [_], rfl, rfl⟩
    · exact .inr ⟨rfl, rfl⟩
  · obtain ⟨-, rfl⟩ := decFinish_next h
    exact .inl ⟨0, [], rfl, rfl⟩

/-- A START stores nothing; where it ends in an error ENC's buffer becomes unspecified. -/
theorem encStart_stores {absent : Bool} {len : Nat} {s t : State} (h : encStart absent len s = .next t) :
    t.outE = s.outE ∧ (t.eOpen = s.eOpen ∨ t.eOpen = unspecifiedFrom s) := by
  obtain ⟨-, ⟨-, rfl⟩ | ⟨-, rfl⟩⟩ := encStart_next h
  · exact ⟨rfl, .inr rfl⟩
  · exact ⟨rfl, .inl rfl⟩

/-- A START stores nothing; where it ends in an error DEC's buffer becomes unspecified. -/
theorem decStart_stores {absent : Bool} {len : Nat} {s t : State} (h : decStart absent len s = .next t) :
    t.outD = s.outD ∧ (t.dOpen = s.dOpen ∨ t.dOpen = unspecifiedFrom s) := by
  obtain ⟨-, ⟨-, rfl⟩ | ⟨-, -, rfl⟩ | ⟨-, -, rfl⟩⟩ := decStart_next h
  · exact ⟨rfl, .inr rfl⟩
  · exact ⟨rfl, .inr rfl⟩
  · exact ⟨rfl, .inl rfl⟩

/-- Nothing has been stored since an error that is drawn now. -/
theorem openWf_unspecifiedFrom (s : State) : openWf (unspecifiedFrom s) = true := rfl

/-- A move of ENC that keeps `OUT_E` canonical keeps every buffer so. -/
theorem MemInv.of_onlyEncoderMoved {s t : State} (hinv : MemInv s) (hmoved : OnlyEncoderMoved s t)
    (hout : Memory.wf t.outE = true) (hopen : openWf t.eOpen = true) : MemInv t := by
  obtain ⟨hinE, -, hinD, houtD, -, hdOpen⟩ := hinv
  obtain ⟨-, hinE', hinD', houtD', -, -, hdOpen', -⟩ := hmoved
  exact ⟨hinE' ▸ hinE, hout, hinD' ▸ hinD, houtD' ▸ houtD, hopen, hdOpen' ▸ hdOpen⟩

/-- A move of DEC that keeps `OUT_D` canonical keeps every buffer so. -/
theorem MemInv.of_onlyDecoderMoved {s t : State} (hinv : MemInv s) (hmoved : OnlyDecoderMoved s t)
    (hout : Memory.wf t.outD = true) (hopen : openWf t.dOpen = true) : MemInv t := by
  obtain ⟨hinE, houtE, hinD, -, heOpen, -⟩ := hinv
  obtain ⟨-, hinE', houtE', hinD', -, -, heOpen', -⟩ := hmoved
  exact ⟨hinE' ▸ hinE, houtE' ▸ houtE, hinD' ▸ hinD, hout, heOpen' ▸ heOpen, hopen⟩

theorem encStart_keeps_memInv {absent : Bool} {len : Nat} {s t : State} (hinv : MemInv s)
    (h : encStart absent len s = .next t) : MemInv t := by
  obtain ⟨-, houtE, -, -, heOpen, -⟩ := id hinv
  obtain ⟨hout, hopen⟩ := encStart_stores h
  refine hinv.of_onlyEncoderMoved (encStart_onlyEncoderMoved h) (hout ▸ houtE) ?_
  rcases hopen with hopen | hopen <;> rw [hopen]
  · exact heOpen
  · exact openWf_unspecifiedFrom s

theorem decStart_keeps_memInv {absent : Bool} {len : Nat} {s t : State} (hinv : MemInv s)
    (h : decStart absent len s = .next t) : MemInv t := by
  obtain ⟨-, -, -, houtD, -, hdOpen⟩ := id hinv
  obtain ⟨hout, hopen⟩ := decStart_stores h
  refine hinv.of_onlyDecoderMoved (decStart_onlyDecoderMoved h) (hout ▸ houtD) ?_
  rcases hopen with hopen | hopen <;> rw [hopen]
  · exact hdOpen
  · exact openWf_unspecifiedFrom s

theorem encMicro_keeps_memInv {s t : State} (hinv : MemInv s) (h : encMicro s = .next t) : MemInv t := by
  obtain ⟨-, houtE, -, -, heOpen, -⟩ := id hinv
  obtain ⟨k, cs, hout, hopen⟩ := encMicro_stores h
  exact hinv.of_onlyEncoderMoved (encMicro_onlyEncoderMoved h) (hout ▸ writeAll_wf houtE k cs)
    (hopen ▸ settleAll_wf heOpen k cs.length)

theorem decMicro_keeps_memInv {s t : State} (hinv : MemInv s) (h : decMicro s = .next t) : MemInv t := by
  obtain ⟨-, -, -, houtD, -, hdOpen⟩ := id hinv
  have hmoved := decMicro_onlyDecoderMoved h
  rcases decMicro_stores h with ⟨k, bs, hout, hopen⟩ | ⟨hout, hopen⟩
  · exact hinv.of_onlyDecoderMoved hmoved (hout ▸ writeAll_wf houtD k bs) (hopen ▸ settleAll_wf hdOpen k bs.length)
  · exact hinv.of_onlyDecoderMoved hmoved (hout ▸ houtD) (hopen ▸ openWf_unspecifiedFrom s)

/-- `rst` leaves the buffers, and what it makes unspecified is drawn now (R231). -/
theorem rstInput_keeps_memInv {s : State} (hinv : MemInv s) : MemInv (rstInput s) := by
  obtain ⟨hinE, houtE, hinD, houtD, heOpen, hdOpen⟩ := hinv
  refine ⟨hinE, houtE, hinD, houtD, ?_, ?_⟩
  · change openWf (if s.enc.st = .run then unspecifiedFrom s else s.eOpen) = true
    split
    · exact openWf_unspecifiedFrom s
    · exact heOpen
  · change openWf (if s.dec.st = .run then unspecifiedFrom s else s.dOpen) = true
    split
    · exact openWf_unspecifiedFrom s
    · exact hdOpen

theorem provideBuffer_keeps_memInv {u : UnitId} {n : Nat} {s t : State} (hinv : MemInv s)
    (h : provideBuffer u n s = .next t) : MemInv t := by
  obtain ⟨hinE, houtE, hinD, houtD, heOpen, hdOpen⟩ := hinv
  obtain rfl := eq_provided_of_provideBuffer h
  cases u with
  | enc => exact ⟨hinE, rfl, hinD, houtD, rfl, hdOpen⟩
  | dec => exact ⟨hinE, houtE, hinD, rfl, heOpen, rfl⟩

theorem hostWrite_keeps_memInv {sp : Space} {i : Nat} {b : Byte} {s t : State} (hinv : MemInv s)
    (h : hostWrite sp i b s = .next t) : MemInv t := by
  obtain ⟨hinE, houtE, hinD, houtD, heOpen, hdOpen⟩ := hinv
  obtain ⟨-, rfl⟩ := hostWrite_next h
  cases sp with
  | inE => exact ⟨Memory.write_wf hinE i b, houtE, hinD, houtD, heOpen, hdOpen⟩
  | outE => exact ⟨hinE, Memory.write_wf houtE i b, hinD, houtD, settle_wf heOpen i, hdOpen⟩
  | inD => exact ⟨hinE, houtE, Memory.write_wf hinD i b, houtD, heOpen, hdOpen⟩
  | outD => exact ⟨hinE, houtE, hinD, Memory.write_wf houtD i b, heOpen, settle_wf hdOpen i⟩

/-- Settles O50: every store keeps the canonical form, and an error or `rst` begins an empty list. -/
theorem stepKeepsMemoryCanonical : Obligations.StepKeepsMemoryCanonical := by
  intro s t hinv h
  refine step_keeps (fun _ hinv => hinv) (fun _ hinv => hinv) ?_ hinv h
  intro e u v _ hinv hev
  refine hostEvent_keeps (P := MemInv) (fun _ hinv => hinv) (fun _ hinv => hinv) rstInput_keeps_memInv
    (fun _ => encStart_keeps_memInv) (fun _ => decStart_keeps_memInv) encMicro_keeps_memInv decMicro_keeps_memInv
    (fun {x _} hinv _ _ _ _ _ => ?_) provideBuffer_keeps_memInv hostWrite_keeps_memInv hinv hev
  obtain ⟨-, -, -, houtD, -, -⟩ := id hinv
  exact hinv.of_onlyDecoderMoved (.refl x) houtD (openWf_unspecifiedFrom x)

end Sys2Proof.Machine
end

section
/-! PROOFS. What every step keeps: the widths of the registers (R8, R126), the indices staying within the lengths they count
up to; and the statement O51. -/

namespace Sys2Proof.Machine

/-- ENC's registers fit a length port of `w` bits (R8, R21). -/
def EncFits (w : Nat) (r : EncRegs) : Prop :=
  (r.st = .run → r.len < 2 ^ w ∧ r.olen < 2 ^ (w + 1) ∧ r.idx < 2 ^ w ∧ r.oidx < 2 ^ (w + 1)) ∧
  (r.st = .done → r.olen < 2 ^ (w + 1))

/-- DEC's registers fit a length port of `w` bits (R8, R24). -/
def DecFits (w : Nat) (r : DecRegs) : Prop :=
  (r.st = .run → r.len < 2 ^ w ∧ r.tgt < 2 ^ w ∧ r.idx < 2 ^ w ∧ r.oidx < 2 ^ w ∧ r.errPos < 2 ^ w) ∧
  (r.st = .done → r.olen < 2 ^ w ∧ r.errPos < 2 ^ w ∧ (r.status ≠ .errAbsent → r.len < 2 ^ w))

theorem fitsWidth_iff {w : Nat} {s : State} : FitsWidth w s ↔ EncFits w s.enc ∧ DecFits w s.dec := and_assoc.symm

/-- A move of ENC leaves DEC's registers. -/
theorem FitsWidth.of_onlyEncoderMoved {w : Nat} {s t : State} (hfits : FitsWidth w s) (hmoved : OnlyEncoderMoved s t)
    (henc : EncFits w t.enc) : FitsWidth w t := by
  obtain ⟨-, hdec⟩ := fitsWidth_iff.1 hfits
  exact fitsWidth_iff.2 ⟨henc, by rwa [hmoved.1]⟩

/-- A move of DEC leaves ENC's registers. -/
theorem FitsWidth.of_onlyDecoderMoved {w : Nat} {s t : State} (hfits : FitsWidth w s) (hmoved : OnlyDecoderMoved s t)
    (hdec : DecFits w t.dec) : FitsWidth w t := by
  obtain ⟨henc, -⟩ := fitsWidth_iff.1 hfits
  exact fitsWidth_iff.2 ⟨by rwa [hmoved.1], hdec⟩

/-- R126: a text is at most twice as long as its bytes. -/
theorem lenEnc_le_two_mul (n : Nat) : lenEnc n ≤ 2 * n := by
  unfold lenEnc
  omega

/-- R126: the bytes of a text are no more than its characters. -/
theorem lenDec_le (l : Nat) : lenDec l ≤ l := by
  unfold lenDec
  omega

theorem encStart_fits {w : Nat} {absent : Bool} {len : Nat} {s t : State} (hlen : len < 2 ^ w)
    (h : encStart absent len s = .next t) : EncFits w t.enc := by
  have hpos : 0 < 2 ^ (w + 1) := Nat.two_pow_pos _
  obtain ⟨-, ⟨-, rfl⟩ | ⟨-, rfl⟩⟩ := encStart_next h
  · exact ⟨fun hrun => (nomatch hrun), fun _ => hpos⟩
  · have holen : lenEnc len < 2 ^ (w + 1) := by
      have := lenEnc_le_two_mul len
      omega
    exact ⟨fun _ => ⟨hlen, holen, Nat.two_pow_pos w, hpos⟩, fun hdone => nomatch hdone⟩

theorem decStart_fits {w : Nat} {absent : Bool} {len : Nat} {s t : State} (hlen : len < 2 ^ w)
    (h : decStart absent len s = .next t) : DecFits w t.dec := by
  have hpos : 0 < 2 ^ w := Nat.two_pow_pos w
  obtain ⟨-, ⟨-, rfl⟩ | ⟨-, -, rfl⟩ | ⟨-, -, rfl⟩⟩ := decStart_next h
  · exact ⟨fun hrun => (nomatch hrun), fun _ => ⟨hpos, hpos, fun hne => absurd rfl hne⟩⟩
  · exact ⟨fun hrun => (nomatch hrun), fun _ => ⟨hpos, hpos, fun _ => hlen⟩⟩
  · exact ⟨fun _ => ⟨hlen, (lenDec_le len).trans_lt hlen, hpos, hpos, hpos⟩, fun hdone => nomatch hdone⟩

/-- ENC's indices stay within the lengths they count up to (R126). -/
theorem encMicro_keeps_fits {w : Nat} {s t : State} (hfits : EncFits w s.enc) (h : encMicro s = .next t) :
    EncFits w t.enc := by
  rcases encMicro_next h with rfl | ⟨p, h⟩ | h | h
  · exact hfits
  · obtain ⟨b, ⟨hrun, hmore, -⟩, -, ⟨hroom, -⟩, rfl⟩ := encPhaseStep_next h
    obtain ⟨hlen, holen, -, -⟩ := hfits.1 hrun
    exact ⟨fun _ => ⟨hlen, holen, lt_of_le_of_lt hmore hlen,
      hroom.trans_lt holen⟩, fun hdone => absurd (hrun.symm.trans hdone) (by decide)⟩
  · obtain ⟨⟨hrun, -, -⟩, -, rfl⟩ := encFlush_next h
    obtain ⟨-, holen, -, -⟩ := hfits.1 hrun
    exact ⟨fun hrun' => (nomatch hrun'), fun _ => holen⟩
  · obtain ⟨⟨hrun, -, -⟩, rfl⟩ := encFinish_next h
    obtain ⟨-, holen, -, -⟩ := hfits.1 hrun
    exact ⟨fun hrun' => (nomatch hrun'), fun _ => holen⟩

/-- A bad character's index is below the length (R179). -/
theorem decFits_of_bad {w i : Nat} {s : State} (hfits : DecFits w s.dec) (hrun : s.dec.st = .run) (hi : i < s.dec.len)
    (c : Byte) : DecFits w (raise .dec (.char c i) s).dec := by
  obtain ⟨hlen, -⟩ := hfits.1 hrun
  exact ⟨fun hrun' => (nomatch hrun'), fun _ => ⟨Nat.two_pow_pos w, hi.trans hlen, fun _ => hlen⟩⟩

/-- DEC's indices stay within the lengths they count up to (R126). -/
theorem decMicro_keeps_fits {w : Nat} {s t : State} (hfits : DecFits w s.dec) (h : decMicro s = .next t) :
    DecFits w t.dec := by
  rcases decMicro_next h with rfl | ⟨p, h⟩ | h
  · exact hfits
  · obtain ⟨⟨hrun, hmore, -⟩, ⟨v, w', hvw, -, rfl⟩ | ⟨c, i, -, -, hi, -, -, -, rfl⟩⟩ := decPhaseStep_next h
    · obtain ⟨hlen, htgt, -, -, hpos⟩ := hfits.1 hrun
      obtain ⟨hidx, -, -⟩ := decSymbols_ok.1 hvw
      exact ⟨fun _ => ⟨hlen, htgt, hidx.trans_lt hlen, lt_of_le_of_lt hmore htgt, hpos⟩,
        fun hdone => absurd (hrun.symm.trans hdone) (by decide)⟩
    · exact decFits_of_bad hfits hrun hi c
  · obtain ⟨⟨hrun, -⟩, rfl⟩ := decFinish_next h
    obtain ⟨hlen, htgt, -, -, hpos⟩ := hfits.1 hrun
    exact ⟨fun hrun' => (nomatch hrun'), fun _ => ⟨htgt, hpos, fun _ => hlen⟩⟩

/-- The host's stores and buffers leave the registers. -/
theorem FitsWidth.congr {w : Nat} {s t : State} (hfits : FitsWidth w s) (henc : t.enc = s.enc) (hdec : t.dec = s.dec) :
    FitsWidth w t := by
  rwa [fitsWidth_iff, henc, hdec, ← fitsWidth_iff]

/-- Settles O51: START takes lengths that fit, and every micro-step counts up to one of them. -/
theorem stepKeepsRegistersInWidth : Obligations.StepKeepsRegistersInWidth := by
  intro w s t hfits hlen h
  refine step_keeps (fun _ hfits => hfits.congr rfl rfl) (fun _ hfits => hfits.congr rfl rfl) ?_ hfits h
  intro e u v he hfits hev
  have hpresented : ∀ {len}, presentedLen e = some len → len < 2 ^ w := by
    intro len hp
    obtain ⟨rest, hpending⟩ := he len hp
    exact hlen e rest len hpending hp
  exact hostEvent_keeps (fun _ hfits => hfits.congr rfl rfl) (fun _ hfits => hfits.congr rfl rfl)
    (fun _ => ⟨fun hrun => (nomatch hrun), fun hdone => (nomatch hdone), fun hrun => (nomatch hrun),
      fun hdone => nomatch hdone⟩)
    (fun hp hfits h => hfits.of_onlyEncoderMoved (encStart_onlyEncoderMoved h) (encStart_fits (hpresented hp) h))
    (fun hp hfits h => hfits.of_onlyDecoderMoved (decStart_onlyDecoderMoved h) (decStart_fits (hpresented hp) h))
    (fun hfits h => hfits.of_onlyEncoderMoved (encMicro_onlyEncoderMoved h)
      (encMicro_keeps_fits (fitsWidth_iff.1 hfits).1 h))
    (fun hfits h => hfits.of_onlyDecoderMoved (decMicro_onlyDecoderMoved h)
      (decMicro_keeps_fits (fitsWidth_iff.1 hfits).2 h))
    (fun hfits _ hrun _ hi _ => hfits.of_onlyDecoderMoved (.refl _) (decFits_of_bad (fitsWidth_iff.1 hfits).2 hrun hi _))
    (fun {_ _ u _} hfits h => by obtain rfl := eq_provided_of_provideBuffer h; cases u <;> exact hfits.congr rfl rfl)
    (fun hfits h => by
      obtain ⟨-, rfl⟩ := hostWrite_next h
      exact hfits.congr (storeElement_enc _ _ _ _) (storeElement_dec _ _ _ _))
    hfits hev

end Sys2Proof.Machine
end

section
/-! PROOFS. The P-steps (spec/42, spec/43): the statements O15 to O18 and O21 to O25, each the P-step's rule at its phase. -/

namespace Sys2Proof.Machine

/-- Settles O15: the P-step's rule at phase 1. -/
theorem encP1WritesTwoCharacters : Obligations.EncP1WritesTwoCharacters :=
  fun _ _ he hb hroom => encPhaseStep_eq he hb hroom

/-- Settles O16: the P-step's rule at phase 2. -/
theorem encP2WritesOneCharacter : Obligations.EncP2WritesOneCharacter :=
  fun _ _ he hb hroom => encPhaseStep_eq he hb hroom

/-- Settles O17: the P-step's rule at phase 3. -/
theorem encP3WritesTwoCharacters : Obligations.EncP3WritesTwoCharacters :=
  fun _ _ he hb hroom => encPhaseStep_eq he hb hroom

/-- Settles O18: the P-step's rule at phase 4. -/
theorem encP4WritesTwoCharacters : Obligations.EncP4WritesTwoCharacters :=
  fun _ _ he hb hroom => encPhaseStep_eq he hb hroom

/-- The two values a P-step of a phase that reads two takes (R173, R174, R176). -/
theorem decSymbols_of_two {p : Phase} {s : State} {v w : Symbol} (hp : decTake p = 2) (hi : s.dec.idx + 1 < s.dec.len)
    (hv : charValue s.inD s.dec.idx = some v) (hw : charValue s.inD (s.dec.idx + 1) = some w) :
    decSymbols p s = .ok (v, w) := by
  rw [decSymbols_ok, hp, if_pos rfl]
  exact ⟨hi, hv, hw⟩

/-- The one value a P-step of a phase that reads one takes (R175, R177). -/
theorem decSymbols_of_one {p : Phase} {s : State} {v : Symbol} (hp : decTake p = 1) (hi : s.dec.idx < s.dec.len)
    (hv : charValue s.inD s.dec.idx = some v) : decSymbols p s = .ok (v, 0) := by
  rw [decSymbols_ok, hp, if_neg (by decide)]
  exact ⟨hi, hv, rfl⟩

/-- Settles O21: the P-step's rule at phase 0. -/
theorem decP0WritesOneByte : Obligations.DecP0WritesOneByte :=
  fun _ _ _ he hi hv hw hroom => decPhaseStep_eq he (decSymbols_of_two rfl hi hv hw) hroom

/-- Settles O22: the P-step's rule at phase 1. -/
theorem decP1WritesOneByte : Obligations.DecP1WritesOneByte :=
  fun _ _ _ he hi hv hw hroom => decPhaseStep_eq he (decSymbols_of_two rfl hi hv hw) hroom

/-- Settles O23: the P-step's rule at phase 2. -/
theorem decP2WritesOneByte : Obligations.DecP2WritesOneByte :=
  fun _ _ he hi hv hroom => decPhaseStep_eq he (decSymbols_of_one rfl hi hv) hroom

/-- Settles O24: the P-step's rule at phase 3. -/
theorem decP3WritesOneByte : Obligations.DecP3WritesOneByte :=
  fun _ _ _ he hi hv hw hroom => decPhaseStep_eq he (decSymbols_of_two rfl hi hv hw) hroom

/-- Settles O25: the P-step's rule at phase 4. -/
theorem decP4WritesOneByte : Obligations.DecP4WritesOneByte :=
  fun _ _ he hi hv hroom => decPhaseStep_eq he (decSymbols_of_one rfl hi hv) hroom

end Sys2Proof.Machine
end

section
/-! PROOFS. Where a micro-step stops (R51, R55, R82, U5): not enabled, an input element that is not written, no room in the
output buffer; and the statements O28, O45 and O59. -/

namespace Sys2Proof.Machine

/-- The row of ENC's P-step of phase `p` (R82). -/
theorem exec_decodeEnc_true (p : Phase) (s : State) : exec (decodeEnc true p) s = encPhaseStep p s := by
  cases p <;> rfl

/-- Settles O28: each micro-step's meaning is guarded by its enable condition. -/
theorem microStepsOnlyWhereEnabled : Obligations.MicroStepsOnlyWhereEnabled := by
  intro s
  refine ⟨fun p h => ?_, fun h => if_neg h, fun h => if_neg h, fun p h => ?_, fun h => if_neg h⟩
  · rw [exec_decodeEnc_true]
    exact if_neg h
  · rw [exec_decodeDec_true]
    exact if_neg h

/-! ENC. -/

theorem memReadInE_unwritten {s : State} {i : Nat} (hi : i < s.enc.len) (hb : Memory.read s.inE i = none) :
    memReadInE s i = .error .unwritten := by
  rw [memReadInE, if_pos hi, readElement, hb]

/-- Below the output length, a text that does not fit the buffer the host provided stops at the buffer's end (U5). -/
theorem memWriteOutE_too_small {s : State} {k : Nat} {cs : List Byte} (hcs : cs ≠ []) (hlen : k + cs.length ≤ s.enc.olen)
    (hroom : ¬ HasRoom s.eCap (k + cs.length)) : memWriteOutE s k cs = .error .bufferTooSmall := by
  induction cs generalizing s k with
  | nil => exact absurd rfl hcs
  | cons c cs ih =>
    rw [List.length_cons] at hlen hroom
    rw [memWriteOutE, if_pos (by omega)]
    split
    · next hfits =>
      rw [fits_iff] at hfits
      have hne : cs ≠ [] := by
        rintro rfl
        exact hroom hfits
      have hsplit : k + 1 + cs.length = k + (cs.length + 1) := by omega
      exact ih hne (by rw [hsplit]; exact hlen) (by rw [hsplit]; exact hroom)
    · rfl

theorem encPhaseStep_unwritten {p : Phase} {s : State} (he : encEnabledAt p s) (hb : Memory.read s.inE s.enc.idx = none) :
    encPhaseStep p s = .fault .unwritten := by
  rw [encPhaseStep, if_pos he, memReadInE_unwritten he.2.1 hb]

theorem encPhaseStep_too_small {p : Phase} {s : State} {b : Byte} (he : encEnabledAt p s)
    (hb : Memory.read s.inE s.enc.idx = some b) (hlen : s.enc.oidx + (carryWidth p + 8) / 5 ≤ s.enc.olen)
    (hroom : ¬ HasRoom s.eCap (s.enc.oidx + (carryWidth p + 8) / 5)) : encPhaseStep p s = .fault .bufferTooSmall := by
  have hcount := length_encSymbols p s.enc.carry b
  have hpos : (encSymbols p s.enc.carry b).map romFwd ≠ [] := by cases p <;> simp [encSymbols]
  have hwrite := memWriteOutE_too_small (s := s) (k := s.enc.oidx) hpos
    (by rwa [List.length_map, hcount]) (by rwa [List.length_map, hcount])
  rw [encPhaseStep, if_pos he, memReadInE_ok.2 ⟨he.2.1, hb⟩]
  simp only [hwrite]

theorem encFlush_too_small {s : State} (he : s.enc.st = .run ∧ s.enc.idx = s.enc.len ∧ s.enc.ph ≠ .p0)
    (hlen : s.enc.oidx + 1 ≤ s.enc.olen) (hroom : ¬ HasRoom s.eCap (s.enc.oidx + 1)) :
    encFlush s = .fault .bufferTooSmall := by
  rw [encFlush, if_pos he, memWriteOutE_too_small (List.cons_ne_nil _ _) hlen hroom]

/-! DEC. -/

theorem readChecked_unwritten {s : State} {i : Nat} (hi : i < s.dec.len) (hc : Memory.read s.inD i = none) :
    readChecked s i = .error (.fault .unwritten) := by
  rw [readChecked, memReadInD, if_pos hi, readElement, hc]

/-- The three things a read of a character in range gives (R179, U5). -/
theorem readChecked_cases {s : State} {i : Nat} (hi : i < s.dec.len) :
    (∃ v, readChecked s i = .ok v) ∨ (∃ t, readChecked s i = .error (.next t)) ∨
      readChecked s i = .error (.fault .unwritten) := by
  cases hc : Memory.read s.inD i with
  | none => exact .inr (.inr (readChecked_unwritten hi hc))
  | some c =>
    cases hv : romInv c with
    | none => exact .inr (.inl ⟨_, readChecked_next.2 ⟨c, hi, hc, hv, rfl⟩⟩)
    | some v => exact .inl ⟨v, readChecked_ok.2 ⟨hi, by rw [charValue, hc, Option.bind_some, hv]⟩⟩

theorem decPhaseStep_first_unwritten {p : Phase} {s : State} (he : decEnabledAt p s) (hi : s.dec.idx < s.dec.len)
    (hc : Memory.read s.inD s.dec.idx = none) : decPhaseStep p s = .fault .unwritten := by
  rw [decPhaseStep, if_pos he, decSymbols, readChecked_unwritten hi hc]

theorem decPhaseStep_second_unwritten {p : Phase} {s : State} {v : Symbol} (he : decEnabledAt p s) (hp : decTake p = 2)
    (hi : s.dec.idx + 1 < s.dec.len) (hv : charValue s.inD s.dec.idx = some v)
    (hc : Memory.read s.inD (s.dec.idx + 1) = none) : decPhaseStep p s = .fault .unwritten := by
  have hfirst : readChecked s s.dec.idx = .ok v := readChecked_ok.2 ⟨by omega, hv⟩
  have hsecond := readChecked_unwritten hi hc
  simp only [decPhaseStep, if_pos he, decSymbols, hfirst, hp, if_true, hsecond]

theorem decPhaseStep_too_small {p : Phase} {s : State} {v w : Symbol} (he : decEnabledAt p s)
    (hvw : decSymbols p s = .ok (v, w)) (hroom : ¬ HasRoom s.dCap (s.dec.oidx + 1)) :
    decPhaseStep p s = .fault .bufferTooSmall := by
  have hwrite : memWriteOutD s s.dec.oidx (decByte p s.dec.carry v w) = .error .bufferTooSmall := by
    rw [memWriteOutD, if_pos he.2.1, if_neg (fits_iff.not.2 hroom)]
  simp only [decPhaseStep, if_pos he, hvw, hwrite]

/-- The values of a P-step whose characters are all the alphabet's and in range. -/
theorem decSymbols_of_valid {p : Phase} {s : State} (hle : s.dec.idx + decTake p ≤ s.dec.len)
    (hvalid : ∀ j, s.dec.idx ≤ j → j < s.dec.idx + decTake p → ∃ v, charValue s.inD j = some v) :
    ∃ v w, decSymbols p s = .ok (v, w) := by
  have htake : decTake p = 2 ∨ decTake p = 1 := by cases p <;> decide
  obtain ⟨v, hv⟩ := hvalid s.dec.idx le_rfl (by omega)
  rcases htake with htwo | hone
  · obtain ⟨w, hw⟩ := hvalid (s.dec.idx + 1) (by omega) (by omega)
    exact ⟨v, w, decSymbols_of_two htwo (by omega) hv hw⟩
  · exact ⟨v, 0, decSymbols_of_one hone (by omega) hv⟩

/-- Settles O59: a buffer that is provided is empty, and each micro-step stops at the first element it cannot read or
write. -/
theorem hostProvidesTheBuffers : Obligations.HostProvidesTheBuffers := by
  refine ⟨fun s size hrest => ?_, fun s size hrest => ?_, fun p s he hb => ?_, fun p s b n hn he hb hlen hroom => ?_,
    fun s hrun hend hp0 hlen hroom => ?_, fun p s he hi hc => ?_, fun p s v hp he hi hv hc => ?_,
    fun p s n hn he hle hvalid hroom => ?_⟩
  · exact ⟨_, provideBuffer_eq size hrest, rfl, fun m => by simp [State.provided, HasRoom],
      fun i => hostRead_eq (sp := .outE) hrest⟩
  · exact ⟨_, provideBuffer_eq size hrest, rfl, fun m => by simp [State.provided, HasRoom],
      fun i => hostRead_eq (sp := .outD) hrest⟩
  · rw [exec_decodeEnc_true]
    exact encPhaseStep_unwritten he hb
  · obtain rfl : n = (carryWidth p + 8) / 5 := by
      simp only [List.mem_cons, Prod.mk.injEq, List.not_mem_nil, or_false] at hn
      rcases hn with ⟨rfl, rfl⟩ | ⟨rfl, rfl⟩ | ⟨rfl, rfl⟩ | ⟨rfl, rfl⟩ | ⟨rfl, rfl⟩ <;> rfl
    rw [exec_decodeEnc_true]
    exact encPhaseStep_too_small he hb hlen hroom
  · exact encFlush_too_small ⟨hrun, hend, hp0⟩ hlen hroom
  · rw [exec_decodeDec_true]
    exact decPhaseStep_first_unwritten he hi hc
  · have htwo : decTake p = 2 := by rcases hp with rfl | rfl | rfl <;> rfl
    rw [exec_decodeDec_true]
    exact decPhaseStep_second_unwritten he htwo hi hv hc
  · obtain rfl : n = decTake p := by
      simp only [List.mem_cons, Prod.mk.injEq, List.not_mem_nil, or_false] at hn
      rcases hn with ⟨rfl, rfl⟩ | ⟨rfl, rfl⟩ | ⟨rfl, rfl⟩ | ⟨rfl, rfl⟩ | ⟨rfl, rfl⟩ <;> rfl
    obtain ⟨v, w, hvw⟩ := decSymbols_of_valid hle hvalid
    rw [exec_decodeDec_true]
    exact decPhaseStep_too_small he hvw hroom

/-! The selected micro-step stays in range. -/

/-- The outcomes of a selected micro-step: a next state, or a stop that is the host's fault (R55, U5). -/
def InRange (o : Out) : Prop := (∃ t, o = .next t) ∨ o = .fault .unwritten ∨ o = .fault .bufferTooSmall

theorem encMicro_inRange {s : State} (hinv : EncInv s) : InRange (encMicro s) := by
  by_cases hrun : s.enc.st = .run
  · obtain ⟨hp, hoidx, hle, holen, -, -⟩ := hinv.1 hrun
    rcases hle.lt_or_eq with hmore | hend
    · have hlen : s.enc.oidx + (carryWidth s.enc.ph + 8) / 5 ≤ s.enc.olen := by
        rw [carryWidth_eq hp, hoidx, holen, lenEnc]
        omega
      rw [encMicro_of_more hrun hmore]
      cases hb : Memory.read s.inE s.enc.idx with
      | none => exact .inr (.inl (encPhaseStep_unwritten ⟨hrun, hmore, rfl⟩ hb))
      | some b =>
        by_cases hroom : HasRoom s.eCap (s.enc.oidx + (carryWidth s.enc.ph + 8) / 5)
        · exact .inl ⟨_, encPhaseStep_eq ⟨hrun, hmore, rfl⟩ hb (by rw [length_encSymbols]; exact ⟨hlen, hroom⟩)⟩
        · exact .inr (.inr (encPhaseStep_too_small ⟨hrun, hmore, rfl⟩ hb hlen hroom))
    · rw [encMicro_of_all_read hrun hend]
      split
      · next hp0 => exact .inl ⟨_, encFinish_eq ⟨hrun, hend, hp0⟩⟩
      · next hp0 =>
        have hlen := (hinv.oidx_add_one_eq_olen hrun hend hp0).le
        by_cases hroom : HasRoom s.eCap (s.enc.oidx + 1)
        · exact .inl ⟨_, encFlush_eq ⟨hrun, hend, hp0⟩ ⟨hlen, hroom⟩⟩
        · exact .inr (.inr (encFlush_too_small ⟨hrun, hend, hp0⟩ hlen hroom))
  · exact .inl ⟨s, if_neg hrun⟩

/-- A P-step whose characters are in range reads their values, or stops as a read of one of them does. -/
theorem decSymbols_cases {p : Phase} {s : State} (hle : s.dec.idx + decTake p ≤ s.dec.len) :
    (∃ v w, decSymbols p s = .ok (v, w)) ∨ (∃ t, decSymbols p s = .error (.next t)) ∨
      decSymbols p s = .error (.fault .unwritten) := by
  have htake : decTake p = 2 ∨ decTake p = 1 := by cases p <;> decide
  rcases readChecked_cases (s := s) (i := s.dec.idx) (by omega) with ⟨v, hv⟩ | ⟨t, ht⟩ | hfault
  · rcases htake with htwo | hone
    · rcases readChecked_cases (s := s) (i := s.dec.idx + 1) (by omega) with ⟨w, hw⟩ | ⟨t, ht⟩ | hfault
      · exact .inl ⟨v, w, by simp [decSymbols, hv, htwo, hw]⟩
      · exact .inr (.inl ⟨t, by simp [decSymbols, hv, htwo, ht]⟩)
      · exact .inr (.inr (by simp [decSymbols, hv, htwo, hfault]))
    · exact .inl ⟨v, 0, by simp [decSymbols, hv, hone]⟩
  · exact .inr (.inl ⟨t, by rw [decSymbols, ht]⟩)
  · exact .inr (.inr (by rw [decSymbols, hfault]))

theorem decMicro_inRange {s : State} (hinv : DecInv s) : InRange (decMicro s) := by
  by_cases hrun : s.dec.st = .run
  · obtain ⟨-, -, hle, -⟩ := hinv hrun
    rcases hle.lt_or_eq with hmore | hend
    · have he : decEnabledAt s.dec.ph s := ⟨hrun, hmore, rfl⟩
      rw [decMicro_of_more hrun hmore]
      rcases decSymbols_cases (hinv.idx_add_decTake_le hrun hmore) with ⟨v, w, hvw⟩ | ⟨t, ht⟩ | hfault
      · by_cases hroom : HasRoom s.dCap (s.dec.oidx + 1)
        · exact .inl ⟨_, decPhaseStep_eq he hvw hroom⟩
        · exact .inr (.inr (decPhaseStep_too_small he hvw hroom))
      · exact .inl ⟨t, by rw [decPhaseStep, if_pos he, ht]⟩
      · exact .inr (.inl (by rw [decPhaseStep, if_pos he, hfault]))
    · exact .inl ⟨_, (decMicro_of_all_written hrun hend).trans (decFinish_eq ⟨hrun, hend⟩)⟩
  · exact .inl ⟨s, decMicro_of_not_run hrun⟩

theorem InRange.ne_fault {o : Out} {f : Fault} (h : InRange o) (hf : f ≠ .unwritten) (hf' : f ≠ .bufferTooSmall) :
    o ≠ .fault f := by
  rintro rfl
  rcases h with ⟨t, ht⟩ | hfault | hfault
  · cases ht
  · cases hfault
    exact hf rfl
  · cases hfault
    exact hf' rfl

/-- Settles O45: under the invariants a selected micro-step answers, or stops for want of an input element or of room. -/
theorem microStepsStayInRange : Obligations.MicroStepsStayInRange := by
  intro u s henc hdec
  have hrange : InRange (unitStep u s) := by
    cases u with
    | enc => rw [unitStep_enc]; exact encMicro_inRange henc
    | dec => rw [unitStep_dec]; exact decMicro_inRange hdec
  exact ⟨hrange.ne_fault (by decide) (by decide), hrange.ne_fault (by decide) (by decide),
    hrange.ne_fault (by decide) (by decide)⟩

end Sys2Proof.Machine
end

section
/-! PROOFS. ENCODE and DECODE micro-step by micro-step (R150, R181, R208, R245): where a run stands after `n` micro-steps, how
it ends, and the statements O36, O37 and O38. -/

namespace Sys2Proof.Machine

/-- A run of ENC in two parts. -/
theorem encRun_add (m n : Nat) (s : State) : encRun (m + n) s = andThen (encRun m s) (encRun n) := by
  induction m generalizing s with
  | zero => rw [Nat.zero_add]; rfl
  | succ m ih =>
    rw [Nat.add_right_comm, encRun, encRun]
    cases encMicro s with
    | next t => exact ih t
    | fault r => rfl
    | refused r => rfl

/-- A run of DEC in two parts. -/
theorem decRun_add (m n : Nat) (s : State) : decRun (m + n) s = andThen (decRun m s) (decRun n) := by
  induction m generalizing s with
  | zero => rw [Nat.zero_add]; rfl
  | succ m ih =>
    rw [Nat.add_right_comm, decRun, decRun]
    cases decMicro s with
    | next t => exact ih t
    | fault r => rfl
    | refused r => rfl

/-- One more micro-step of ENC. -/
theorem encRun_succ_of_next {n : Nat} {s t u : State} (h : encRun n s = .next t) (hu : encMicro t = .next u) :
    encRun (n + 1) s = .next u := by
  rw [encRun_add, h, andThen_next]
  exact andThen_eq_next.2 ⟨u, hu, rfl⟩

/-- One more micro-step of DEC. -/
theorem decRun_succ_of_next {n : Nat} {s t u : State} (h : decRun n s = .next t) (hu : decMicro t = .next u) :
    decRun (n + 1) s = .next u := by
  rw [decRun_add, h, andThen_next]
  exact andThen_eq_next.2 ⟨u, hu, rfl⟩

/-- Settles O37: the whole operations run the micro-steps that the control state selects. -/
theorem operationIsStartThenMicroSteps : Obligations.OperationIsStartThenMicroSteps := by
  intro s len
  have henc : unitRun .enc (len + 1) = encRun (len + 1) := funext (unitRun_enc _)
  have hdec : unitRun .dec (lenDec len + 1) = decRun (lenDec len + 1) := funext (unitRun_dec _)
  rw [henc, hdec]
  exact ⟨exec_encode len s, exec_decode len s⟩

/-! ENCODE. -/

/-- An ENCODE leaves what is not ENC's (R20). -/
theorem EncodesTo.onlyEncoderMoved {s t : State} {len : Nat} (h : EncodesTo s len t) : OnlyEncoderMoved s t := by
  rw [h.1]
  exact .refl s

/-- A micro-step carries an ENCODE on. -/
theorem EncodesTo.of_encMicro {s t u : State} {len : Nat} (hto : EncodesTo s len t) (hinv : EncInv t)
    (h : encMicro t = .next u) : EncodesTo s len u :=
  hto.trans_emitsFrom (encMicro_emits hinv h)

section
variable {s : State} {len : Nat} (hwritten : Written s.inE len) (hroom : HasRoom s.eCap (lenEnc len))
include hwritten hroom

/-- After `n` micro-steps ENC has read `n` bytes (R150). -/
theorem encRun_reads_bytes {n : Nat} (hn : n ≤ len) :
    ∃ t, encRun n (s.withEnc (.started len)) = .next t ∧ EncInv t ∧ EncodesTo s len t ∧ t.enc.st = .run ∧
      t.enc.idx = n := by
  induction n with
  | zero => exact ⟨_, rfl, encInv_started s len, encodesTo_started s len, rfl, rfl⟩
  | succ n ih =>
    obtain ⟨t, ht, hinv, hto, hrun, hidx⟩ := ih (by omega)
    obtain ⟨-, hlen, holen, -⟩ := id hto
    obtain ⟨-, hinE, -, -, hcap, -⟩ := hto.onlyEncoderMoved
    obtain ⟨u, hu, hrun', hidx', -⟩ := encMicro_reads_byte hinv hrun (by omega) (by rwa [hinE, hlen])
      (by rwa [hcap, holen])
    exact ⟨u, encRun_succ_of_next ht hu, encMicro_keeps_encInv hinv hu, hto.of_encMicro hinv hu, hrun', by omega⟩

/-- One micro-step after the last byte every character is emitted (R150). -/
theorem encRun_ends : ∃ t, encRun (len + 1) (s.withEnc (.started len)) = .next t ∧ t.enc.st = .done ∧
    t.enc.oidx = lenEnc len := by
  obtain ⟨t, ht, hinv, hto, hrun, hidx⟩ := encRun_reads_bytes hwritten hroom le_rfl
  obtain ⟨-, hlen, holen, -⟩ := id hto
  obtain ⟨-, -, -, -, hcap, -⟩ := hto.onlyEncoderMoved
  obtain ⟨u, hu, hdone⟩ := encMicro_ends hinv hrun (by omega) (by rwa [hcap, holen])
  obtain ⟨-, -, holen', hstatus⟩ := hto.of_encMicro hinv hu
  have hall := (encMicro_keeps_encInv hinv hu).2 hdone hstatus
  exact ⟨u, encRun_succ_of_next ht hu, hdone, hall.trans holen'⟩

end

/-! DECODE. -/

/-- What a DECODE from `s` counts and which elements it leaves unspecified: without an error no more bytes are counted than
are written, and the written ones are specified; with one none is counted and the whole buffer is unspecified (R59, R179). -/
def DecSettles (s t : State) : Prop :=
  (t.dec.status = .ok → t.dec.olen ≤ t.dec.oidx ∧
    ∀ k, openAt t.dOpen k = if k < t.dec.oidx then none else openAt s.dOpen k) ∧
  (t.dec.status ≠ .ok → t.dec.olen = 0 ∧ t.dOpen = unspecifiedFrom s)

theorem decSettles_started (s : State) (len : Nat) : DecSettles s (s.withDec (.started len)) :=
  ⟨fun _ => ⟨le_rfl, fun _ => rfl⟩, fun hne => absurd rfl hne⟩

/-- Every element is unspecified since the draw. -/
theorem unspecifiedFrom_congr {s t : State} (h : t.draw = s.draw) : unspecifiedFrom t = unspecifiedFrom s := by
  rw [unspecifiedFrom, h, unspecifiedFrom]

theorem DecSettles.of_decMicro {s t u : State} (hset : DecSettles s t) (hdraw : t.draw = s.draw) (hinv : DecInv t)
    (h : decMicro t = .next u) : DecSettles s u := by
  obtain ⟨hok, hbad⟩ := id hset
  rcases decMicro_next h with rfl | ⟨p, h⟩ | h
  · exact hset
  · obtain ⟨⟨hrun, -, rfl⟩, ⟨v, w, -, -, rfl⟩ | ⟨c, i, -, -, -, -, -, -, rfl⟩⟩ := decPhaseStep_next h
    · obtain ⟨-, -, -, -, -, -, -, -, hstatus, -⟩ := hinv hrun
      obtain ⟨holen, hopen⟩ := hok hstatus
      refine ⟨fun _ => ⟨holen.trans (Nat.le_succ _), fun k => ?_⟩, fun hne => absurd hstatus hne⟩
      change openAt (settle t.dOpen t.dec.oidx) k = if k < t.dec.oidx + 1 then none else openAt s.dOpen k
      rw [openAt_settle, hopen]
      rcases lt_trichotomy k t.dec.oidx with hk | rfl | hk
      · rw [if_neg hk.ne, if_pos hk, if_pos (by omega)]
      · rw [if_pos rfl, if_pos (by omega)]
      · rw [if_neg hk.ne', if_neg hk.not_gt, if_neg (by omega)]
    · exact ⟨fun hstatus => (nomatch hstatus), fun _ => ⟨rfl, unspecifiedFrom_congr hdraw⟩⟩
  · obtain ⟨⟨hrun, hend⟩, rfl⟩ := decFinish_next h
    obtain ⟨-, -, -, -, -, -, -, -, hstatus, -⟩ := hinv hrun
    exact ⟨fun _ => ⟨hend.ge, (hok hstatus).2⟩, fun hne => absurd hstatus hne⟩

/-- `t` is reached in a DECODE of `len` characters from `s`: what it has written, counted and left unspecified. -/
def DecReaches (s : State) (len : Nat) (t : State) : Prop :=
  DecInv t ∧ DecodesTo s len t ∧ DecSettles s t

theorem decReaches_started (s : State) {len : Nat} (hlen : lenChk len = true) :
    DecReaches s len (s.withDec (.started len)) :=
  ⟨decInv_started s hlen, decodesTo_started s len, decSettles_started s len⟩

/-- A micro-step carries a DECODE on. -/
theorem DecReaches.of_decMicro {s t u : State} {len : Nat} (hreach : DecReaches s len t) (h : decMicro t = .next u) :
    DecReaches s len u := by
  obtain ⟨hinv, hto, hset⟩ := hreach
  obtain ⟨⟨-, -, -, -, -, -, -, -, -, hdraw⟩, -⟩ := id hto
  exact ⟨decMicro_keeps_decInv hinv h, hto.of_decMicro hinv h, hset.of_decMicro hdraw hinv h⟩

theorem AllValid.mono {m : Memory} {n k : Nat} (h : AllValid m n) (hk : k ≤ n) : AllValid m k :=
  fun j hj => h j (hj.trans_le hk)

/-- A text holds the characters of the bytes below its last whole one (R121, R123). -/
theorem lenEnc_le_of_le_lenDec {n l : Nat} (h : n ≤ lenDec l) : lenEnc n ≤ l := by
  rw [lenEnc_le_iff]
  unfold lenDec at h
  omega

/-- The characters of one byte more reach beyond index `j` (R121, R123). -/
theorem lt_lenEnc_lenDec_succ (j : Nat) : j < lenEnc (lenDec j + 1) := by
  rw [← not_le, lenEnc_le_iff]
  unfold lenDec
  omega

/-- In a text of valid length the whole bytes before any character are fewer than those of the text (R124). -/
theorem lenDec_lt_lenDec {j l : Nat} (hl : lenChk l = true) (hj : j < l) : lenDec j < lenDec l := by
  by_contra hle
  have hreach := lenEnc_le_of_le_lenDec (not_lt.1 hle)
  rw [lenEnc_lenDec hl] at hreach
  omega

section
variable {s : State} {len : Nat} (hlen : lenChk len = true) (hroom : HasRoom s.dCap (lenDec len))
include hlen hroom

/-- After `n` micro-steps over characters of the alphabet DEC has written `n` bytes (R181). -/
theorem decRun_writes_bytes {n : Nat} (hn : n ≤ lenDec len) (hvalid : AllValid s.inD (lenEnc n)) :
    ∃ t, decRun n (s.withDec (.started len)) = .next t ∧ DecReaches s len t ∧ t.dec.st = .run ∧ t.dec.oidx = n := by
  induction n with
  | zero => exact ⟨_, rfl, decReaches_started s hlen, rfl, rfl⟩
  | succ n ih =>
    obtain ⟨t, ht, hreach, hrun, hoidx⟩ := ih (by omega) (hvalid.mono (by unfold lenEnc; omega))
    obtain ⟨hinv, ⟨⟨-, -, -, hinD, -, hcap, -⟩, htlen, -⟩, -⟩ := id hreach
    obtain ⟨hp, hidx, -, -, -, htgt, -⟩ := hinv hrun
    have hmore : t.dec.oidx < t.dec.tgt := by rw [htgt, htlen]; omega
    have hnext : t.dec.idx + decTake t.dec.ph = lenEnc (n + 1) := by rw [hidx, ← lenEnc_succ hp, hoidx]
    obtain ⟨v, w, hvw⟩ := decSymbols_of_valid (hinv.idx_add_decTake_le hrun hmore) fun j _ hj => by
      rw [hinD]
      exact hvalid j (by omega)
    have hstep := (decMicro_of_more hrun hmore).trans
      (decPhaseStep_eq ⟨hrun, hmore, rfl⟩ hvw (hcap ▸ hroom.mono (by omega)))
    exact ⟨_, decRun_succ_of_next ht hstep, hreach.of_decMicro hstep, hrun, by rw [← hoidx]; rfl⟩

/-- On a text of the alphabet the run ends one micro-step after the last byte, with no error (R178, R181). -/
theorem decRun_ends (hvalid : AllValid s.inD len) :
    ∃ t, decRun (lenDec len + 1) (s.withDec (.started len)) = .next t ∧ DecReaches s len t ∧ t.dec.st = .done ∧
      t.dec.status = .ok ∧ t.dec.oidx = lenDec len ∧ t.dec.olen = lenDec len ∧ t.dec.errChar = 0 ∧ t.dec.errPos = 0 := by
  obtain ⟨t, ht, hreach, hrun, hoidx⟩ := decRun_writes_bytes hlen hroom le_rfl
    (hvalid.mono (lenEnc_lenDec hlen).le)
  obtain ⟨hinv, ⟨-, htlen, -⟩, -⟩ := id hreach
  obtain ⟨-, -, -, -, -, htgt, -, -, hstatus, -, hchar, hpos, -⟩ := hinv hrun
  rw [htlen] at htgt
  have hend := hoidx.trans htgt.symm
  have hstep := (decMicro_of_all_written hrun hend).trans (decFinish_eq ⟨hrun, hend⟩)
  exact ⟨_, decRun_succ_of_next ht hstep, hreach.of_decMicro hstep, rfl, hstatus, hoidx, htgt, hchar, hpos⟩

/-- With the first character outside the alphabet at `j` the run ends one micro-step after the last byte before it (R179,
R208). -/
theorem decRun_ends_at_bad {j : Nat} {c : Byte} (hbad : FirstBad s.inD len j c) :
    ∃ t, decRun (lenDec j + 1) (s.withDec (.started len)) = .next t ∧ DecReaches s len t ∧ t.dec.st = .done ∧
      t.dec.status = .errChar ∧ t.dec.oidx = lenDec j ∧ t.dec.olen = 0 ∧ t.dec.errChar = c ∧ t.dec.errPos = j := by
  obtain ⟨hj, hc, hinvalid, hvalid⟩ := hbad
  have hlt := lenDec_lt_lenDec hlen hj
  obtain ⟨t, ht, hreach, hrun, hoidx⟩ := decRun_writes_bytes hlen hroom hlt.le
    (hvalid.mono (lenEnc_le_of_le_lenDec le_rfl))
  obtain ⟨hinv, ⟨⟨-, -, -, hinD, -⟩, htlen, -⟩, -⟩ := id hreach
  obtain ⟨hp, hidx, -, -, -, htgt, -⟩ := hinv hrun
  have hmore : t.dec.oidx < t.dec.tgt := by rw [htgt, htlen]; omega
  have hmeets : MeetsBad t.dec.ph t c j := by
    refine ⟨?_, ?_, htlen ▸ hj, hinD ▸ hc, hinvalid, fun i _ hi => hinD ▸ hvalid i hi⟩
    · rw [hidx, hoidx]
      exact lenEnc_le_of_le_lenDec le_rfl
    · rw [hidx, ← lenEnc_succ hp, hoidx]
      exact lt_lenEnc_lenDec_succ j
  have hstep := (decMicro_of_more hrun hmore).trans (decPhaseStep_bad ⟨hrun, hmore, rfl⟩ hmeets)
  exact ⟨_, decRun_succ_of_next ht hstep, hreach.of_decMicro hstep, rfl, rfl, hoidx, rfl, rfl, rfl⟩

end

/-! START and then `n` micro-steps. -/

theorem encStart_then_unitRun {s : State} (len n : Nat) (hrest : s.enc.st ≠ .run) :
    andThen (exec (.encStart false len) s) (unitRun .enc n) = encRun n (s.withEnc (.started len)) := by
  rw [← unitRun_enc]
  exact congrArg (andThen · (unitRun .enc n)) (encStart_present len hrest)

theorem decStart_then_unitRun {s : State} {len : Nat} (n : Nat) (hrest : s.dec.st ≠ .run) (hlen : lenChk len = true) :
    andThen (exec (.decStart false len) s) (unitRun .dec n) = decRun n (s.withDec (.started len)) := by
  rw [← unitRun_dec]
  exact congrArg (andThen · (unitRun .dec n)) (decStart_valid hrest hlen)

/-- Settles O38: each micro-step reads one byte or writes one, and the invariants give the other index. -/
theorem operationsTakeTheirMicroSteps : Obligations.OperationsTakeTheirMicroSteps := by
  refine ⟨fun s len hrest hwritten hroom => ⟨fun n hn => ?_, ?_⟩,
    fun s len hrest hlen hvalid hroom => ⟨fun n hn => ?_, ?_⟩,
    fun s len j c hrest hlen hbad hroom => ⟨fun n hn => ?_, ?_⟩⟩
  · obtain ⟨t, ht, hinv, -, hrun, hidx⟩ := encRun_reads_bytes hwritten hroom hn
    obtain ⟨-, hoidx, -⟩ := hinv.1 hrun
    exact ⟨t, (encStart_then_unitRun len n hrest).trans ht, hrun, hidx, hidx ▸ hoidx⟩
  · obtain ⟨t, ht, hdone, hoidx⟩ := encRun_ends hwritten hroom
    exact ⟨t, (encStart_then_unitRun len _ hrest).trans ht, hdone, hoidx⟩
  · obtain ⟨t, ht, ⟨hinv, -⟩, hrun, hoidx⟩ := decRun_writes_bytes hlen hroom hn
      (hvalid.mono (lenEnc_le_of_le_lenDec hn))
    obtain ⟨-, hidx, -⟩ := hinv hrun
    exact ⟨t, (decStart_then_unitRun n hrest hlen).trans ht, hrun, hoidx, hoidx ▸ hidx⟩
  · obtain ⟨t, ht, -, hdone, -⟩ := decRun_ends hlen hroom hvalid
    exact ⟨t, (decStart_then_unitRun _ hrest hlen).trans ht, hdone⟩
  · obtain ⟨hj, -, -, hvalid⟩ := hbad
    have hlt := lenDec_lt_lenDec hlen hj
    obtain ⟨t, ht, -, hrun, -⟩ := decRun_writes_bytes hlen hroom (hn.trans hlt.le)
      (hvalid.mono (lenEnc_le_of_le_lenDec hn))
    exact ⟨t, (decStart_then_unitRun n hrest hlen).trans ht, hrun⟩
  · obtain ⟨t, ht, -, hdone, hstatus, -⟩ := decRun_ends_at_bad hlen hroom hbad
    exact ⟨t, (decStart_then_unitRun _ hrest hlen).trans ht, hdone, hstatus⟩

/-! DECODE as a whole. -/

/-- DECODE of a text of valid length and characters (R170, R182). -/
theorem exec_decode_ok {s : State} {len : Nat} (hrest : s.dec.st ≠ .run) (hlen : lenChk len = true)
    (hvalid : AllValid s.inD len) (hroom : HasRoom s.dCap (lenDec len)) :
    ∃ t, exec (.decode len) s = .next t ∧ DecReaches s len t ∧ t.dec.st = .done ∧ t.dec.status = .ok ∧
      t.dec.oidx = lenDec len ∧ t.dec.olen = lenDec len ∧ t.dec.errChar = 0 ∧ t.dec.errPos = 0 := by
  obtain ⟨t, ht, hreach, hend⟩ := decRun_ends hlen hroom hvalid
  exact ⟨t, andThen_eq_next.2 ⟨_, decStart_valid hrest hlen, ht⟩, hreach, hend⟩

/-- DECODE of a text whose first character outside the alphabet stands at `j`: the unit holds `DONE` for the micro-steps that
are left (R170, R207). -/
theorem exec_decode_bad {s : State} {len j : Nat} {c : Byte} (hrest : s.dec.st ≠ .run) (hlen : lenChk len = true)
    (hbad : FirstBad s.inD len j c) (hroom : HasRoom s.dCap (lenDec len)) :
    ∃ t, exec (.decode len) s = .next t ∧ DecReaches s len t ∧ t.dec.st = .done ∧ t.dec.status = .errChar ∧
      t.dec.oidx = lenDec j ∧ t.dec.olen = 0 ∧ t.dec.errChar = c ∧ t.dec.errPos = j := by
  obtain ⟨t, ht, hreach, hdone, hend⟩ := decRun_ends_at_bad hlen hroom hbad
  have hlt := lenDec_lt_lenDec hlen hbad.1
  have hrun : decRun (lenDec len + 1) (s.withDec (.started len)) = .next t := by
    rw [show lenDec len + 1 = (lenDec j + 1) + (lenDec len - lenDec j) by omega, decRun_add, ht, andThen_next,
      decRun_of_not_run _ (by rw [hdone]; decide)]
  exact ⟨t, andThen_eq_next.2 ⟨_, decStart_valid hrest hlen, hrun⟩, hreach, hdone, hend⟩

/-- DECODE of a text whose length is rejected (R170, R172). -/
theorem exec_decode_bad_length {s : State} {len : Nat} (hrest : s.dec.st ≠ .run) (hlen : lenChk len = false) :
    exec (.decode len) s =
      .next (raise .dec (.length len) (s.withDec { s.dec with errChar := 0, errPos := 0 })) :=
  andThen_eq_next.2 ⟨_, decStart_bad_length hrest hlen, decRun_of_not_run _ (by simp [raise_dec_length])⟩

/-- Settles O36: the three errors in the order of START's checks and the P-steps', and else every byte. -/
theorem decodeMeetsTheClosedForm : Obligations.DecodeMeetsTheClosedForm := by
  refine fun s len hrest => ⟨?_, fun hlen => ?_, fun j c hlen hbad hroom => ?_, fun hlen hvalid hroom => ?_⟩
  · exact ⟨_, (exec_decodeAbsent len s).trans (decStart_absent len hrest), rfl, rfl, rfl, rfl, .refl s⟩
  · exact ⟨_, exec_decode_bad_length hrest hlen, rfl, rfl, rfl, rfl, rfl, rfl, rfl, .refl s⟩
  · obtain ⟨t, ht, ⟨-, ⟨hmoved, htlen, houtside, hbytes⟩, -⟩, hdone, hstatus, hoidx, holen, hchar, hpos⟩ :=
      exec_decode_bad hrest hlen hbad hroom
    rw [hoidx] at houtside hbytes
    exact ⟨t, ht, hdone, hstatus, htlen, holen, hchar, hpos, hbytes, fun k hk => houtside k (.inr hk), hmoved⟩
  · obtain ⟨t, ht, ⟨-, ⟨hmoved, htlen, houtside, hbytes⟩, hset⟩, hdone, hstatus, hoidx, holen, hchar, hpos⟩ :=
      exec_decode_ok hrest hlen hvalid hroom
    obtain ⟨-, hopen⟩ := hset.1 hstatus
    rw [hoidx] at houtside hbytes hopen
    refine ⟨t, ht, hdone, hstatus, htlen, holen, hchar, hpos, fun k hk => ⟨hbytes k hk, ?_⟩,
      fun k hk => ⟨houtside k (.inr hk), ?_⟩, hmoved⟩
    · rw [hopen, if_pos hk]
    · rw [hopen, if_neg hk.not_gt]

end Sys2Proof.Machine
end

section
/-! PROOFS. The round trips (R180, R183): the bitstream of a text is that of the bytes it encodes, and the statements O39 and
O40. -/

namespace Sys2Proof.Machine

/-- A character has a value exactly where it is that value's character (R102, R103). -/
theorem charValue_eq_some_iff {m : Memory} {j : Nat} {v : Symbol} :
    charValue m j = some v ↔ Memory.read m j = some (romFwd v) := by
  rw [charValue, Option.bind_eq_some_iff]
  simp only [romInv_eq_some_iff]
  exact ⟨fun ⟨c, hc, hv⟩ => hv ▸ hc, fun h => ⟨_, h, rfl⟩⟩

/-- `d` holds below `l` the characters of the closed form of ENCODE (R140). -/
def HoldsText (m : Memory) (n : Nat) (d : Memory) (l : Nat) : Prop :=
  ∀ k, k < l → charValue d k = some (encVal m n k)

/-- The bitstream of the text is the encoder's, bit by bit (R54). -/
theorem HoldsText.outBit_eq {m d : Memory} {n l : Nat} (h : HoldsText m n d l) {i : Nat} (hi : i < 5 * l) :
    outBit d i = inBit m n i := by
  have hbit := outBit_of_charValue (h (i / 5) (by omega)) (Nat.mod_lt i (by decide : 0 < 5))
  rw [getLsbD_encVal m n _ (by omega), show 4 - (4 - i % 5) = i % 5 by omega, Nat.div_add_mod] at hbit
  exact hbit

/-- A text of the alphabet holds the characters of the closed form exactly where the bitstreams are equal (R54). -/
theorem holdsText_iff {m d : Memory} {n l : Nat} (hvalid : AllValid d l) :
    HoldsText m n d l ↔ ∀ i, i < 5 * l → outBit d i = inBit m n i := by
  refine ⟨fun h i => h.outBit_eq, fun h k hk => ?_⟩
  obtain ⟨v, hv⟩ := hvalid k hk
  rw [hv, Option.some.injEq]
  refine BitVec.eq_of_getLsbD_eq fun i hi => ?_
  rw [getLsbD_encVal m n k hi, ← h _ (by omega), outBit_of_charValue hv (by omega), show 4 - (4 - i) = i by omega]

/-- Byte `k` of the text's bitstream is the byte encoded (R183). -/
theorem HoldsText.decVal_eq {m d : Memory} {n k : Nat} {b : Byte} (h : HoldsText m n d (lenEnc n)) (hk : k < n)
    (hb : Memory.read m k = some b) : decVal d k = b := by
  have hbits := le_lenEnc n
  refine BitVec.eq_of_getLsbD_eq fun i hi => ?_
  rw [getLsbD_decVal d k hi, h.outBit_eq (by omega), inBit_of_byte hb hk (by omega), show 7 - (7 - i) = i by omega]

/-- LEN.DEC inverts LEN.ENC (R127). -/
theorem lenDec_lenEnc (n : Nat) : lenDec (lenEnc n) = n := by
  unfold lenDec lenEnc
  omega

/-- The length of an encoded text is valid (R127): a character less holds fewer whole bytes. -/
theorem lenChk_lenEnc (n : Nat) : lenChk (lenEnc n) = true := by
  cases hl : lenEnc n with
  | zero => rfl
  | succ l =>
    rw [lenChk_succ, ← hl, lenDec_lenEnc]
    intro hsame
    have hle := lenEnc_le_of_le_lenDec hsame.le
    omega

/-- Settles O39: ENCODE leaves a text of valid length over the alphabet, whose bitstream is the bytes'. -/
theorem decodeOfEncodeIsTheIdentity : Obligations.DecodeOfEncodeIsTheIdentity := by
  intro s len hrest hwritten hroom
  obtain ⟨t, ht, -, hstatus, holen, hchars, -⟩ := encodeMeetsTheClosedForm s len hrest hwritten hroom
  refine ⟨t, ht, hstatus, fun d hdrest hsame hdroom => ?_⟩
  rw [holen] at hsame ⊢
  have htext : HoldsText s.inE len d.inD (lenEnc len) := fun k hk =>
    charValue_eq_some_iff.2 ((hsame k hk).symm.trans (hchars k hk).1)
  obtain ⟨-, -, -, hdecode⟩ := decodeMeetsTheClosedForm d (lenEnc len) hdrest
  obtain ⟨u, hu, -, hustatus, -, huolen, -, -, hbytes, -⟩ :=
    hdecode (lenChk_lenEnc len) (fun k hk => ⟨_, htext k hk⟩) (by rwa [lenDec_lenEnc])
  rw [lenDec_lenEnc] at huolen hbytes
  refine ⟨u, hu, hustatus, huolen, fun k hk => ?_⟩
  obtain ⟨b, hb⟩ := hwritten k hk
  rw [hb, (hbytes k hk).1, htext.decVal_eq hk hb]

/-- The encoder's bitstream of decoded bytes is the text's, with zeros for its discarded bits (R54, R180). -/
theorem inBit_of_decoded {d m : Memory} {n : Nat} (hbytes : ∀ k, k < n → Memory.read m k = some (decVal d k)) (i : Nat) :
    inBit m n i = if i < 8 * n then outBit d i else false := by
  split
  · next hi =>
    have hbit := inBit_of_byte (hbytes (i / 8) (by omega)) (n := n) (by omega) (Nat.mod_lt i (by decide : 0 < 8))
    rw [getLsbD_decVal d _ (by omega), show 7 - (7 - i % 8) = i % 8 by omega, Nat.div_add_mod] at hbit
    exact hbit
  · next hi => exact inBit_of_le m (not_lt.1 hi)

/-- The two bitstreams are equal exactly where the text's discarded bits are zero (R180). -/
theorem outBit_eq_inBit_iff {d m : Memory} {n l : Nat} (hbytes : ∀ k, k < n → Memory.read m k = some (decVal d k)) :
    (∀ i, i < 5 * l → outBit d i = inBit m n i) ↔ ∀ i, 8 * n ≤ i → i < 5 * l → outBit d i = false := by
  simp only [inBit_of_decoded hbytes]
  constructor
  · intro h i hlo hhi
    rw [h i hhi, if_neg hlo.not_gt]
  · intro h i hhi
    split
    · rfl
    · next hlo => exact h i (not_lt.1 hlo) hhi

/-- Settles O40: the second text is the first exactly where their bitstreams are equal, the second's ending in zeros. -/
theorem encodeOfDecodeNeedsZeroDiscardedBits : Obligations.EncodeOfDecodeNeedsZeroDiscardedBits := by
  intro s len hrest hlen hvalid hroom
  obtain ⟨-, -, -, hdecode⟩ := decodeMeetsTheClosedForm s len hrest
  obtain ⟨t, ht, -, hstatus, -, -, -, -, hbytes, -⟩ := hdecode hlen hvalid hroom
  refine ⟨t, ht, hstatus, fun e herest hsame heroom => ?_⟩
  have hread : ∀ k, k < lenDec len → Memory.read e.inE k = some (decVal s.inD k) := fun k hk =>
    (hsame k hk).symm.trans (hbytes k hk).1
  obtain ⟨u, hu, -, hustatus, holen, hchars, -⟩ :=
    encodeMeetsTheClosedForm e (lenDec len) herest (fun k hk => ⟨_, hread k hk⟩) (by rwa [lenEnc_lenDec hlen])
  rw [lenEnc_lenDec hlen] at holen hchars
  refine ⟨u, hu, hustatus, holen, ?_⟩
  calc
    SameBelow s.inD u.outE len ↔ HoldsText e.inE (lenDec len) s.inD len :=
      forall₂_congr fun k hk => by rw [charValue_eq_some_iff, (hchars k hk).1]
    _ ↔ ∀ i, i < 5 * len → outBit s.inD i = inBit e.inE (lenDec len) i := holdsText_iff hvalid
    _ ↔ ∀ i, 8 * lenDec len ≤ i → i < 5 * len → outBit s.inD i = false := outBit_eq_inBit_iff hread

end Sys2Proof.Machine
end

section
/-! PROOFS. The two units side by side (R20, R216, R235): a micro-step or a START moves its own unit's part of the block only,
micro-steps of the two commute, and a unit in `DONE` holds its registers; and the statements O43 and O52. -/

namespace Sys2Proof.Machine

/-- The other unit (R20). -/
def otherUnit : UnitId → UnitId
  | .enc => .dec
  | .dec => .enc

@[simp] theorem otherUnit_otherUnit (u : UnitId) : otherUnit (otherUnit u) = u := by cases u <;> rfl

theorem eq_or_eq_otherUnit (u w : UnitId) : w = u ∨ w = otherUnit u := by cases u <;> cases w <;> decide

/-- Only unit `u`'s part of the block has moved. -/
def OnlyUnitMoved : UnitId → State → State → Prop
  | .enc => OnlyEncoderMoved
  | .dec => OnlyDecoderMoved

theorem OnlyUnitMoved.pending_eq {u : UnitId} {s t : State} (h : OnlyUnitMoved u s t) : t.pending = s.pending := by
  cases u with
  | enc => obtain ⟨-, -, -, -, -, -, -, -, hpending, -⟩ := h; exact hpending
  | dec => obtain ⟨-, -, -, -, -, -, -, -, hpending, -⟩ := h; exact hpending

/-- A selected micro-step moves its own unit only. -/
theorem unitStep_onlyUnitMoved {u : UnitId} {s t : State} (h : unitStep u s = .next t) : OnlyUnitMoved u s t := by
  cases u with
  | enc => rw [unitStep_enc] at h; exact encMicro_onlyEncoderMoved h
  | dec => rw [unitStep_dec] at h; exact decMicro_onlyDecoderMoved h

/-- A unit outside `RUN` holds its state (R141, R171). -/
theorem unitStep_of_not_run {u : UnitId} {s : State} (h : ctl u s ≠ .run) : unitStep u s = .next s := by
  cases u with
  | enc => exact unitStep_enc_of_not_run h
  | dec => exact unitStep_dec_of_not_run h

theorem cmdUnit_of_not_op {cmd : Command} (h : cmdOp cmd = false) : cmdUnit cmd = .enc := by simp [cmdUnit, h]

theorem cmdUnit_of_op {cmd : Command} (h : cmdOp cmd = true) : cmdUnit cmd = .dec := by simp [cmdUnit, h]

/-- A command moves the unit that `OP` selects only (R82). -/
theorem exec_decodePort_onlyUnitMoved {cmd : Command} {len : Nat} {s t : State}
    (h : exec (decodePort cmd len) s = .next t) : OnlyUnitMoved (cmdUnit cmd) s t := by
  rcases exec_decodePort_next h with ⟨hop, h⟩ | ⟨hop, h⟩
  · rw [cmdUnit_of_not_op hop]
    exact encStart_onlyEncoderMoved h
  · rw [cmdUnit_of_op hop]
    exact decStart_onlyDecoderMoved h

/-! The units commute. -/

/-- The state with ENC's part taken from `x`. -/
def State.withEncPart (s x : State) : State := { s with enc := x.enc, outE := x.outE, eOpen := x.eOpen }

/-- The state with DEC's part taken from `x`. -/
def State.withDecPart (s x : State) : State := { s with dec := x.dec, outD := x.outD, dOpen := x.dOpen }

/-- A move of ENC puts a new part of ENC in place. -/
theorem OnlyEncoderMoved.eq_withEncPart {s t : State} (h : OnlyEncoderMoved s t) : t = s.withEncPart t := by
  obtain ⟨hdec, hinE, hinD, houtD, heCap, hdCap, hdOpen, hresp, hpending, hdraw⟩ := h
  rw [State.withEncPart, ← hdec, ← hinE, ← hinD, ← houtD, ← heCap, ← hdCap, ← hdOpen, ← hresp, ← hpending, ← hdraw]

/-- A move of DEC puts a new part of DEC in place. -/
theorem OnlyDecoderMoved.eq_withDecPart {s t : State} (h : OnlyDecoderMoved s t) : t = s.withDecPart t := by
  obtain ⟨henc, hinE, houtE, hinD, heCap, hdCap, heOpen, hresp, hpending, hdraw⟩ := h
  rw [State.withDecPart, ← henc, ← hinE, ← houtE, ← hinD, ← heCap, ← hdCap, ← heOpen, ← hresp, ← hpending, ← hdraw]

/-- ENC's micro-step takes no notice of DEC's part (R216). -/
theorem encMicro_withDecPart {s t : State} (x : State) (h : encMicro s = .next t) :
    encMicro (s.withDecPart x) = .next (t.withDecPart x) := by
  have henc : (s.withDecPart x).enc = s.enc := rfl
  rw [encMicro] at h ⊢
  rw [henc]
  split_ifs at h ⊢
  · obtain ⟨b, he, hb, hroom, rfl⟩ := encPhaseStep_next h
    exact encPhaseStep_eq (s := s.withDecPart x) he hb hroom
  · obtain ⟨he, rfl⟩ := encFinish_next h
    exact encFinish_eq (s := s.withDecPart x) he
  · obtain ⟨he, hroom, rfl⟩ := encFlush_next h
    exact encFlush_eq (s := s.withDecPart x) he hroom
  · cases h; rfl
  · cases h; rfl

/-- DEC's micro-step takes no notice of ENC's part (R216). -/
theorem decMicro_withEncPart {s t : State} (x : State) (h : decMicro s = .next t) :
    decMicro (s.withEncPart x) = .next (t.withEncPart x) := by
  have hdec : (s.withEncPart x).dec = s.dec := rfl
  rw [decMicro] at h ⊢
  rw [hdec]
  split_ifs at h ⊢
  · obtain ⟨he, ⟨v, w, hvw, hroom, rfl⟩ | ⟨c, i, hlo, hhi, hi, hc, hbad, hvalid, rfl⟩⟩ := decPhaseStep_next h
    · have hread := decSymbols_ok.1 hvw
      exact decPhaseStep_eq (s := s.withEncPart x) he (decSymbols_ok.2 hread) hroom
    · exact decPhaseStep_bad (s := s.withEncPart x) he ⟨hlo, hhi, hi, hc, hbad, hvalid⟩
  · obtain ⟨he, rfl⟩ := decFinish_next h
    exact decFinish_eq (s := s.withEncPart x) he
  · cases h; rfl
  · cases h; rfl

/-- Settles O43: each micro-step puts its unit's part in place, and takes no notice of the other's. -/
theorem unitsCommute : Obligations.UnitsCommute := by
  intro s a b ha hb
  rw [unitStep_enc] at ha
  rw [unitStep_dec] at hb
  have haPart := (encMicro_onlyEncoderMoved ha).eq_withEncPart
  have hbPart := (decMicro_onlyDecoderMoved hb).eq_withDecPart
  have hswap : a.withDecPart b = b.withEncPart a := by
    generalize hx : a.withDecPart b = x
    rw [hbPart, haPart] at hx ⊢
    exact hx.symm
  have hdec := decMicro_withEncPart a hb
  have henc := encMicro_withDecPart b ha
  rw [← haPart] at hdec
  rw [← hbPart, hswap] at henc
  exact ⟨b.withEncPart a, (unitStep_dec a).trans hdec, (unitStep_enc b).trans henc⟩

/-! A unit in `DONE` holds its registers. -/

/-- Unit `u`'s registers in `t` are those in `s`. -/
def SameRegs : UnitId → State → State → Prop
  | .enc, s, t => t.enc = s.enc
  | .dec, s, t => t.dec = s.dec

theorem SameRegs.of_eq {u : UnitId} {s t : State} (henc : t.enc = s.enc) (hdec : t.dec = s.dec) : SameRegs u s t := by
  cases u with
  | enc => exact henc
  | dec => exact hdec

theorem SameRegs.trans {u : UnitId} {s t v : State} (h : SameRegs u s t) (h' : SameRegs u t v) : SameRegs u s v := by
  cases u with
  | enc => exact Eq.trans h' h
  | dec => exact Eq.trans h' h

theorem SameRegs.ctl_eq {u : UnitId} {s t : State} (h : SameRegs u s t) : ctl u t = ctl u s := by
  cases u with
  | enc => exact congrArg EncRegs.st h
  | dec => exact congrArg DecRegs.st h

/-- A move of one unit leaves the other's registers. -/
theorem OnlyUnitMoved.sameRegs {u : UnitId} {s t : State} (h : OnlyUnitMoved (otherUnit u) s t) : SameRegs u s t := by
  cases u with
  | enc => exact h.1
  | dec => exact h.1

theorem keepWaiting_sameRegs (u w : UnitId) (s : State) : SameRegs u s (keepWaiting w s) := by
  rcases keepWaiting_eq w s with h | h <;> rw [h] <;> exact .of_eq rfl rfl

section
variable {u : UnitId} {s t : State} (hdone : ctl u s = .done)
include hdone

theorem unitStep_sameRegs {w : UnitId} (h : unitStep w s = .next t) : SameRegs u s t := by
  rcases eq_or_eq_otherUnit u w with rfl | rfl
  · rw [unitStep_of_not_run (by rw [hdone]; decide)] at h
    cases h
    exact .of_eq rfl rfl
  · exact (unitStep_onlyUnitMoved h).sameRegs

theorem tick_sameRegs {p : Pick} (h : tick p s = .next t) : SameRegs u s t := by
  cases p with
  | enc => exact unitStep_sameRegs hdone (w := .enc) h
  | dec => exact unitStep_sameRegs hdone (w := .dec) h
  | both =>
    obtain ⟨v, hv, h⟩ := andThen_eq_next.1 h
    have hfirst := unitStep_sameRegs hdone (w := .enc) hv
    exact hfirst.trans (unitStep_sameRegs (hfirst.ctl_eq.trans hdone) (w := .dec) h)

/-- A presented code does not reach a unit in `DONE`: it is consumed by a running DEC only (R84). -/
theorem code_sameRegs {c : Byte} (h : exec (decodeCode c) s = .next t) : SameRegs u s t := by
  obtain ⟨v, rfl | ⟨-, hrun, -, -, -, rfl⟩⟩ := exec_decodeCode_next h
  · exact .of_eq rfl rfl
  · cases u with
    | enc => rfl
    | dec => exact absurd (hdone.symm.trans hrun) (by decide)

end

/-- A command that leaves unit `u` alone selects the other one (R30). -/
theorem cmdUnit_of_spares {u : UnitId} {cmd : Command} (h : decide (cmdOp cmd = true ↔ u = .enc) = true) :
    cmdUnit cmd = otherUnit u := by
  rw [decide_eq_true_eq] at h
  cases u <;> simpa [cmdUnit, otherUnit] using h

theorem command_sameRegs {u : UnitId} {cmd : Command} {len : Nat} {s t : State}
    (hspares : decide (cmdOp cmd = true ↔ u = .enc) = true) (h : exec (decodePort cmd len) s = .next t) :
    SameRegs u s t := by
  have hmoved := exec_decodePort_onlyUnitMoved h
  rw [cmdUnit_of_spares hspares] at hmoved
  exact hmoved.sameRegs

/-- No request that leaves a unit's operation alone moves the registers of a unit in `DONE` (R235). -/
theorem hostEvent_sameRegs {u : UnitId} {e : HostEvent} {s t : State} (hdone : ctl u s = .done)
    (hspares : sparesUnit u e = true) (h : hostEvent e s = .next t) : SameRegs u s t := by
  cases e with
  | rst => cases hspares
  | word w =>
    cases w with
    | call cmd len =>
      obtain ⟨v, hv, rfl⟩ := hostWord_call_next h
      exact (command_sameRegs hspares hv).trans (keepWaiting_sameRegs u _ v)
    | port cmd len => exact command_sameRegs hspares h
    | func f => obtain ⟨r, rfl⟩ := exec_decodeFunc_next h; exact .of_eq rfl rfl
    | code c => exact code_sameRegs hdone h
  | tick p => exact tick_sameRegs hdone h
  | await w =>
    rcases hostAwait_next h with rfl | ⟨p, v, hv, rfl⟩
    · exact .of_eq rfl rfl
    · exact (tick_sameRegs hdone hv).trans (keepWaiting_sameRegs u w v)
  | provide w n => obtain rfl := eq_provided_of_provideBuffer h; cases w <;> exact .of_eq rfl rfl
  | write sp i b =>
    obtain ⟨-, rfl⟩ := hostWrite_next h
    exact .of_eq (storeElement_enc sp i b s) (storeElement_dec sp i b s)
  | read sp i => obtain ⟨r, rfl⟩ := hostRead_next h; exact .of_eq rfl rfl
  | port p => obtain ⟨r, rfl⟩ := hostPort_next h; exact .of_eq rfl rfl

/-- What a step does to a unit in `DONE`, by the request it takes. -/
theorem step_sameRegs {u : UnitId} {s t : State} (h : step s = .next t) (hdone : ctl u s = .done)
    (hspares : ∀ e rest, s.pending = e :: rest → sparesUnit u e = true) : SameRegs u s t := by
  have hdraw : ∀ es, SameRegs u s ((nextDraw s).withPending es) := fun es => .of_eq rfl rfl
  rcases step_next h with ⟨e, rest, hpending, h⟩ | ⟨-, h⟩
  · exact (hdraw rest).trans (hostEvent_sameRegs ((hdraw rest).ctl_eq.trans hdone) (hspares e rest hpending) h)
  · exact SameRegs.trans (t := nextDraw s) (.of_eq rfl rfl) (tick_sameRegs (by cases u <;> exact hdone) h)

/-- Settles O52: a request that spares the unit, or none, leaves its registers. -/
theorem doneHoldsUntilTheNextStart : Obligations.DoneHoldsUntilTheNextStart := by
  intro s t h
  have hrequest : ∀ {u e rest}, s.pending = e :: rest → ctl u s = .done → sparesUnit u e = true → SameRegs u s t := by
    intro u e rest hpending hdone hspares
    refine step_sameRegs h hdone fun e' rest' hpending' => ?_
    rw [hpending] at hpending'
    cases hpending'
    exact hspares
  have hnone : ∀ {u}, s.pending = [] → ctl u s = .done → SameRegs u s t := by
    intro u hpending hdone
    refine step_sameRegs h hdone fun e rest hpending' => ?_
    rw [hpending] at hpending'
    cases hpending'
  exact ⟨fun e rest hpending => ⟨hrequest (u := .enc) hpending, hrequest (u := .dec) hpending⟩,
    fun hpending => ⟨hnone (u := .enc) hpending, hnone (u := .dec) hpending⟩⟩

end Sys2Proof.Machine
end

section
/-! PROOFS. Progress (R216, R232): every scheduled step brings a running unit a micro-step nearer to its end, whatever the
schedule; and the statement O44. -/

namespace Sys2Proof.Machine

/-- Unit `u`'s part of the block in `t` is as in `s`: its registers, its buffers, and which output elements are unspecified,
whatever the draw they are so since. -/
def SamePart : UnitId → State → State → Prop
  | .enc, s, t => t.enc = s.enc ∧ t.inE = s.inE ∧ t.outE = s.outE ∧ t.eCap = s.eCap ∧
      ∀ k, openAt t.eOpen k = none ↔ openAt s.eOpen k = none
  | .dec, s, t => t.dec = s.dec ∧ t.inD = s.inD ∧ t.outD = s.outD ∧ t.dCap = s.dCap ∧
      ∀ k, openAt t.dOpen k = none ↔ openAt s.dOpen k = none

theorem SamePart.refl (u : UnitId) (s : State) : SamePart u s s := by
  cases u <;> exact ⟨rfl, rfl, rfl, rfl, fun _ => Iff.rfl⟩

theorem SamePart.trans {u : UnitId} {s t v : State} (h : SamePart u s t) (h' : SamePart u t v) : SamePart u s v := by
  cases u <;> obtain ⟨hregs, hin, hout, hcap, hopen⟩ := h <;> obtain ⟨hregs', hin', hout', hcap', hopen'⟩ := h' <;>
    exact ⟨hregs'.trans hregs, hin'.trans hin, hout'.trans hout, hcap'.trans hcap, fun k => (hopen' k).trans (hopen k)⟩

theorem SamePart.ctl_eq {u : UnitId} {s t : State} (h : SamePart u s t) : ctl u t = ctl u s := by
  cases u with
  | enc => exact congrArg EncRegs.st h.1
  | dec => exact congrArg DecRegs.st h.1

/-- The requests and the draw are no unit's part. -/
theorem samePart_withPending (u : UnitId) (s : State) (es : List HostEvent) : SamePart u s (s.withPending es) := by
  cases u <;> exact ⟨rfl, rfl, rfl, rfl, fun _ => Iff.rfl⟩

theorem samePart_nextDraw (u : UnitId) (s : State) : SamePart u s (nextDraw s) := by
  cases u <;> exact ⟨rfl, rfl, rfl, rfl, fun _ => Iff.rfl⟩

/-- A move of one unit leaves the other's part. -/
theorem OnlyUnitMoved.samePart {u : UnitId} {s t : State} (h : OnlyUnitMoved (otherUnit u) s t) : SamePart u s t := by
  cases u with
  | enc =>
    obtain ⟨henc, hinE, houtE, -, heCap, -, heOpen, -⟩ := h
    exact ⟨henc, hinE, houtE, heCap, fun _ => by rw [heOpen]⟩
  | dec =>
    obtain ⟨hdec, -, hinD, houtD, -, hdCap, hdOpen, -⟩ := h
    exact ⟨hdec, hinD, houtD, hdCap, fun _ => by rw [hdOpen]⟩

/-- A micro-step of one unit leaves the other's part (R216). -/
theorem unitStep_samePart_other {u : UnitId} {s t : State} (h : unitStep u s = .next t) : SamePart (otherUnit u) s t :=
  OnlyUnitMoved.samePart (by rw [otherUnit_otherUnit]; exact unitStep_onlyUnitMoved h)

/-- The unit's invariant holds and, while it runs, the host's part is done (R234). -/
def UnitReady : UnitId → State → Prop
  | .enc, s => EncInv s ∧ (s.enc.st = .run → Written s.inE s.enc.len ∧ HasRoom s.eCap s.enc.olen)
  | .dec, s => DecInv s ∧ (s.dec.st = .run → Written s.inD s.dec.len ∧ HasRoom s.dCap s.dec.tgt)

/-- How many micro-steps a unit's operation takes at most from here on (R150, R181). -/
def unitLeft : UnitId → State → Nat
  | .enc, s => if s.enc.st = .run then s.enc.len - s.enc.idx + 1 else 0
  | .dec, s => if s.dec.st = .run then s.dec.tgt - s.dec.oidx + 1 else 0

theorem stepsLeft_eq (u : UnitId) (s : State) : stepsLeft s = unitLeft u s + unitLeft (otherUnit u) s := by
  cases u with
  | enc => rfl
  | dec => exact Nat.add_comm _ _

theorem SamePart.unitReady {u : UnitId} {s t : State} (h : SamePart u s t) (hready : UnitReady u s) : UnitReady u t := by
  cases u with
  | enc =>
    obtain ⟨henc, hinE, -, heCap, -⟩ := h
    obtain ⟨hinv, hhost⟩ := hready
    exact ⟨hinv.congr henc hinE, by rwa [henc, hinE, heCap]⟩
  | dec =>
    obtain ⟨hdec, hinD, -, hdCap, -⟩ := h
    obtain ⟨hinv, hhost⟩ := hready
    exact ⟨hinv.congr hdec hinD, by rwa [hdec, hinD, hdCap]⟩

theorem SamePart.unitLeft_eq {u : UnitId} {s t : State} (h : SamePart u s t) : unitLeft u t = unitLeft u s := by
  cases u with
  | enc => rw [unitLeft, h.1, unitLeft]
  | dec => rw [unitLeft, h.1, unitLeft]

theorem unitLeft_of_run_enc {s : State} (h : s.enc.st = .run) : unitLeft .enc s = s.enc.len - s.enc.idx + 1 := if_pos h

theorem unitLeft_of_run_dec {s : State} (h : s.dec.st = .run) : unitLeft .dec s = s.dec.tgt - s.dec.oidx + 1 := if_pos h

theorem unitLeft_of_not_run {u : UnitId} {s : State} (h : ctl u s ≠ .run) : unitLeft u s = 0 := by
  cases u <;> exact if_neg h

/-- An operation that has ended leaves the host nothing to do for its unit. -/
theorem unitReady_enc_of_done {s : State} (hinv : EncInv s) (h : s.enc.st = .done) : UnitReady .enc s :=
  ⟨hinv, fun hrun => absurd (h.symm.trans hrun) (by decide)⟩

theorem encMicro_progress {s : State} (hready : UnitReady .enc s) (hrun : s.enc.st = .run) :
    ∃ t, encMicro s = .next t ∧ UnitReady .enc t ∧ unitLeft .enc t < unitLeft .enc s := by
  obtain ⟨hinv, hhost⟩ := hready
  obtain ⟨hwritten, hroom⟩ := hhost hrun
  obtain ⟨-, -, hle, -⟩ := hinv.1 hrun
  rw [unitLeft_of_run_enc hrun]
  rcases hle.lt_or_eq with hmore | hend
  · obtain ⟨t, ht, hrun', hidx, hlen, holen, hinE, hcap⟩ := encMicro_reads_byte hinv hrun hmore hwritten hroom
    refine ⟨t, ht, ⟨encMicro_keeps_encInv hinv ht, fun _ => ?_⟩, ?_⟩
    · rw [hlen, holen, hinE, hcap]
      exact ⟨hwritten, hroom⟩
    · rw [unitLeft_of_run_enc hrun', hlen, hidx]
      omega
  · obtain ⟨t, ht, hdone⟩ := encMicro_ends hinv hrun hend hroom
    refine ⟨t, ht, unitReady_enc_of_done (encMicro_keeps_encInv hinv ht) hdone, ?_⟩
    rw [unitLeft_of_not_run (u := .enc) (fun hrun' => absurd (hdone.symm.trans hrun') (by decide))]
    exact Nat.succ_pos _

theorem decMicro_progress {s : State} (hready : UnitReady .dec s) (hrun : s.dec.st = .run) :
    ∃ t, decMicro s = .next t ∧ UnitReady .dec t ∧ unitLeft .dec t < unitLeft .dec s := by
  obtain ⟨hinv, hhost⟩ := hready
  obtain ⟨hwritten, hroom⟩ := hhost hrun
  obtain ⟨-, -, hle, -⟩ := hinv hrun
  have hends : ∀ {t : State}, t.dec.st = .done → UnitReady .dec t ∧ unitLeft .dec t < s.dec.tgt - s.dec.oidx + 1 := by
    intro t hdone
    have hrest : ctl .dec t ≠ .run := fun hrun' => absurd (hdone.symm.trans hrun') (by decide)
    exact ⟨⟨decInv_of_done hdone, fun hrun' => absurd hrun' hrest⟩, by rw [unitLeft_of_not_run hrest]; exact Nat.succ_pos _⟩
  rw [unitLeft_of_run_dec hrun]
  rcases hle.lt_or_eq with hmore | hend
  · obtain ⟨t, ht, hdone | ⟨hrun', hoidx, hlen, htgt, hinD, hcap⟩⟩ :=
      decMicro_writes_byte_or_ends hinv hrun hmore hwritten hroom
    · exact ⟨t, ht, hends hdone⟩
    · refine ⟨t, ht, ⟨decMicro_keeps_decInv hinv ht, fun _ => ?_⟩, ?_⟩
      · rw [hlen, htgt, hinD, hcap]
        exact ⟨hwritten, hroom⟩
      · rw [unitLeft_of_run_dec hrun', htgt, hoidx]
        omega
  · exact ⟨_, (decMicro_of_all_written hrun hend).trans (decFinish_eq ⟨hrun, hend⟩), hends rfl⟩

/-- A unit for which the host's part is done takes its micro-step, and has fewer left if it runs (R150, R181). -/
theorem unitStep_progress {u : UnitId} {s : State} (hready : UnitReady u s) :
    ∃ t, unitStep u s = .next t ∧ UnitReady u t ∧ unitLeft u t ≤ unitLeft u s ∧
      (ctl u s = .run → unitLeft u t < unitLeft u s) := by
  by_cases hrun : ctl u s = .run
  · have hprogress : ∃ t, unitStep u s = .next t ∧ UnitReady u t ∧ unitLeft u t < unitLeft u s := by
      cases u with
      | enc => rw [unitStep_enc]; exact encMicro_progress hready hrun
      | dec => rw [unitStep_dec]; exact decMicro_progress hready hrun
    obtain ⟨t, ht, hready', hlt⟩ := hprogress
    exact ⟨t, ht, hready', hlt.le, fun _ => hlt⟩
  · exact ⟨s, unitStep_of_not_run hrun, hready, le_rfl, fun hrun' => absurd hrun' hrun⟩

/-- A bound on the micro-steps left that the micro-steps of both units respect: each answers, and one of a running unit takes
the bound down. -/
def Progresses (Q : Nat → State → Prop) : Prop :=
  ∀ {u m s}, Q m s → ∃ m' t, unitStep u s = .next t ∧ Q m' t ∧ m' ≤ m ∧ (ctl u s = .run → m' < m)

/-- The fair pick falls on a unit that runs, or on both, where one runs (R216). -/
theorem tick_fairPick_cases (p : Pick) {s : State} {u : UnitId} (hrun : ctl u s = .run) :
    (∃ w, ctl w s = .run ∧ tick (fairPick p s) s = unitStep w s) ∨
      tick (fairPick p s) s = andThen (unitStep .enc s) (unitStep .dec) := by
  have hsome : s.enc.st = .run ∨ s.dec.st = .run := by
    cases u with
    | enc => exact .inl hrun
    | dec => exact .inr hrun
  cases p with
  | enc =>
    by_cases henc : s.enc.st = .run
    · exact .inl ⟨.enc, henc, by simp [fairPick, eBusy, henc, tick]⟩
    · exact .inl ⟨.dec, hsome.resolve_left henc, by simp [fairPick, eBusy, henc, tick]⟩
  | dec =>
    by_cases hdec : s.dec.st = .run
    · exact .inl ⟨.dec, hdec, by simp [fairPick, dBusy, hdec, tick]⟩
    · exact .inl ⟨.enc, hsome.resolve_right hdec, by simp [fairPick, dBusy, hdec, tick]⟩
  | both => exact .inr rfl

/-- A scheduled step, whatever the schedule, answers and takes the bound down where a unit runs (R216, R232). -/
theorem freeTick_progress {Q : Nat → State → Prop} (hQ : Progresses Q) {m : Nat} {s : State} {u : UnitId} (hs : Q m s)
    (hrun : ctl u s = .run) : ∃ m' t, freeTick s = .next t ∧ Q m' t ∧ m' < m ∧ t.pending = s.pending := by
  rcases tick_fairPick_cases (Config.schedule s.draw) hrun with ⟨w, hw, htick⟩ | htick <;> rw [freeTick, htick]
  · obtain ⟨m', t, ht, hs', -, hlt⟩ := hQ (u := w) hs
    exact ⟨m', t, ht, hs', hlt hw, (unitStep_onlyUnitMoved ht).pending_eq⟩
  · obtain ⟨m₁, t₁, ht₁, hs₁, hle₁, hlt₁⟩ := hQ (u := .enc) hs
    obtain ⟨m₂, t₂, ht₂, hs₂, hle₂, hlt₂⟩ := hQ (u := .dec) hs₁
    have hpending := (unitStep_onlyUnitMoved ht₂).pending_eq.trans (unitStep_onlyUnitMoved ht₁).pending_eq
    refine ⟨m₂, t₂, andThen_eq_next.2 ⟨t₁, ht₁, ht₂⟩, hs₂, ?_, hpending⟩
    cases u with
    | enc => exact hle₂.trans_lt (hlt₁ hrun)
    | dec =>
      have hsame : SamePart .dec s t₁ := unitStep_samePart_other ht₁
      exact (hlt₂ (hsame.ctl_eq.trans hrun)).trans_le hle₁

/-- Both units are ready, with at most `m` micro-steps left. -/
def BothReady (m : Nat) (s : State) : Prop := (∀ u, UnitReady u s) ∧ stepsLeft s ≤ m

theorem BothReady.nextDraw {m : Nat} {s : State} (h : BothReady m s) : BothReady m (nextDraw s) :=
  ⟨fun u => (samePart_nextDraw u s).unitReady (h.1 u), h.2⟩

theorem bothReady_progresses : Progresses BothReady := by
  rintro u m s ⟨hready, hle⟩
  obtain ⟨t, ht, hready', hle', hlt⟩ := unitStep_progress (hready u)
  have hother := unitStep_samePart_other ht
  rw [stepsLeft_eq u] at hle
  refine ⟨stepsLeft t, t, ht, ⟨fun w => ?_, le_rfl⟩, ?_, fun hrun => ?_⟩
  · rcases eq_or_eq_otherUnit u w with rfl | rfl
    · exact hready'
    · exact hother.unitReady (hready _)
  · rw [stepsLeft_eq u, hother.unitLeft_eq]
    omega
  · have hlt := hlt hrun
    rw [stepsLeft_eq u, hother.unitLeft_eq]
    omega

/-- A step takes the next request, if there is one. -/
theorem step_of_request {s : State} {e : HostEvent} {rest : List HostEvent} (h : s.pending = e :: rest) :
    step s = hostEvent e ((nextDraw s).withPending rest) := by
  rw [step, nextMove, h]

/-- With no request pending a step is a scheduled one. -/
theorem step_of_no_request {s : State} (h : s.pending = []) : step s = freeTick (nextDraw s) := by
  rw [step, nextMove, h]

/-- One step and then `n` more. -/
theorem stepRun_succ_of_next {n : Nat} {s t v : State} (h : step s = .next t) (ht : stepRun n t = .next v) :
    stepRun (n + 1) s = .next v :=
  andThen_eq_next.2 ⟨t, h, ht⟩

/-- With no request pending, at most `m` steps take both units out of `RUN`. -/
theorem stepRun_comes_to_rest {m : Nat} {s : State} (hready : BothReady m s) (hpending : s.pending = []) :
    ∃ n t, n ≤ m ∧ stepRun n s = .next t ∧ ∀ u, ctl u t ≠ .run := by
  induction m using Nat.strong_induction_on generalizing s with
  | _ m ih =>
    by_cases hrun : ∃ u, ctl u s = .run
    · obtain ⟨u, hrun⟩ := hrun
      obtain ⟨m', t, ht, hready', hlt, hpending'⟩ :=
        freeTick_progress bothReady_progresses hready.nextDraw ((samePart_nextDraw u s).ctl_eq.trans hrun)
      obtain ⟨n, v, hn, hv, hrest⟩ := ih m' hlt hready' (hpending'.trans hpending)
      exact ⟨n + 1, v, by omega, stepRun_succ_of_next ((step_of_no_request hpending).trans ht) hv, hrest⟩
    · exact ⟨0, s, m.zero_le, rfl, fun u hu => hrun ⟨u, hu⟩⟩

/-- Settles O44: each scheduled step takes the micro-steps left down by one or two. -/
theorem quietBlockComesToRest : Obligations.QuietBlockComesToRest := by
  intro s hpending henc hdec hhost
  have hready : BothReady (stepsLeft s) s := by
    refine ⟨fun u => ?_, le_rfl⟩
    cases u with
    | enc => exact ⟨henc, hhost.1⟩
    | dec => exact ⟨hdec, hhost.2⟩
  obtain ⟨n, t, hn, ht, hrest⟩ := stepRun_comes_to_rest hready hpending
  exact ⟨n, t, hn, ht, hrest .enc, hrest .dec⟩

end Sys2Proof.Machine
end

section
/-! PROOFS. A whole operation run one micro-step a step (R90, R151, R182, R232): beside the run of the operation as a whole the
steps of the host's wait take the same micro-steps, between those of the other unit; and the statement O60. -/

namespace Sys2Proof.Machine

/-! A micro-step depends on its unit's part. -/

/-- Which elements are unspecified after a store depends on which were before. -/
theorem openAt_settleAll_congr {o o' : Option Unspecified} (h : ∀ k, openAt o' k = none ↔ openAt o k = none) (lo n k : Nat) :
    openAt (settleAll o' lo n) k = none ↔ openAt (settleAll o lo n) k = none := by
  rw [openAt_settleAll, openAt_settleAll]
  split
  · exact Iff.rfl
  · exact h k

theorem encMicro_samePart {s s' t : State} (hsame : SamePart .enc s s') (h : encMicro s = .next t) :
    ∃ t', encMicro s' = .next t' ∧ SamePart .enc t t' := by
  obtain ⟨henc, hinE, houtE, hcap, hopen⟩ := id hsame
  have hroomE : ∀ {n}, OutRoomE s n → OutRoomE s' n := fun h => by rwa [OutRoomE, henc, hcap]
  rw [encMicro] at h ⊢
  rw [henc]
  split_ifs at h ⊢
  · obtain ⟨b, he, hb, hroom, rfl⟩ := encPhaseStep_next h
    have he' : encEnabledAt s.enc.ph s' := by rwa [encEnabledAt, henc]
    have hb' : Memory.read s'.inE s'.enc.idx = some b := by rwa [hinE, henc]
    refine ⟨_, encPhaseStep_eq he' hb' (by rw [henc]; exact hroomE hroom), ?_⟩
    rw [henc]
    refine ⟨rfl, hinE, ?_, hcap, openAt_settleAll_congr hopen _ _⟩
    simp only [State.withEnc_outE, State.storeAllE_outE, houtE]
  · obtain ⟨he, rfl⟩ := encFinish_next h
    rw [← henc] at he ⊢
    exact ⟨_, encFinish_eq he, rfl, hinE, houtE, hcap, hopen⟩
  · obtain ⟨he, hroom, rfl⟩ := encFlush_next h
    rw [← henc] at he ⊢
    refine ⟨_, encFlush_eq he (hroomE hroom), rfl, hinE, ?_, hcap, openAt_settleAll_congr hopen _ 1⟩
    simp only [State.withEnc_outE, State.storeOutE_outE, houtE]
  · cases h
    exact ⟨s', rfl, hsame⟩
  · cases h
    exact ⟨s', rfl, hsame⟩

theorem decMicro_samePart {s s' t : State} (hsame : SamePart .dec s s') (h : decMicro s = .next t) :
    ∃ t', decMicro s' = .next t' ∧ SamePart .dec t t' := by
  obtain ⟨hdec, hinD, houtD, hcap, hopen⟩ := id hsame
  rw [decMicro] at h ⊢
  rw [hdec]
  split_ifs at h ⊢
  · obtain ⟨he, hcase⟩ := decPhaseStep_next h
    have he' : decEnabledAt s.dec.ph s' := by rwa [decEnabledAt, hdec]
    obtain ⟨v, w, hvw, hroom, rfl⟩ | ⟨c, i, hlo, hhi, hi, hc, hinvalid, hvalid, rfl⟩ := hcase
    · have hvw' : decSymbols s.dec.ph s' = .ok (v, w) := by
        rw [decSymbols_ok, hdec, hinD]
        exact decSymbols_ok.1 hvw
      refine ⟨_, decPhaseStep_eq he' hvw' (by rwa [hcap, hdec]), ?_⟩
      rw [hdec]
      refine ⟨rfl, hinD, ?_, hcap, openAt_settleAll_congr hopen _ 1⟩
      simp only [State.withDec_outD, State.storeOutD_outD, houtD]
    · have hmeets : MeetsBad s.dec.ph s' c i := by
        rw [MeetsBad, hdec, hinD]
        exact ⟨hlo, hhi, hi, hc, hinvalid, hvalid⟩
      refine ⟨_, decPhaseStep_bad he' hmeets, ?_⟩
      rw [raise_dec_char, raise_dec_char, hdec]
      exact ⟨rfl, hinD, houtD, hcap, fun k => by simp⟩
  · obtain ⟨he, rfl⟩ := decFinish_next h
    rw [← hdec] at he ⊢
    exact ⟨_, decFinish_eq he, rfl, hinD, houtD, hcap, hopen⟩
  · cases h
    exact ⟨s', rfl, hsame⟩
  · cases h
    exact ⟨s', rfl, hsame⟩

theorem unitStep_samePart {u : UnitId} {s s' t : State} (hsame : SamePart u s s') (h : unitStep u s = .next t) :
    ∃ t', unitStep u s' = .next t' ∧ SamePart u t t' := by
  cases u with
  | enc => rw [unitStep_enc] at h ⊢; exact encMicro_samePart hsame h
  | dec => rw [unitStep_dec] at h ⊢; exact decMicro_samePart hsame h

/-! A whole operation as START and its run. -/

theorem unitRun_of_not_run {u : UnitId} {s : State} (n : Nat) (h : ctl u s ≠ .run) : unitRun u n s = .next s := by
  induction n with
  | zero => rfl
  | succ n ih => rw [unitRun, unitStep_of_not_run h, andThen_next, ih]

/-- Where it answers at all, DEC's run is out of `RUN` after one micro-step per byte left and one more (R181). -/
theorem decRun_next_done {s t : State} (hinv : DecInv s) (hrun : s.dec.st = .run)
    (h : decRun (s.dec.tgt - s.dec.oidx + 1) s = .next t) : t.dec.st ≠ .run := by
  obtain ⟨-, -, hle, -⟩ := hinv hrun
  induction hleft : s.dec.tgt - s.dec.oidx generalizing s with
  | zero =>
    rw [hleft] at h
    obtain ⟨u, hu, hut⟩ := andThen_eq_next.1 h
    cases hut
    rw [decMicro_of_all_written hrun (by omega)] at hu
    obtain ⟨-, rfl⟩ := decFinish_next hu
    exact fun hrun' => nomatch hrun'
  | succ n ih =>
    rw [hleft] at h
    obtain ⟨u, hu, hut⟩ := andThen_eq_next.1 h
    have hinv' := decMicro_keeps_decInv hinv hu
    rw [decMicro_of_more hrun (by omega)] at hu
    obtain ⟨⟨-, hmore, -⟩, ⟨v, w, -, -, rfl⟩ | ⟨c, i, -, -, -, -, -, -, rfl⟩⟩ := decPhaseStep_next hu
    · have hleft' : s.dec.tgt - (s.dec.oidx + 1) = n := by omega
      exact ih hinv' hrun (by rwa [← hleft'] at hut) hmore hleft'
    · rw [decRun_of_not_run _ (by simp [raise_dec_char])] at hut
      cases hut
      exact fun hrun' => nomatch hrun'

/-- `y` is what START leaves, and the rest of the operation a run from it that ends outside `RUN`, at `v`. -/
def StartsAndRuns (u : UnitId) (len : Nat) (y v : State) : Prop :=
  ∃ k, unitRun u k y = .next v ∧ k ≤ len + 1 ∧ ctl u v ≠ .run

/-- An operation that START ends has no run. -/
theorem startsAndRuns_of_done {u : UnitId} {len : Nat} {y : State} (h : ctl u y ≠ .run) : StartsAndRuns u len y y :=
  ⟨0, rfl, Nat.zero_le _, h⟩

theorem exec_encode_startsAndRuns {len : Nat} {s v : State} (h : exec (.encode len) s = .next v) :
    ∃ y, encStart false len s = .next y ∧ StartsAndRuns .enc len y v := by
  obtain ⟨y, hy, hrun⟩ := execEncode_next h
  obtain ⟨-, ⟨hfalse, -⟩ | ⟨-, rfl⟩⟩ := encStart_next hy
  · cases hfalse
  · have hdone := encRun_next_done (encInv_started s len) rfl hrun
    exact ⟨_, hy, len + 1, (unitRun_enc _ _).trans hrun, le_rfl, fun hrun' => absurd (hdone.symm.trans hrun') (by decide)⟩

theorem exec_decode_startsAndRuns {len : Nat} {s v : State} (h : exec (.decode len) s = .next v) :
    ∃ y, decStart false len s = .next y ∧ StartsAndRuns .dec len y v := by
  obtain ⟨y, hy, hrun⟩ := execDecode_next h
  obtain ⟨-, ⟨hfalse, -⟩ | ⟨-, -, rfl⟩ | ⟨-, hlen, rfl⟩⟩ := decStart_next hy
  · cases hfalse
  · rw [decRun_of_not_run _ (by simp [raise_dec_length])] at hrun
    cases hrun
    exact ⟨_, hy, startsAndRuns_of_done fun hrun' => nomatch hrun'⟩
  · exact ⟨_, hy, lenDec len + 1, (unitRun_dec _ _).trans hrun, Nat.succ_le_succ (lenDec_le len),
      decRun_next_done (decInv_started s hlen) rfl hrun⟩

/-- A command as a whole operation is the START it enables on the port, and that unit's run (R81, R82, R90). -/
theorem exec_decodeCall_startsAndRuns {cmd : Command} {len : Nat} {s v : State}
    (h : exec (decodeCall cmd len) s = .next v) :
    ∃ y, exec (decodePort cmd len) s = .next y ∧ StartsAndRuns (cmdUnit cmd) len y v := by
  cases hop : cmdOp cmd <;> cases habsent : cmdAbsent cmd <;> simp only [decodeCall, hop, habsent] at h
  · rw [decodePort_of_not_op len hop, cmdUnit_of_not_op hop, habsent]
    exact exec_encode_startsAndRuns h
  · rw [decodePort_of_not_op len hop, cmdUnit_of_not_op hop, habsent]
    obtain ⟨-, ⟨-, rfl⟩ | ⟨hfalse, -⟩⟩ := encStart_next h
    · exact ⟨_, h, startsAndRuns_of_done fun hrun => nomatch hrun⟩
    · cases hfalse
  · rw [decodePort_of_op len hop, cmdUnit_of_op hop, habsent]
    exact exec_decode_startsAndRuns h
  · rw [decodePort_of_op len hop, cmdUnit_of_op hop, habsent]
    obtain ⟨-, ⟨-, rfl⟩ | ⟨hfalse, -⟩ | ⟨hfalse, -⟩⟩ := decStart_next h
    · exact ⟨_, h, startsAndRuns_of_done fun hrun => nomatch hrun⟩
    · cases hfalse
    · cases hfalse

/-! The host's wait. -/

/-- In `x` the operation of unit `u` stands where the whole operation, which ends at `v`, has `k` micro-steps left; with the
other unit's there are at most `m`, and if that unit was at rest in `s` it is untouched since. -/
def OnTheWay (u : UnitId) (s v : State) (m : Nat) (x : State) : Prop :=
  ∃ k y, unitRun u k y = .next v ∧ SamePart u y x ∧ UnitReady (otherUnit u) x ∧ k + unitLeft (otherUnit u) x ≤ m ∧
    (ctl (otherUnit u) s ≠ .run → SamePart (otherUnit u) s x)

/-- The requests and the draw have no part in the operation. -/
theorem OnTheWay.congr {u : UnitId} {s v x x' : State} {m : Nat} (h : OnTheWay u s v m x)
    (hsame : ∀ w, SamePart w x x') : OnTheWay u s v m x' := by
  obtain ⟨k, y, hrun, hy, hready, hle, hother⟩ := h
  exact ⟨k, y, hrun, hy.trans (hsame u), (hsame _).unitReady hready, by rwa [(hsame _).unitLeft_eq],
    fun hrest => (hother hrest).trans (hsame _)⟩

/-- Outside `RUN` the operation has left in the unit what it leaves as a whole. -/
theorem OnTheWay.samePart_of_not_run {u : UnitId} {s v x : State} {m : Nat} (h : OnTheWay u s v m x)
    (hrest : ctl u x ≠ .run) : SamePart u v x := by
  obtain ⟨k, y, hrun, hy, -⟩ := h
  rw [unitRun_of_not_run k (by rwa [← hy.ctl_eq])] at hrun
  cases hrun
  exact hy

/-- A micro-step of the other unit: the operation stands where it stood. -/
theorem onTheWay_unitStep_other {u : UnitId} {s v : State} {m : Nat} {x : State} (h : OnTheWay u s v m x) :
    ∃ m' t, unitStep (otherUnit u) x = .next t ∧ OnTheWay u s v m' t ∧ m' ≤ m ∧ (ctl (otherUnit u) x = .run → m' < m) := by
  obtain ⟨k, y, hky, hy, hready, hle, hother⟩ := h
  obtain ⟨t, ht, hready', hle', hlt⟩ := unitStep_progress hready
  have hself := unitStep_samePart_other ht
  rw [otherUnit_otherUnit] at hself
  refine ⟨k + unitLeft (otherUnit u) t, t, ht, ⟨k, y, hky, hy.trans hself, hready', le_rfl, fun hrest => ?_⟩, by omega,
    fun hrun => by have := hlt hrun; omega⟩
  have hsame := hother hrest
  rw [unitStep_of_not_run (by rwa [hsame.ctl_eq])] at ht
  cases ht
  exact hsame

/-- A step of the wait for a running unit is a scheduled step, and the wait goes on while the unit runs (R90). -/
theorem step_await {u : UnitId} {x t : State} {rest : List HostEvent} (hpending : x.pending = .await u :: rest)
    (hrun : ctl u x = .run) (h : freeTick ((nextDraw x).withPending rest) = .next t) : step x = .next (keepWaiting u t) := by
  have hbusy : busy u ((nextDraw x).withPending rest) = true := by
    cases u <;> exact decide_eq_true hrun
  rw [step_of_request hpending]
  exact (if_pos hbusy).trans (by rw [h, andThen_next])

/-- While the unit runs, keeping the wait changes the requests only. -/
theorem keepWaiting_of_run {u : UnitId} {s : State} (h : ctl u s = .run) :
    keepWaiting u s = s.withPending (.await u :: s.pending) :=
  if_pos (decide_eq_true h)

/-- The wait is over when the unit does not run. -/
theorem keepWaiting_of_not_run {u : UnitId} {s : State} (h : ctl u s ≠ .run) : keepWaiting u s = s :=
  if_neg (by rwa [busy, decide_eq_true_eq])

section
variable {u : UnitId} {s v : State} (hend : ctl u v ≠ .run)
include hend

/-- A micro-step of the unit itself: the operation has one fewer left. -/
theorem onTheWay_unitStep_self {m : Nat} {x : State} (h : OnTheWay u s v m x) :
    ∃ m' t, unitStep u x = .next t ∧ OnTheWay u s v m' t ∧ m' ≤ m ∧ (ctl u x = .run → m' < m) := by
  by_cases hrun : ctl u x = .run
  · obtain ⟨k, y, hky, hy, hready, hle, hother⟩ := h
    cases k with
    | zero =>
      cases hky
      exact absurd (hy.ctl_eq.symm.trans hrun) hend
    | succ k =>
      obtain ⟨y', hy', hky'⟩ := andThen_eq_next.1 hky
      obtain ⟨t, ht, hsame⟩ := unitStep_samePart hy hy'
      have hleft := unitStep_samePart_other ht
      exact ⟨k + unitLeft (otherUnit u) t, t, ht,
        ⟨k, y', hky', hsame, hleft.unitReady hready, le_rfl, fun hrest => (hother hrest).trans hleft⟩,
        by rw [hleft.unitLeft_eq]; omega, fun _ => by rw [hleft.unitLeft_eq]; omega⟩
  · exact ⟨m, x, unitStep_of_not_run hrun, h, le_rfl, fun hrun' => absurd hrun' hrun⟩

theorem onTheWay_progresses : Progresses (OnTheWay u s v) := by
  intro w m x h
  rcases eq_or_eq_otherUnit u w with rfl | rfl
  · exact onTheWay_unitStep_self hend h
  · exact onTheWay_unitStep_other h

/-- From a step that leaves the operation under way and the host waiting, the wait ends within the micro-steps there are. -/
theorem wait_ends {m : Nat} {x y : State} (hstep : step x = .next (keepWaiting u y)) (hy : OnTheWay u s v m y) :
    ∃ n t, n ≤ m + 1 ∧ stepRun n x = .next t ∧ t.pending = y.pending ∧ ctl u t ≠ .run ∧ ∃ m', OnTheWay u s v m' t := by
  induction m using Nat.strong_induction_on generalizing x y with
  | _ m ih =>
    by_cases hrun : ctl u y = .run
    · rw [keepWaiting_of_run hrun] at hstep
      have hsame : ∀ w,
          SamePart w y ((nextDraw (y.withPending (.await u :: y.pending))).withPending y.pending) := fun w =>
        ((samePart_withPending w y _).trans (samePart_nextDraw w _)).trans (samePart_withPending w _ _)
      obtain ⟨m', t, ht, hway, hlt, hpending⟩ :=
        freeTick_progress (onTheWay_progresses hend) (hy.congr hsame) ((hsame u).ctl_eq.trans hrun)
      have hawait : step (y.withPending (.await u :: y.pending)) = .next (keepWaiting u t) :=
        step_await rfl ((samePart_withPending u y _).ctl_eq.trans hrun) ht
      obtain ⟨n, t', hn, ht', hpending', hend'⟩ := ih m' hlt hawait hway
      exact ⟨n + 1, t', by omega, stepRun_succ_of_next hstep ht', hpending'.trans hpending, hend'⟩
    · rw [keepWaiting_of_not_run hrun] at hstep
      exact ⟨1, y, by omega, stepRun_succ_of_next hstep rfl, rfl, hrun, m, hy⟩

end

/-- The step that takes a whole operation does its START and begins the wait (R90, R232). -/
theorem step_call {s y : State} {cmd : Command} {len : Nat} {rest : List HostEvent}
    (hpending : s.pending = .word (.call cmd len) :: rest)
    (h : exec (decodePort cmd len) ((nextDraw s).withPending rest) = .next y) :
    step s = .next (keepWaiting (cmdUnit cmd) y) := by
  rw [step_of_request hpending]
  exact andThen_eq_next.2 ⟨y, h, rfl⟩

/-- Settles O60: after START the wait takes the operation's micro-steps, between those of the other unit. -/
theorem callRunsTheWholeOperation : Obligations.CallRunsTheWholeOperation := by
  intro s v cmd len rest henc hdec hhost hpending h
  obtain ⟨y, hy, k, hrun, hk, hend⟩ := exec_decodeCall_startsAndRuns h
  have hstep := step_call hpending hy
  have hmoved := exec_decodePort_onlyUnitMoved hy
  generalize cmdUnit cmd = u at *
  have hready : UnitReady (otherUnit u) s := by
    cases u with
    | enc => exact ⟨hdec, hhost.2⟩
    | dec => exact ⟨henc, hhost.1⟩
  have hother : SamePart (otherUnit u) s y :=
    ((samePart_nextDraw _ s).trans (samePart_withPending _ _ rest)).trans
      (OnlyUnitMoved.samePart (by rwa [otherUnit_otherUnit]))
  have hway : OnTheWay u s v (k + unitLeft (otherUnit u) s) y :=
    ⟨k, y, hrun, .refl u y, hother.unitReady hready, by rw [hother.unitLeft_eq], fun _ => hother⟩
  obtain ⟨n, t, hn, ht, hpendingT, hrestT, m', hwayT⟩ := wait_ends hend hstep hway
  have hself := hwayT.samePart_of_not_run hrestT
  obtain ⟨-, -, -, -, -, -, huntouched⟩ := hwayT
  refine ⟨n, t, ?_, ht, hpendingT.trans hmoved.pending_eq, hrestT, ?_, ?_⟩
  · rw [stepsLeft_eq u]
    omega
  · rintro rfl
    obtain ⟨hregs, -, hout, -, hopen⟩ := hself
    refine ⟨hregs, hout, hopen, fun hrest => ?_⟩
    obtain ⟨hregs', -, hout', -⟩ := huntouched hrest
    exact ⟨hregs', hout'⟩
  · rintro rfl
    obtain ⟨hregs, -, hout, -, hopen⟩ := hself
    refine ⟨hregs, hout, hopen, fun hrest => ?_⟩
    obtain ⟨hregs', -, hout', -⟩ := huntouched hrest
    exact ⟨hregs', hout'⟩

end Sys2Proof.Machine
end

section
/-! PROOFS. The alphabet by code range (R105) and the laws of the length functions (R122, R123, R127, R128): the statements O5,
O7 and O9. -/

namespace Sys2Proof.Machine

/-- R105: the inverse map by code range. -/
theorem romInv_eq_byRange (c : Byte) : romInv c =
    if 0x32 ≤ c.toNat ∧ c.toNat ≤ 0x37 then some (BitVec.ofNat 5 (26 + (c.toNat - 0x32)))
    else if 0x41 ≤ c.toNat ∧ c.toNat ≤ 0x5A then some (BitVec.ofNat 5 (c.toNat - 0x41))
    else none := by
  split_ifs with hdigit hletter
  · have hv : (BitVec.ofNat 5 (26 + (c.toNat - 0x32))).toNat = 26 + (c.toNat - 0x32) := Nat.mod_eq_of_lt (by omega)
    rw [romInv_eq_some_iff, romFwd_eq_closedForm, hv, if_neg (by omega),
      show 0x18 + (26 + (c.toNat - 0x32)) = c.toNat by omega, BitVec.ofNat_toNat, BitVec.setWidth_eq]
  · have hv : (BitVec.ofNat 5 (c.toNat - 0x41)).toNat = c.toNat - 0x41 := Nat.mod_eq_of_lt (by omega)
    rw [romInv_eq_some_iff, romFwd_eq_closedForm, hv, if_pos (by omega),
      show 0x41 + (c.toNat - 0x41) = c.toNat by omega, BitVec.ofNat_toNat, BitVec.setWidth_eq]
  · rw [romInv_eq_none_iff]
    rintro v rfl
    have hlt := v.isLt
    rw [romFwd_eq_closedForm] at hdigit hletter
    split_ifs at hdigit hletter <;> rw [BitVec.toNat_ofNat, Nat.mod_eq_of_lt (by omega)] at hdigit hletter <;> omega

/-- Settles O5: the operation answers `romInv c`, given by code range. -/
theorem romInvByCodeRange : Obligations.RomInvByCodeRange := by
  intro c s
  rw [exec_romInv, romInv_eq_byRange]

/-- LEN.DEC as an operation only answers (R123). -/
@[simp] theorem exec_lenDec (l : Nat) (s : State) :
    exec (.lenDec l) s = .next (s.withResp (.length (lenDec l))) := rfl

/-- The tabulated form of LEN.DEC (R123). -/
theorem lenDec_eq_table (l : Nat) : lenDec l = 5 * (l / 8) + [0, 0, 1, 1, 2, 3, 3, 4].getD (l % 8) 0 := by
  have hr : l % 8 < 8 := Nat.mod_lt l (by decide)
  have hl := Nat.div_add_mod l 8
  unfold lenDec
  interval_cases l % 8 <;> simp only [List.getD_cons_zero, List.getD_cons_succ] <;> omega

/-- Settles O7: the answer is `lenDec l`, the greatest byte count whose bits the text holds. -/
theorem lenDecAnswersTheFloor : Obligations.LenDecAnswersTheFloor := by
  intro l s
  refine ⟨lenDec l, exec_lenDec l s, ?_, fun k hk => ?_, lenDec_le l, ?_, lenDec_eq_table l⟩
  · unfold lenDec
    omega
  · unfold lenDec
    omega
  · rw [Nat.shiftRight_eq_div_pow]
    rfl

/-- R127: a length is valid exactly where it is the encoder's for its byte count. -/
theorem lenChk_iff_lenEnc_lenDec {l : Nat} : lenChk l = true ↔ lenEnc (lenDec l) = l :=
  ⟨lenEnc_lenDec, fun h => h ▸ lenChk_lenEnc (lenDec l)⟩

/-- The tabulated form of LEN.ENC and the pad bits (R122). -/
theorem lenEnc_eq_table (n : Nat) : lenEnc n = 8 * (n / 5) + [0, 2, 4, 5, 7].getD (n % 5) 0 ∧
    5 * lenEnc n - 8 * n = [0, 2, 4, 1, 3].getD (n % 5) 0 := by
  have hr : n % 5 < 5 := Nat.mod_lt n (by decide)
  have hn := Nat.div_add_mod n 5
  unfold lenEnc
  interval_cases n % 5 <;> simp only [List.getD_cons_zero, List.getD_cons_succ] <;> omega

/-- The residues LEN.CHK accepts (R128). -/
theorem lenChk_iff_residue (l : Nat) : lenChk l = true ↔ l % 8 ∈ [0, 2, 4, 5, 7] := by
  have hr : l % 8 < 8 := Nat.mod_lt l (by decide)
  have hl := Nat.div_add_mod l 8
  rw [lenChk_iff_lenEnc_lenDec, lenEnc, lenDec]
  interval_cases l % 8 <;> simp <;> omega

/-- Settles O9: LEN.ENC gives the least length for its bytes, and the residues tell which lengths are. -/
theorem lengthLaws : Obligations.LengthLaws := by
  refine ⟨lenDec_lenEnc, lenChk_lenEnc, fun l => lenChk_iff_lenEnc_lenDec, lenEnc_eq_table,
    fun l => ⟨lenChk_iff_residue l, ?_⟩⟩
  have hr : l % 8 < 8 := Nat.mod_lt l (by decide)
  rw [← Bool.not_eq_true, lenChk_iff_residue]
  interval_cases l % 8 <;> decide

end Sys2Proof.Machine
end

section
/-! PROOFS. Decoding and encoding (R80 to R84, R86): the alphabet's rows, the codes outside the alphabet, the command words,
and the statements O33, O34, O57 and O58. -/

namespace Sys2Proof.Machine

/-! The 32 rows of the alphabet, in the order of the symbol values. -/

theorem map_decodeCode_rom : rom.map decodeCode = alphabetRows := by decide

theorem map_encode_alphabetRows : alphabetRows.map encode = rom.map fun c => .host (.code c) := by decide

theorem map_exec_alphabetRows (s : State) : alphabetRows.map (exec · s) =
    (List.range 32).map fun n => .next (s.withResp (.value (some (BitVec.ofNat 5 n)))) := rfl

theorem rom_getElem? (v : Symbol) : rom[v.toNat]? = some (romFwd v) := by
  rw [romFwd_eq_getElem, List.getElem?_eq_getElem]

/-- The row of a symbol value is the one its character decodes to (R80, R100). -/
theorem alphabetRows_getElem? (v : Symbol) : alphabetRows[v.toNat]? = some (decodeCode (romFwd v)) := by
  rw [← map_decodeCode_rom, List.getElem?_map, rom_getElem?, Option.map_some]

/-- The row of a symbol value is presented by its character (R80, R100). -/
theorem encode_decodeCode_romFwd (v : Symbol) : encode (decodeCode (romFwd v)) = .host (.code (romFwd v)) := by
  have h := congrArg (·[v.toNat]?) map_encode_alphabetRows
  simpa only [List.getElem?_map, alphabetRows_getElem?, rom_getElem?, Option.map_some, Option.some.injEq] using h

/-- The row of a symbol value answers it (R80, R100). -/
theorem exec_decodeCode_romFwd (v : Symbol) (s : State) :
    exec (decodeCode (romFwd v)) s = .next (s.withResp (.value (some v))) := by
  have h := congrArg (·[v.toNat]?) (map_exec_alphabetRows s)
  have hv : (List.range 32)[v.toNat]? = some v.toNat := List.getElem?_range v.isLt
  simpa only [List.getElem?_map, alphabetRows_getElem?, hv, Option.map_some, Option.some.injEq, BitVec.ofNat_toNat,
    BitVec.setWidth_eq] using h

/-- Settles O33: the row of a symbol value is the one its character decodes to. -/
theorem alphabetRowsGiveTheirValue : Obligations.AlphabetRowsGiveTheirValue := by
  intro v i s hi
  rw [alphabetRows_getElem?, Option.some.injEq] at hi
  subst hi
  exact ⟨exec_decodeCode_romFwd v s, encode_decodeCode_romFwd v, rfl⟩

/-! The codes outside the alphabet. -/

/-- R84: a code that has no symbol value decodes to SYM.INVALID. -/
theorem decodeCode_of_invalid {c : Byte} (h : romInv c = none) : decodeCode c = .symInvalid c := by
  have hcodes : symRows.map Prod.fst = rom := rfl
  have hfind : symRows.find? (fun r => r.1 == c) = none := by
    refine List.find?_eq_none.2 fun r hr hrc => ?_
    have hmem : c ∈ rom := by
      rw [← hcodes, ← eq_of_beq hrc]
      exact List.mem_map_of_mem hr
    obtain ⟨n, hn, hc⟩ := List.mem_iff_getElem.1 hmem
    refine romInv_eq_none_iff.1 h (BitVec.ofNat 5 n) ?_
    rw [romFwd_eq_getElem, ← hc]
    congr 1
    exact Nat.mod_eq_of_lt hn
  rw [decodeCode, hfind]

/-- R105: the two code ranges are the codes that have a symbol value. -/
theorem isAlphabetCode_eq (c : Byte) : isAlphabetCode c = (romInv c).isSome := by
  rw [romInv_eq_byRange, isAlphabetCode]
  split_ifs <;> simp_all

/-- Where SYM.INVALID is consumed: at DEC's read index, with a P-step enabled (R84). -/
theorem decConsumes_iff {c : Byte} {s : State} : decConsumes c s = true ↔
    s.dec.st = .run ∧ s.dec.oidx < s.dec.tgt ∧ s.dec.idx < s.dec.len ∧ Memory.read s.inD s.dec.idx = some c := by
  simp only [decConsumes, Bool.and_eq_true, decide_eq_true_eq, memReadInD_ok, and_assoc]

theorem exec_symInvalid_of_consumed {c : Byte} {s : State} (hc : romInv c = none) (h : decConsumes c s = true) :
    exec (.symInvalid c) s = .next (raise .dec (.char c s.dec.idx) (s.withResp (.value none))) := by
  simp only [exec, execSymInvalid, hc, h, and_self, if_true]

theorem exec_symInvalid_of_not_consumed {c : Byte} {s : State} (hc : romInv c = none) (h : ¬ decConsumes c s = true) :
    exec (.symInvalid c) s = .next (s.withResp (.value none)) := by
  simp only [exec, execSymInvalid, hc]
  exact if_neg fun hboth => h hboth.2

/-- Settles O34: SYM.INVALID raises the error of the P-step that is about to consume the code, the P-step's first
character being bad. -/
theorem invalidCodeFailsTheDecode : Obligations.InvalidCodeFailsTheDecode := by
  intro c s hc
  refine ⟨decodeCode_of_invalid hc, fun p he hi hread => ?_, fun h => ?_⟩
  · obtain ⟨hrun, hmore, -⟩ := id he
    have htake : 0 < decTake p := by cases p <;> decide
    refine ⟨_, exec_symInvalid_of_consumed hc (decConsumes_iff.2 ⟨hrun, hmore, hi, hread⟩), rfl, ?_⟩
    rw [exec_decodeDec_true]
    exact decPhaseStep_bad he ⟨le_rfl, by omega, hi, hread, hc, fun j hlo hhi => by omega⟩
  · exact exec_symInvalid_of_not_consumed hc (decConsumes_iff.not.2 h)

/-! The words of the host. -/

@[simp] theorem cmdOp_cmdWord (absent op : Bool) : cmdOp (cmdWord absent op) = op := by
  cases absent <;> cases op <;> rfl

@[simp] theorem cmdAbsent_cmdWord (absent op : Bool) : cmdAbsent (cmdWord absent op) = absent := by
  cases absent <;> cases op <;> rfl

/-- A command word is its two fields (R74). -/
theorem cmdWord_fields (cmd : Command) : cmdWord (cmdAbsent cmd) (cmdOp cmd) = cmd := by
  revert cmd
  decide

/-- Decoding the word of a well-formed operation gives the operation back. -/
theorem decode_encode {i : Instr} (hi : i.wellFormed = true) : decode (encode i) = i := by
  cases i
  case encStart absent len => simp [encode, decode, decodeHost, decodePort]
  case decStart absent len => simp [encode, decode, decodeHost, decodePort]
  case symInvalid c =>
    refine decodeCode_of_invalid (c := c) ?_
    simpa [Instr.wellFormed, isAlphabetCode_eq] using hi
  all_goals rfl

theorem encode_decodeCall (cmd : Command) (len : Nat) : encode (decodeCall cmd len) = .host (.call cmd len) := by
  conv_rhs => rw [← cmdWord_fields cmd]
  cases hop : cmdOp cmd <;> cases habsent : cmdAbsent cmd <;> simp only [decodeCall, hop, habsent] <;> rfl

theorem encode_decodePort (cmd : Command) (len : Nat) : encode (decodePort cmd len) = .host (.port cmd len) := by
  conv_rhs => rw [← cmdWord_fields cmd]
  cases hop : cmdOp cmd <;> simp only [decodePort, hop] <;> rfl

theorem encode_decodeFunc (f : Func) : encode (decodeFunc f) = .host (.func f) := by
  cases f <;> rfl

theorem encode_decodeCode (c : Byte) : encode (decodeCode c) = .host (.code c) := by
  cases hc : romInv c with
  | none => rw [decodeCode_of_invalid hc]; rfl
  | some v => rw [← romFwd_of_romInv_eq_some hc, encode_decodeCode_romFwd]

/-- Each word of the host has one meaning, which names the word. -/
theorem encode_decodeHost (w : HostWord) : encode (decodeHost w) = .host w := by
  cases w with
  | call cmd len => exact encode_decodeCall cmd len
  | port cmd len => exact encode_decodePort cmd len
  | func f => exact encode_decodeFunc f
  | code c => exact encode_decodeCode c

theorem decodeCode_wellFormed (c : Byte) : (decodeCode c).wellFormed = true := by
  cases hc : romInv c with
  | none => simp [decodeCode_of_invalid hc, Instr.wellFormed, isAlphabetCode_eq, hc]
  | some v =>
    have hrows : ∀ i ∈ alphabetRows, i.wellFormed = true := by decide
    rw [← romFwd_of_romInv_eq_some hc]
    exact hrows _ (List.mem_of_getElem? (alphabetRows_getElem? v))

theorem decodeHost_wellFormed (w : HostWord) : (decodeHost w).wellFormed = true := by
  cases w with
  | call cmd len => rw [decodeHost, decodeCall]; split <;> rfl
  | port cmd len => rw [decodeHost, decodePort]; split <;> rfl
  | func f => cases f <;> rfl
  | code c => exact decodeCode_wellFormed c

/-- Every word selects a well-formed operation (R84, R86). -/
theorem decode_wellFormed (w : OpWord) : (decode w).wellFormed = true := by
  cases w with
  | host w => exact decodeHost_wellFormed w
  | encRun more ph => cases more <;> cases ph <;> rfl
  | decRun more ph => cases more <;> cases ph <;> rfl

/-- Settles O58: the round trips of operations and of host words, and what every word decodes to. -/
theorem decodeAndEncodeAgree : Obligations.DecodeAndEncodeAgree :=
  ⟨fun _ => decode_encode, encode_decodeHost, decode_wellFormed⟩

/-- Settles O57: each word is looked up in its table. -/
theorem wordsOfTheTablesDecode : Obligations.WordsOfTheTablesDecode := by
  unfold Obligations.WordsOfTheTablesDecode
  decide

end Sys2Proof.Machine
end

section
/-! PROOFS. What the host sees (R29, R31, R35, R56, R58, R59, R231, R239): the ports, the buffers of a busy unit and of one at
rest, and the results it reads; and the statements O2, O53, O54 and O55. -/

namespace Sys2Proof.Machine

/-! The ports. -/

theorem hostPort_of_ok {p : StatusPort} {s : State} {r : Response} (h : portValue p s = .ok r) :
    hostPort p s = .next (s.withResp r) := by
  rw [hostPort, h]

theorem hostPort_of_error {p : StatusPort} {s : State} {f : Fault} (h : portValue p s = .error f) :
    hostPort p s = .fault f := by
  rw [hostPort, h]

/-- A port of a unit in `DONE` carries its register (R35). -/
theorem whileDone_of_done {u : UnitId} {s : State} (r : Response) (h : ctl u s = .done) : whileDone u s r = .ok r :=
  if_pos h

/-- A port of a unit before `DONE` carries no value (R35, U4). -/
theorem whileDone_of_not_done {u : UnitId} {s : State} (r : Response) (h : ctl u s ≠ .done) :
    whileDone u s r = .error .portNotValid :=
  if_neg h

/-- Settles O53: each status port is its register under `whileDone`, and the flags read the control state. -/
theorem statusPortsCarryTheirRegisters : Obligations.StatusPortsCarryTheirRegisters := by
  intro s
  have hdone : ∀ {u p r}, portValue p s = whileDone u s r → ctl u s = .done → hostPort p s = .next (s.withResp r) :=
    fun hp h => hostPort_of_ok (hp.trans (whileDone_of_done _ h))
  have hbefore : ∀ {u p r}, portValue p s = whileDone u s r → ctl u s ≠ .done → hostPort p s = .fault .portNotValid :=
    fun hp h => hostPort_of_error (hp.trans (whileDone_of_not_done _ h))
  refine ⟨fun h => ⟨hdone rfl h, hdone rfl h⟩,
    fun h => ⟨hdone rfl h, hdone rfl h, hdone rfl h, hdone rfl h, hdone rfl h⟩, fun h p hp => ?_, fun h p hp => ?_,
    hostPort_of_ok rfl, hostPort_of_ok rfl, hostPort_of_ok rfl, hostPort_of_ok rfl⟩
  · simp only [List.mem_cons, List.not_mem_nil, or_false] at hp
    rcases hp with rfl | rfl <;> exact hbefore rfl h
  · simp only [List.mem_cons, List.not_mem_nil, or_false] at hp
    rcases hp with rfl | rfl | rfl | rfl | rfl <;> exact hbefore rfl h

/-- A tick moves nothing while both units are outside `RUN`, whatever the pick. -/
theorem tick_of_not_run {s : State} (henc : s.enc.st ≠ .run) (hdec : s.dec.st ≠ .run) (p : Pick) : tick p s = .next s := by
  have henc' : unitStep .enc s = .next s := unitStep_of_not_run henc
  have hdec' : unitStep .dec s = .next s := unitStep_of_not_run hdec
  cases p with
  | enc => exact henc'
  | dec => exact hdec'
  | both => rw [tick, henc', andThen_next, hdec']

/-- An element that is unspecified reads as the free value of its event (R59). -/
theorem hostRead_of_open {sp : Space} {i d : Nat} {s : State} (hrest : ctl sp.owner s ≠ .run)
    (h : openAt (openOf sp s) i = some d) :
    hostRead sp i s = .next (s.withResp (.element (Config.freeElement sp.owner d i))) := by
  rw [hostRead_eq hrest, elementOf, h]

/-- An element that is specified and stored reads as what was stored (R58). -/
theorem hostRead_of_stored {sp : Space} {i : Nat} {b : Byte} {s : State} (hrest : ctl sp.owner s ≠ .run)
    (hopen : openAt (openOf sp s) i = none) (hb : Memory.read (spaceOf sp s) i = some b) :
    hostRead sp i s = .next (s.withResp (.element b)) := by
  rw [hostRead_eq hrest, elementOf, hopen]
  simp only [readElement_ok.2 hb]

/-- Settles O2: after `rst` both units are in `IDLE`, and the whole output buffer of a unit that ran is unspecified. -/
theorem rstCutsTheOperation : Obligations.RstCutsTheOperation := by
  intro s
  have henc : (rstInput s).enc.st ≠ .run := fun hrun => nomatch hrun
  have hdec : (rstInput s).dec.st ≠ .run := fun hrun => nomatch hrun
  refine ⟨rstInput s, rfl, whileDone_of_not_done (u := .enc) _ (fun hdone => nomatch hdone),
    whileDone_of_not_done (u := .dec) _ (fun hdone => nomatch hdone), tick_of_not_run henc hdec,
    fun hrun i => hostRead_of_open (sp := .outE) henc ?_, fun hrun i => hostRead_of_open (sp := .outD) hdec ?_⟩
  · change openAt (if s.enc.st = .run then unspecifiedFrom s else s.eOpen) i = some s.draw
    rw [if_pos hrun, openAt_unspecifiedFrom]
  · change openAt (if s.dec.st = .run then unspecifiedFrom s else s.dOpen) i = some s.draw
    rw [if_pos hrun, openAt_unspecifiedFrom]

/-! The buffers of a busy unit. -/

section
variable {s : State}

theorem hostWrite_busy {sp : Space} (i : Nat) (b : Byte) (h : ctl sp.owner s = .run) :
    hostWrite sp i b s = .refused .bufferBusy :=
  if_pos (decide_eq_true h)

theorem hostRead_busy {sp : Space} (i : Nat) (hout : sp.isOutput = true) (h : ctl sp.owner s = .run) :
    hostRead sp i s = .refused .bufferBusy := by
  have hbusy : busy sp.owner s = true := decide_eq_true h
  rw [hostRead, hout, hbusy]
  rfl

theorem provideBuffer_busy {u : UnitId} (n : Nat) (h : ctl u s = .run) : provideBuffer u n s = .refused .bufferBusy :=
  if_pos (decide_eq_true h)

end

/-- Settles O54: each access is guarded by the owner's `busy`. -/
theorem buffersAreFrozenWhileBusy : Obligations.BuffersAreFrozenWhileBusy := by
  intro s i n b
  constructor
  · intro hrun
    exact ⟨hostWrite_busy (sp := .inE) i b hrun, hostWrite_busy (sp := .outE) i b hrun,
      hostRead_busy (sp := .outE) i rfl hrun, provideBuffer_busy (u := .enc) n hrun⟩
  · intro hrun
    exact ⟨hostWrite_busy (sp := .inD) i b hrun, hostWrite_busy (sp := .outD) i b hrun,
      hostRead_busy (sp := .outD) i rfl hrun, provideBuffer_busy (u := .dec) n hrun⟩

/-! What the host stores. -/

theorem hostWrite_eq {sp : Space} {s : State} (i : Nat) (b : Byte) (h : ctl sp.owner s ≠ .run) :
    hostWrite sp i b s = .next (storeElement sp i b s) :=
  if_neg (by rwa [busy, decide_eq_true_eq])

/-- A store leaves every other space. -/
theorem spaceOf_storeElement_ne {sp sp' : Space} (i : Nat) (b : Byte) (s : State) (h : sp' ≠ sp) :
    spaceOf sp' (storeElement sp i b s) = spaceOf sp' s := by
  cases sp <;> cases sp' <;> simp_all [spaceOf, storeElement]

/-- A store leaves what is unspecified in every other space. -/
theorem openOf_storeElement_ne {sp sp' : Space} (i : Nat) (b : Byte) (s : State) (h : sp' ≠ sp) :
    openOf sp' (storeElement sp i b s) = openOf sp' s := by
  cases sp <;> cases sp' <;> simp_all [openOf, storeElement]

theorem ctl_storeElement (u : UnitId) (sp : Space) (i : Nat) (b : Byte) (s : State) :
    ctl u (storeElement sp i b s) = ctl u s := by
  cases u with
  | enc => exact congrArg EncRegs.st (storeElement_enc sp i b s)
  | dec => exact congrArg DecRegs.st (storeElement_dec sp i b s)

/-! What the operations leave for the host to read. -/

/-- Where ENCODE answers it has ended, all its characters emitted (R140, R150). -/
theorem exec_encode_encodesTo {s t : State} {len : Nat} (h : exec (.encode len) s = .next t) :
    EncodesTo s len t ∧ t.enc.st = .done ∧ t.enc.oidx = lenEnc len := by
  obtain ⟨u, hu, hrun⟩ := execEncode_next h
  obtain ⟨-, ⟨hfalse, -⟩ | ⟨-, rfl⟩⟩ := encStart_next hu
  · cases hfalse
  · have hdone := encRun_next_done (encInv_started s len) rfl hrun
    obtain ⟨hinv, hto⟩ := encRun_keeps (P := fun t => EncInv t ∧ EncodesTo s len t)
      (fun ⟨hinv, hto⟩ h => ⟨encMicro_keeps_encInv hinv h, hto.of_encMicro hinv h⟩)
      ⟨encInv_started s len, encodesTo_started s len⟩ hrun
    obtain ⟨-, -, holen, hstatus⟩ := id hto
    exact ⟨hto, hdone, (hinv.2 hdone hstatus).trans holen⟩

/-- Where DECODE answers, the bytes it counts are those of the bitstream (R170), and what is unspecified is settled. -/
theorem exec_decode_settles {s t : State} {len : Nat} (h : exec (.decode len) s = .next t) :
    DecSettles s t ∧ ∀ k, k < t.dec.olen → Memory.read t.outD k = some (decVal s.inD k) := by
  obtain ⟨u, hu, hrun⟩ := execDecode_next h
  obtain ⟨-, ⟨hfalse, -⟩ | ⟨-, -, rfl⟩ | ⟨-, hlen, rfl⟩⟩ := decStart_next hu
  · cases hfalse
  · rw [decRun_of_not_run _ (by simp [raise_dec_length])] at hrun
    cases hrun
    exact ⟨⟨fun hok => (nomatch hok), fun _ => ⟨rfl, rfl⟩⟩, fun k hk => absurd hk k.not_lt_zero⟩
  · obtain ⟨-, ⟨-, -, -, hbytes⟩, hset⟩ := decRun_keeps DecReaches.of_decMicro (decReaches_started s hlen) hrun
    refine ⟨hset, fun k hk => hbytes k ?_⟩
    by_cases hok : t.dec.status = .ok
    · exact hk.trans_le (hset.1 hok).1
    · rw [(hset.2 hok).1] at hk
      exact absurd hk k.not_lt_zero

theorem hostRead_after_encode {s t : State} {i len : Nat} (h : exec (.encode len) s = .next t) (hi : i < t.enc.olen) :
    hostRead .outE i t = .next (t.withResp (.element (romFwd (encVal s.inE len i)))) := by
  obtain ⟨hto, hdone, hall⟩ := exec_encode_encodesTo h
  obtain ⟨-, -, holen, -⟩ := id hto
  obtain ⟨hchars, -⟩ := hto.closed_form hall
  obtain ⟨hread, hopen⟩ := hchars i (by omega)
  exact hostRead_of_stored (sp := .outE) (fun hrun => absurd (hdone.symm.trans hrun) (by decide)) hopen hread

theorem hostRead_after_decode {s t : State} {i len : Nat} (h : exec (.decode len) s = .next t) (hdone : t.dec.st = .done)
    (hi : i < t.dec.olen) : hostRead .outD i t = .next (t.withResp (.element (decVal s.inD i))) := by
  obtain ⟨⟨hok, hbad⟩, hbytes⟩ := exec_decode_settles h
  have hstatus : t.dec.status = .ok := by
    by_contra hne
    rw [(hbad hne).1] at hi
    exact i.not_lt_zero hi
  obtain ⟨hle, hopen⟩ := hok hstatus
  refine hostRead_of_stored (sp := .outD) (fun hrun => absurd (hdone.symm.trans hrun) (by decide)) ?_ (hbytes i hi)
  exact (hopen i).trans (if_pos (hi.trans_le hle))

theorem hostRead_after_bad_decode {s t : State} {i len : Nat} (h : exec (.decode len) s = .next t)
    (hdone : t.dec.st = .done) (hne : t.dec.status ≠ .ok) :
    hostRead .outD i t = .next (t.withResp (.element (Config.freeElement .dec s.draw i))) := by
  obtain ⟨⟨-, hbad⟩, -⟩ := exec_decode_settles h
  refine hostRead_of_open (sp := .outD) (fun hrun => absurd (hdone.symm.trans hrun) (by decide)) ?_
  rw [openOf, (hbad hne).2, openAt_unspecifiedFrom]

theorem hostRead_after_encodeAbsent {s t : State} {i len : Nat} (h : exec (.encodeAbsent len) s = .next t) :
    hostRead .outE i t = .next (t.withResp (.element (Config.freeElement .enc s.draw i))) := by
  obtain ⟨-, ⟨-, rfl⟩ | ⟨hfalse, -⟩⟩ := encStart_next h
  · exact hostRead_of_open (sp := .outE) (fun hrun => nomatch hrun) rfl
  · cases hfalse

theorem hostRead_after_decodeAbsent {s t : State} {i len : Nat} (h : exec (.decodeAbsent len) s = .next t) :
    hostRead .outD i t = .next (t.withResp (.element (Config.freeElement .dec s.draw i))) := by
  obtain ⟨-, ⟨-, rfl⟩ | ⟨hfalse, -⟩ | ⟨hfalse, -⟩⟩ := decStart_next h
  · exact hostRead_of_open (sp := .outD) (fun hrun => nomatch hrun) rfl
  · cases hfalse
  · cases hfalse

/-- A second read gives the same: a read takes no notice of the answer (R56). -/
theorem hostRead_again {s t : State} {sp : Space} {i : Nat} (h : hostRead sp i s = .next t) : hostRead sp i t = .next t := by
  unfold hostRead at h
  split at h
  · cases h
  · next hfree =>
    cases hel : elementOf sp i s with
    | ok b =>
      rw [hel] at h
      cases h
      have hel' : elementOf sp i (s.withResp (.element b)) = .ok b := by cases sp <;> exact hel
      have hfree' : ¬ (sp.isOutput && busy sp.owner (s.withResp (.element b))) = true := by cases sp <;> exact hfree
      rw [hostRead, if_neg hfree', hel']
      rfl
    | error f =>
      rw [hel] at h
      cases h

/-- Settles O55: a store and the operations say what stands in a buffer and what is unspecified, and a read answers it. -/
theorem hostReadsWhatStands : Obligations.HostReadsWhatStands := by
  refine ⟨fun s sp i b hrest => ?_, fun s t i len h _ => hostRead_after_encode h,
    fun s t i len h hdone => hostRead_after_decode h hdone, fun s t i len => hostRead_after_encodeAbsent,
    fun s t i len => hostRead_after_decodeAbsent, fun s t i len h hdone => hostRead_after_bad_decode h hdone,
    fun s t sp i h => ⟨hostRead_next h, hostRead_again h⟩⟩
  refine ⟨_, hostWrite_eq i b hrest, ?_, fun k hk => ?_, fun sp' hne => ⟨spaceOf_storeElement_ne i b s hne,
    openOf_storeElement_ne i b s hne, fun k => ?_⟩, by simp⟩
  · rw [hostRead_eq (by rwa [ctl_storeElement]), elementOf_storeElement, if_pos ⟨rfl, rfl⟩]
  · rw [elementOf_storeElement, if_neg fun h => hk h.2]
  · rw [elementOf_storeElement, if_neg fun h => hne h.1]

end Sys2Proof.Machine
end

section
/-! PROOFS. The dispatch of a step (R90, R216, R232): what each request of the host runs, what the units do with none, a table
word placed where the next step takes it; and the statement O56. -/

namespace Sys2Proof.Machine

/-- A chain is decided by what its second part does with the states the first can answer. -/
theorem andThen_congr {o : Out} {f g : State → Out} (h : ∀ t, o = .next t → f t = g t) : andThen o f = andThen o g := by
  cases o with
  | next t => exact h t rfl
  | fault r => rfl
  | refused r => rfl

/-- The wait kept or over, written out with the requests that are left (R90). -/
theorem keepWaiting_of_pending {u : UnitId} {t : State} {rest : List HostEvent} (h : t.pending = rest) :
    keepWaiting u t = if busy u t = true then t.withPending (.await u :: rest) else t := by
  rw [keepWaiting, h]

/-- A tick takes no request. -/
theorem tick_pending_eq {p : Pick} {s t : State} (h : tick p s = .next t) : t.pending = s.pending := by
  cases p with
  | enc => exact (unitStep_onlyUnitMoved (u := .enc) h).pending_eq
  | dec => exact (unitStep_onlyUnitMoved (u := .dec) h).pending_eq
  | both =>
    obtain ⟨v, hv, h⟩ := andThen_eq_next.1 h
    exact (unitStep_onlyUnitMoved h).pending_eq.trans (unitStep_onlyUnitMoved hv).pending_eq

/-- With DEC at rest, one micro-step of each is one of ENC. -/
theorem tick_both_of_dec_at_rest {s : State} (h : s.dec.st ≠ .run) : tick .both s = unitStep .enc s := by
  rw [tick]
  cases hstep : unitStep .enc s with
  | next t =>
    have hsame : SamePart .dec s t := unitStep_samePart_other hstep
    exact unitStep_of_not_run (u := .dec) (by rwa [hsame.ctl_eq])
  | fault r => rfl
  | refused r => rfl

/-- With ENC at rest, one micro-step of each is one of DEC. -/
theorem tick_both_of_enc_at_rest {s : State} (h : s.enc.st ≠ .run) : tick .both s = unitStep .dec s := by
  rw [tick, unitStep_enc_of_not_run h, andThen_next]

/-- The schedule runs the one running unit (R216). -/
theorem freeTick_of_enc_only {s : State} (henc : s.enc.st = .run) (hdec : s.dec.st ≠ .run) :
    freeTick s = unitStep .enc s := by
  have hbusy : eBusy s = true := decide_eq_true henc
  have hrest : dBusy s = false := decide_eq_false hdec
  rw [freeTick]
  cases Config.schedule s.draw with
  | enc => rw [fairPick, hbusy]; rfl
  | dec => rw [fairPick, hrest]; rfl
  | both => exact tick_both_of_dec_at_rest hdec

/-- The schedule runs the one running unit (R216). -/
theorem freeTick_of_dec_only {s : State} (henc : s.enc.st ≠ .run) (hdec : s.dec.st = .run) :
    freeTick s = unitStep .dec s := by
  have hrest : eBusy s = false := decide_eq_false henc
  have hbusy : dBusy s = true := decide_eq_true hdec
  rw [freeTick]
  cases Config.schedule s.draw with
  | enc => rw [fairPick, hrest]; rfl
  | dec => rw [fairPick, hbusy]; rfl
  | both => exact tick_both_of_enc_at_rest henc

/-- A scheduled step is a micro-step of one unit or one of each (R232). -/
theorem freeTick_cases (s : State) : freeTick s = unitStep .enc s ∨ freeTick s = unitStep .dec s ∨
    freeTick s = andThen (unitStep .enc s) (unitStep .dec) := by
  rw [freeTick]
  cases fairPick (Config.schedule s.draw) s with
  | enc => exact .inl rfl
  | dec => exact .inr (.inl rfl)
  | both => exact .inr (.inr rfl)

/-- A whole operation presented is its START, and the wait if the unit runs (R90). -/
theorem step_of_call {s : State} {cmd : Command} {len : Nat} {rest : List HostEvent}
    (h : s.pending = .word (.call cmd len) :: rest) :
    step s = andThen (exec (decode (.host (.port cmd len))) ((nextDraw s).withPending rest))
      (fun t => .next (if busy (cmdUnit cmd) t = true then t.withPending (.await (cmdUnit cmd) :: rest) else t)) := by
  rw [step_of_request h]
  refine andThen_congr fun t ht => congrArg _ (keepWaiting_of_pending ?_)
  exact (exec_decodePort_onlyUnitMoved ht).pending_eq

/-- A wait for a unit that is not busy is over. -/
theorem step_of_await_over {s : State} {u : UnitId} {rest : List HostEvent} (h : s.pending = .await u :: rest)
    (hrest : busy u s = false) : step s = .next ((nextDraw s).withPending rest) := by
  have hbusy : busy u ((nextDraw s).withPending rest) = false := by cases u <;> exact hrest
  rw [step_of_request h]
  exact if_neg (by rw [hbusy]; exact Bool.false_ne_true)

/-- A wait for a busy unit is a tick, and goes on while the unit is busy (R90). -/
theorem step_of_await_busy {s : State} {u : UnitId} {rest : List HostEvent} (h : s.pending = .await u :: rest)
    (hrun : busy u s = true) : ∃ p, step s = andThen (tick p ((nextDraw s).withPending rest))
      (fun t => .next (if busy u t = true then t.withPending (.await u :: rest) else t)) := by
  have hbusy : busy u ((nextDraw s).withPending rest) = true := by cases u <;> exact hrun
  refine ⟨fairPick (Config.schedule (s.draw + 1)) ((nextDraw s).withPending rest), ?_⟩
  rw [step_of_request h]
  refine (if_pos hbusy).trans ?_
  exact andThen_congr fun t ht => congrArg _ (keepWaiting_of_pending (tick_pending_eq ht))

/-! Table words. -/

/-- A table word of 8 bits is a character code (R72). -/
theorem tableWord_code (c : Byte) : tableWord 8 c.toNat = .ok (.code c) := by
  simp [tableWord, c.isLt]

/-- A table word of 2 bits is a command word (R74). -/
theorem tableWord_command (cmd : Command) : tableWord 2 cmd.toNat = .ok (.call cmd 0) := by
  simp [tableWord, cmd.isLt]

/-- The step after a word is placed takes it. -/
theorem step_present (w : HostWord) (s : State) : step (present w s) = hostWord w (nextDraw s) := rfl

/-- A command with `ABSENT` = 1 completes in its START, so that no wait is left (R201). -/
theorem hostWord_call_absent {cmd : Command} (len : Nat) (s : State) (h : cmdAbsent cmd = true) :
    hostWord (.call cmd len) s = exec (decodeCall cmd len) s := by
  have hcall : exec (decodeCall cmd len) s = exec (decodePort cmd len) s := by
    cases hop : cmdOp cmd <;> simp only [decodeCall, decodePort, hop, h] <;> rfl
  have hrest : ∀ t, exec (decodePort cmd len) s = .next t → keepWaiting (cmdUnit cmd) t = t := by
    intro t ht
    rcases exec_decodePort_next ht with ⟨hop, ht⟩ | ⟨hop, ht⟩ <;> rw [h] at ht
    · obtain ⟨-, ⟨-, rfl⟩ | ⟨hfalse, -⟩⟩ := encStart_next ht
      · rw [cmdUnit_of_not_op hop]
        exact keepWaiting_of_not_run fun hrun => nomatch hrun
      · cases hfalse
    · obtain ⟨-, ⟨-, rfl⟩ | ⟨hfalse, -⟩ | ⟨hfalse, -⟩⟩ := decStart_next ht
      · rw [cmdUnit_of_op hop]
        exact keepWaiting_of_not_run fun hrun => nomatch hrun
      · cases hfalse
      · cases hfalse
  calc
    hostWord (.call cmd len) s = andThen (exec (decodePort cmd len) s) .next :=
      andThen_congr fun t ht => congrArg _ (hrest t ht)
    _ = exec (decodePort cmd len) s := by cases exec (decodePort cmd len) s <;> rfl
    _ = exec (decodeCall cmd len) s := hcall.symm

/-- Settles O56: a step takes its request as written, and with none it is the tick of the running units. -/
theorem stepRunsTheDecodedOperation : Obligations.StepRunsTheDecodedOperation := by
  intro s
  refine ⟨fun _ _ _ => step_of_request, fun _ _ => step_of_request, fun _ _ => step_of_request, fun _ _ _ => step_of_call,
    fun _ => step_of_request, fun _ => step_of_request, fun _ => step_of_request, fun _ => step_of_request,
    fun _ _ _ => step_of_request, fun _ _ _ _ => step_of_request, fun _ _ _ => step_of_request, fun _ _ => step_of_request,
    fun _ _ => step_of_await_over, fun _ _ => step_of_await_busy, fun h henc hdec => ?_, fun h henc hdec => ?_,
    fun h _ _ => ?_, fun h henc hdec => ?_, fun u i h => ?_, fun c => ?_, fun cmd => ?_, fun cmd habsent => ?_⟩
  · exact (step_of_no_request h).trans (freeTick_of_enc_only henc hdec)
  · exact (step_of_no_request h).trans (freeTick_of_dec_only henc hdec)
  · rw [step_of_no_request h]
    exact freeTick_cases _
  · exact (step_of_no_request h).trans (tick_of_not_run (s := nextDraw s) henc hdec _)
  · rw [unitStep, h]
  · rw [State.withFetchWord, tableWord_code]
    exact step_present _ s
  · rw [State.withFetchWord, tableWord_command]
    exact step_present _ s
  · rw [State.withFetchWord, tableWord_command]
    exact (step_present _ s).trans (hostWord_call_absent 0 _ habsent)

end Sys2Proof.Machine
end
